-- ==== Sys2Proof/Word.lean ====
section
/-! DEFINITION. The words of MCB-CE (spec/00_scope.md R7, R9, R13): registers and characters of 32 bits, bytes of 8. Every
value is unsigned; nothing is ever sign-extended (R9). -/

namespace Sys2Proof

/-- A 32-bit register value, command word or byte address (R7, R15, R45, R63). -/
abbrev Word := BitVec 32

/-- One byte of memory (R45). -/
abbrev Byte := BitVec 8

/-- A character: one 32-bit code unit, compared by all 32 bits and never interpreted (R13). -/
abbrev Chr := BitVec 32

/-- A primary token: exactly two characters, in order (R5, R41). -/
abbrev PriToken := Chr × Chr

end Sys2Proof
end

