-- ==== Sys2Proof/Config.lean ====
section
/-! DEFINITION. The parameters of MCB-CE (spec/00_scope.md R5 to R8) and the free values: what the spec leaves open, as
opaque constants that no proof can look into. -/

namespace Sys2Proof.Config

/-- The tail policy, a build-time parameter (R6). This hardware takes `dual`. -/
inductive TailPolicy where
  /-- The dual-alphabet policy: a tail of at most 6 bits goes through the tail table (R104). -/
  | dual
  /-- The single-alphabet policy: every tail goes through the primary table (R104). -/
  | single
  deriving DecidableEq, Repr

/-- The kind of one access of the memory port (R8). -/
inductive AccessKind where
  | read
  | write
  deriving DecidableEq, Repr

/-- A range of byte addresses, `[base, base + size)` (R47). -/
structure Range where
  base : Nat
  size : Nat
  deriving DecidableEq, Repr

/-- What the build and the platform fix (R6, R8): the tail policy, the window's address, and what the memory port does at
each address. No step changes any of it; a claim holds for every value. The three lists stand for arbitrary predicates on
addresses (memory is finite), written as ranges so that the state stays plain data. DEDUCED (log entry 5). -/
structure Params where
  /-- `TAIL_POLICY` (R6). -/
  policy : TailPolicy
  /-- `REG_BASE`, the window's address in the host's address space (R8). -/
  regBase : Nat
  /-- Where `MemOK(a, read)` is false (R8, R46). -/
  readRefused : List Range
  /-- Where `MemOK(a, write)` is false (R8, R46). -/
  writeRefused : List Range
  /-- Where reads have side effects, so that a read's value is open (R54). -/
  sideEffects : List Range
  deriving DecidableEq, Repr

/-- `PRI_W` (R5): bits of a primary symbol. -/
abbrev priW : Nat := 11
/-- `TAIL_W` (R5): bits of a tail symbol. -/
abbrev tailW : Nat := 6
/-- `READ_MAX` (R5): the largest bit count of `BR_READ` and `BW_WRITE`. -/
abbrev readMax : Nat := 16
/-- The memory's size in bytes (R45): addresses are `0 .. 2^32 - 1`. -/
abbrev memSize : Nat := 2 ^ 32
/-- The host register window's size in bytes (R7, R15). -/
abbrev windowSize : Nat := 256

/-- Free value (R54, R58 rule 3): what the engine reads, at draw `k`, from the byte at address `a` when the host wrote that
byte while the command ran, or when reads there have side effects (log entries 6, 20). -/
opaque unstableByte (k a : Nat) : BitVec 8

/-- Free value (R58 rule 3): whether, at draw `k`, the host's value is what stays in the byte at address `a` that both the
host and the running command wrote (log entry 6). -/
opaque hostWins (k a : Nat) : Bool

/-- Free value (R122, R135): what the byte at address `a` of a command's output range holds after a `BusError`, or after a
reset that aborts the command, at draw `k` (log entries 8, 10). -/
opaque scrambledByte (k a : Nat) : BitVec 8

/-- Free value (R18): what a host read of a register returns, at draw `k`, when the register is undefined while `BUSY = 1`
(log entry 7). -/
opaque busyWord (k : Nat) : BitVec 32

/-- Free value (R58 rule 3): what a host read of a byte of the running command's buffers returns, at draw `k`
(log entry 7). -/
opaque busyByte (k : Nat) : BitVec 8

/-- Free value (R110): whether, at draw `k`, `ENCODE` makes a refused write before a refused read, where its rule lets it
interleave the two either way (log entry 9). -/
opaque writeFirst (k : Nat) : Bool

end Sys2Proof.Config
end

