-- ==== Sys2Proof/Machine/State.lean ====
section
/-! DEFINITION. The state of MCB-CE (spec/10_state.md): every register, flag and table entry the spec gives the engine, the
memory its port reaches, the build's and platform's parameters, and four fields of the model's own (`touched`, `inputs`,
`resp`, `draws`) that hold the host's side of the interface. -/

namespace Sys2Proof.Machine

open Sys2Proof.Config

/-- Memory (R45): the bytes that differ from what an unlisted address reads as, at strictly rising addresses. -/
abbrev Memory := List Host.Cell

/-- The flags of `STATUS` (R22), bits 0 to 6 in order. The bits above are reserved and read 0, so nothing else is stored. -/
structure Status where
  /-- Bit 0: a command is running. -/
  busy : Bool
  /-- Bit 1: a command has completed. -/
  done : Bool
  /-- Bit 2: the last command completed with an error. -/
  err : Bool
  /-- Bit 3: a host write was dropped. -/
  ovr : Bool
  /-- Bit 4: the primary table is committed. -/
  priValid : Bool
  /-- Bit 5: the tail table is committed. -/
  tailValid : Bool
  /-- Bit 6: the Bit Writer is finalised. -/
  bwClosed : Bool
  deriving DecidableEq, Repr

/-- The errors a command can raise, each with what it records (R119). -/
inductive Err where
  /-- 0x01: the first failing index, whether it is a duplicate (else unwritten), whether the table is the tail table. -/
  | malformedTable (index : Nat) (duplicate tailTable : Bool)
  /-- 0x02: the index. -/
  | indexOutOfRange (index : Word)
  /-- 0x03: the position of the token's first character; 0 for the single lookups. -/
  | unknownSymbol (pos : Nat)
  /-- 0x04: the bits remaining. -/
  | endOfStream (remaining : Nat)
  /-- 0x05: the command word. -/
  | illegalCommand (cmd : Word)
  /-- 0x06: which needed tables are missing. -/
  | tableNotReady (primary tailTable : Bool)
  /-- 0x07: which table is locked. -/
  | tableLocked (primary tailTable : Bool)
  /-- 0x08: the output size needed. -/
  | capacityExceeded (needed : Nat)
  /-- 0x09: the base register of the buffer. -/
  | addressError (base : Word)
  /-- 0x0A: `CS_BASE`. -/
  | alignmentError (base : Word)
  /-- 0x0B: nothing. -/
  | bufferOverlap
  /-- 0x0C: the refused byte address. -/
  | busError (addr : Nat)
  /-- 0x0D: the command word. -/
  | sequenceError (cmd : Word)
  deriving DecidableEq, Repr

/-- The registers of the host window (R15). -/
inductive Reg where
  | id | cfg | ctrl | status | errCode | errInfo | cmd | val | res | tok0 | tok1
  | brBase | brLen | brPos | brRem | bwBase | bwCap | bwCnt | bwAcc | csBase | csLen | csCap | csCnt
  deriving DecidableEq, Repr

/-- What the world outside the engine does next (R14, R16, R69, R135). Addresses of window accesses are host addresses,
`bits` is the access's width. -/
inductive Input where
  /-- The host writes the register window. -/
  | regWrite (addr bits : Nat) (v : Word)
  /-- The host reads the register window. -/
  | regRead (addr bits : Nat)
  /-- The host writes a byte of memory. -/
  | memWrite (addr : Word) (v : Byte)
  /-- The host reads a byte of memory. -/
  | memRead (addr : Word)
  /-- The platform asserts the block's reset input. -/
  | hardReset
  /-- Time passes for the engine: a running command completes before the next input. -/
  | turn
  deriving DecidableEq, Repr

/-- What the block, or memory, answered the host's last access (R15, R16). -/
inductive Response where
  /-- No access has been answered. -/
  | idle
  /-- A write was taken (or ignored, or dropped: none of these is an error response). -/
  | ack
  /-- A register read returned this word. -/
  | word (v : Word)
  /-- A memory read returned this byte. -/
  | byte (v : Byte)
  /-- The error response of R16: wrong width or alignment. -/
  | busErrorResponse
  deriving DecidableEq, Repr

/-- Why the model stops. One reason, and no run from reset meets it (R42): every error of the spec is an error completion
instead. -/
inductive Fault where
  /-- Raised by `TBL_ENC_PRI`, `TBL_ENC_TAIL` and `ENCODE` where a committed table has an unwritten entry, which holds no
  value (R42, I9). A commit refuses such a table (R86), so only a state that no run reaches has one. Safe.
  DEDUCED (log entry 13). -/
  | unwrittenEntry
  deriving DecidableEq, Repr

/-- Why an instruction has no meaning. -/
inductive Refusal where
  /-- Raised by an arm of `exec` whose instruction is not modelled; no arm is. Safe. -/
  | notModelled (mnemonic : String)
  deriving DecidableEq, Repr

/-- The state. -/
structure State where
  /-- The build's and platform's parameters (R6, R8); no step changes them. -/
  params : Params
  /-- `CTRL.IE` (R21). -/
  ie : Bool
  /-- `STATUS` (R22). -/
  status : Status
  /-- `ERR_CODE`, bits 7:0 (R23). -/
  errCode : BitVec 8
  /-- `ERR_INFO` (R24). -/
  errInfo : Word
  /-- `LASTCMD`, the last accepted command word (R25, R43). -/
  lastCmd : Word
  /-- `VAL` (R26). -/
  val : Word
  /-- `RES` (R27). -/
  res : Word
  /-- `TOK0` (R28). -/
  tok0 : Word
  /-- `TOK1` (R28). -/
  tok1 : Word
  /-- `BR_BASE` (R29). -/
  brBase : Word
  /-- `BR_LEN`, bits 28:0 (R30). -/
  brLen : BitVec 29
  /-- `BR_POS` (R31). -/
  brPos : Word
  /-- `BW_BASE` (R33). -/
  bwBase : Word
  /-- `BW_CAP`, bits 28:0 (R34). -/
  bwCap : BitVec 29
  /-- `BW_CNT`, bits 28:0 (R35). -/
  bwCnt : BitVec 29
  /-- `BW_ACC.ACCV`, bits 6:0 (R36). -/
  accv : BitVec 7
  /-- `BW_ACC.ACCN`, bits 10:8 (R36). -/
  accn : BitVec 3
  /-- `CS_BASE` (R37). -/
  csBase : Word
  /-- `CS_LEN`, bits 29:0 (R38). -/
  csLen : BitVec 30
  /-- `CS_CAP`, bits 29:0 (R39). -/
  csCap : BitVec 30
  /-- `CS_CNT`, bits 29:0 (R40). -/
  csCnt : BitVec 30
  /-- `PRI_TOK[i]` with `PRI_WR[i]` (R41): `none` is an entry whose written flag is 0, which holds no value (R42; log
  entry 14). -/
  pri : Vector (Option PriToken) 2048
  /-- `TAIL_TOK[j]` with `TAIL_WR[j]` (R41, R42). -/
  tail : Vector (Option Chr) 64
  /-- Memory (R45). -/
  mem : Memory
  /-- The model's own: addresses of the bytes the host wrote while the running command ran (R58 rule 3; log entry 6). -/
  touched : List Nat
  /-- The model's own: what the world outside does, in order (R14, R132). DESIGN CHOICE (log entry 2). -/
  inputs : List Input
  /-- The model's own: the answer to the host's last access (R16; log entry 2). -/
  resp : Response
  /-- The model's own: the number of the step, which tells the free values of different steps apart (log entry 2). -/
  draws : Nat
  deriving DecidableEq, Repr

/-- `STATUS` after reset: 0 (R22). -/
def Status.reset : Status :=
  { busy := false, done := false, err := false, ovr := false, priValid := false, tailValid := false, bwClosed := false }

/-- The parameters the model's reset state takes: the `DUAL` build (R6), and, where the platform decides (R8), a window at
address 0 and a port that refuses nothing. DESIGN CHOICE (unsafe; log entry 4). No statement rests on the platform's part. -/
def resetParams : Params :=
  { policy := .dual, regBase := 0, readRefused := [], writeRefused := [], sideEffects := [] }

/-- The machine right after hardware reset (R135): every register 0, no table entry written, nothing committed. -/
def State.reset : State :=
  { params := resetParams
    ie := false
    status := Status.reset
    errCode := 0
    errInfo := 0
    lastCmd := 0
    val := 0
    res := 0
    tok0 := 0
    tok1 := 0
    brBase := 0
    brLen := 0
    brPos := 0
    bwBase := 0
    bwCap := 0
    bwCnt := 0
    accv := 0
    accn := 0
    csBase := 0
    csLen := 0
    csCap := 0
    csCnt := 0
    pri := Vector.replicate 2048 none
    tail := Vector.replicate 64 none
    mem := []
    touched := []
    inputs := []
    resp := .idle
    draws := 0 }

end Sys2Proof.Machine
end

