-- ==== Sys2Proof/Machine/Flags.lean ====
section
/-! DEFINITION. Every flag computation of MCB-CE: the words of `STATUS`, `CTRL`, `ERR_CODE`, `BW_ACC`, `CFG` and `ID`, how a
command's acceptance and completion and the host's write-1-to-clear change `STATUS`, and the interrupt line. -/

namespace Sys2Proof.Machine

open Sys2Proof.Config

/-- A flag at its bit of a register word. -/
def flagBit (b : Bool) (i : Nat) : Word :=
  if b then BitVec.ofNat 32 (2 ^ i) else 0

/-- The word `STATUS` reads as (R22); bits 31:7 read 0. -/
def Status.word (t : Status) : Word :=
  flagBit t.busy 0 ||| flagBit t.done 1 ||| flagBit t.err 2 ||| flagBit t.ovr 3 ||| flagBit t.priValid 4
    ||| flagBit t.tailValid 5 ||| flagBit t.bwClosed 6

/-- `STATUS` at acceptance (R71): `BUSY <- 1`, `DONE <- 0`. -/
def Status.accepted (t : Status) : Status :=
  { t with busy := true, done := false }

/-- `STATUS` at a completion without error (R74): `BUSY <- 0`, `DONE <- 1`. -/
def Status.completed (t : Status) : Status :=
  { t with busy := false, done := true }

/-- `STATUS` at a completion with an error (R74, R121): `BUSY <- 0`, `DONE <- 1`, `ERR <- 1`. -/
def Status.failed (t : Status) : Status :=
  { t with busy := false, done := true, err := true }

/-- `STATUS` after a dropped host write (R17, R72): `OVR <- 1`. -/
def Status.overrun (t : Status) : Status :=
  { t with ovr := true }

/-- A host write of `STATUS` (R22): each of `DONE`, `ERR` and `OVR` whose written bit is 1 is cleared, all else stays. -/
def Status.clearedBy (t : Status) (v : Word) : Status :=
  { t with
    done := t.done && !v.getLsbD 1
    err := t.err && !v.getLsbD 2
    ovr := t.ovr && !v.getLsbD 3 }

/-- The word `CTRL` reads as (R21): `IE` in bit 0; `SRST` and the reserved bits read 0. -/
def State.ctrlWord (s : State) : Word :=
  flagBit s.ie 0

/-- The interrupt output (R126): `IRQ = CTRL.IE & STATUS.DONE`, at every instant. -/
def State.irq (s : State) : Bool :=
  s.ie && s.status.done

/-- The constant `ID` (R19). -/
def idWord : Word := 0x4D420B06

/-- The bit `CFG.POLICY` (R20): 0 for `DUAL`, 1 for `SINGLE`. -/
def policyBit : TailPolicy → Word
  | .dual => 0
  | .single => 1

/-- The word `CFG` reads as (R20): `POLICY` in bit 0, `PRI_W` in 15:8, `TAIL_W` in 23:16, `READ_MAX` in 28:24. -/
def cfgWord (p : TailPolicy) : Word :=
  policyBit p ||| BitVec.ofNat 32 (priW * 2 ^ 8) ||| BitVec.ofNat 32 (tailW * 2 ^ 16) ||| BitVec.ofNat 32 (readMax * 2 ^ 24)

/-- The word `BW_ACC` reads as (R36): `ACCV` in bits 6:0, `ACCN` in bits 10:8. -/
def State.accWord (s : State) : Word :=
  s.accv.setWidth 32 ||| (s.accn.setWidth 32 <<< 8)

/-- The code of an error (R119). -/
def Err.code : Err → BitVec 8
  | .malformedTable _ _ _ => 0x01
  | .indexOutOfRange _ => 0x02
  | .unknownSymbol _ => 0x03
  | .endOfStream _ => 0x04
  | .illegalCommand _ => 0x05
  | .tableNotReady _ _ => 0x06
  | .tableLocked _ _ => 0x07
  | .capacityExceeded _ => 0x08
  | .addressError _ => 0x09
  | .alignmentError _ => 0x0A
  | .bufferOverlap => 0x0B
  | .busError _ => 0x0C
  | .sequenceError _ => 0x0D

/-- The mask of the tables an error names (R119): bit 0 primary, bit 1 tail. -/
def tableMask (primary tailTable : Bool) : Word :=
  flagBit primary 0 ||| flagBit tailTable 1

/-- The word an error leaves in `ERR_INFO` (R119). -/
def Err.info : Err → Word
  | .malformedTable index duplicate tailTable => BitVec.ofNat 32 index ||| flagBit duplicate 16 ||| flagBit tailTable 17
  | .indexOutOfRange index => index
  | .unknownSymbol pos => BitVec.ofNat 32 pos
  | .endOfStream remaining => BitVec.ofNat 32 remaining
  | .illegalCommand cmd => cmd
  | .tableNotReady primary tailTable => tableMask primary tailTable
  | .tableLocked primary tailTable => tableMask primary tailTable
  | .capacityExceeded needed => BitVec.ofNat 32 needed
  | .addressError base => base
  | .alignmentError base => base
  | .bufferOverlap => 0
  | .busError addr => BitVec.ofNat 32 addr
  | .sequenceError cmd => cmd

end Sys2Proof.Machine
end

