-- ==== Sys2Proof/Syntax.lean ====
section
/-! DEFINITION. The commands of MCB-CE (spec/30_encoding.md R64 to R66; spec/opcode_table.json): the 16 opcodes, the six
formats, and `Instr`, one constructor per row of the opcode table with the fields its format gives it. -/

namespace Sys2Proof

/-- The six formats of a command word (R64). -/
inductive Format where
  | Z | N | P | S | I11 | I6
  deriving DecidableEq, Repr

/-- The 16 defined opcodes, in the order of R66. -/
inductive Opcode where
  | nop | brInit | brRead | bwInit | bwWrite | bwFinal | tblClear | tblCommit | tblWrPri | tblWrTail
  | tblEncPri | tblEncTail | tblDecPri | tblDecTail | encode | decode
  deriving DecidableEq, Repr

/-- The pad flag of `BW_FINAL` (R65, R101): `P = 0` is `trunc`, `P = 1` is `pad`. -/
inductive FinalMode where
  | trunc
  | pad
  deriving DecidableEq, Repr

/-- A command (R66). `n` is the bit count `N`, `sel` the table mask `SEL` (bit 0 primary, bit 1 tail), `idx` the index
`IDX` (R65). -/
inductive Instr where
  | nop
  | brInit
  | brRead (n : BitVec 5)
  | bwInit
  | bwWrite (n : BitVec 5)
  | bwFinal (p : FinalMode)
  | tblClear (sel : BitVec 2)
  | tblCommit (sel : BitVec 2)
  | tblWrPri (idx : BitVec 11)
  | tblWrTail (idx : BitVec 6)
  | tblEncPri
  | tblEncTail
  | tblDecPri
  | tblDecTail
  | encode
  | decode
  deriving DecidableEq, Repr

/-- The opcode of a command (R66). -/
def Instr.opcode : Instr → Opcode
  | .nop => .nop
  | .brInit => .brInit
  | .brRead _ => .brRead
  | .bwInit => .bwInit
  | .bwWrite _ => .bwWrite
  | .bwFinal _ => .bwFinal
  | .tblClear _ => .tblClear
  | .tblCommit _ => .tblCommit
  | .tblWrPri _ => .tblWrPri
  | .tblWrTail _ => .tblWrTail
  | .tblEncPri => .tblEncPri
  | .tblEncTail => .tblEncTail
  | .tblDecPri => .tblDecPri
  | .tblDecTail => .tblDecTail
  | .encode => .encode
  | .decode => .decode

end Sys2Proof
end

