-- ==== Sys2Proof/Machine/Operands.lean ====
section
/-! DEFINITION. The operand forms of the commands: bit counts, table masks and indices from the word, the register operands
each rule names, the buffers they describe, and the bit streams those buffers hold. -/

namespace Sys2Proof.Machine

open Sys2Proof.Config

/-- `SEL[0]`: the primary table is selected (R65). -/
def selPri (sel : BitVec 2) : Bool := sel.getLsbD 0

/-- `SEL[1]`: the tail table is selected (R65). -/
def selTail (sel : BitVec 2) : Bool := sel.getLsbD 1

/-- The low-order `n` bits of `VAL` (R100). -/
def State.valLow (s : State) (n : Nat) : Nat :=
  s.val.toNat % 2 ^ n

/-- `8 * BR_LEN - BR_POS`, the bits remaining, on natural numbers (R10, R32). -/
def State.brRemaining (s : State) : Nat :=
  8 * s.brLen.toNat - s.brPos.toNat

/-- The word `BR_REM` reads as (R32). -/
def State.brRemWord (s : State) : Word :=
  BitVec.ofNat 32 s.brRemaining

/-- `AddrOK(base, size)` (R47): the buffer does not wrap past `2^32`. -/
def addrOK (base : Word) (size : Nat) : Bool :=
  decide (base.toNat + size ≤ memSize)

/-- Two buffers overlap (R48). -/
def overlap (a m b n : Nat) : Bool :=
  decide (0 < m) && decide (0 < n) && decide (a < b + n) && decide (b < a + m)

/-- `CS_BASE[1:0] = 0` (R52). -/
def State.csAligned (s : State) : Bool :=
  s.csBase.extractLsb' 0 2 == 0

/-- The address lies in the range. -/
def inRange (r : Range) (a : Nat) : Bool :=
  decide (r.base ≤ a) && decide (a < r.base + r.size)

/-- The address lies in one of the ranges. -/
def inRanges (rs : List Range) (a : Nat) : Bool :=
  rs.any fun r => inRange r a

/-- The value of the group of `n` bits of a stream that starts at bit `p`, the first bit the most significant (R11). -/
def groupValue (bit : Nat → Bool) (p : Nat) : Nat → Nat
  | 0 => 0
  | n + 1 => 2 * groupValue bit p n + (bit (p + n)).toNat

/-- Bit `i` of the stream of a byte sequence (R11, R49): bit `7 - (i mod 8)` of byte `i div 8`. -/
def streamBit (b : List Byte) (i : Nat) : Bool :=
  (b.getD (i / 8) 0).getLsbD (7 - i % 8)

/-- `ReadBits(B, p, n)` (R11, R12). -/
def readBits (b : List Byte) (p n : Nat) : Nat :=
  groupValue (streamBit b) p n

/-- `Bits(v, n)` (R95): the low `n` bits of `v`, most significant first. -/
def bitsOf (v : Nat) : Nat → List Bool
  | 0 => []
  | n + 1 => v.testBit n :: bitsOf v n

/-- `BitsToBytes` of the whole bytes of a bit sequence (R95, R112): byte `j` is bits `8j` to `8j + 7`, and a last partial
byte is left out. -/
def bitsToBytes (w : List Bool) : List Byte :=
  (List.range (w.length / 8)).map fun j => BitVec.ofNat 8 (groupValue (fun i => w.getD i false) (8 * j) 8)

/-- The index of the first entry that holds a token, of a list of table entries (R80). -/
def entryIndex {α : Type} [DecidableEq α] (t : α) : List (Option α) → Option Nat
  | [] => none
  | e :: es => if e = some t then some 0 else (entryIndex t es).map (· + 1)

/-- `Pri(i)` (R80); `none` where the entry is unwritten or there is none. -/
def priToken (pri : Vector (Option PriToken) 2048) (i : Nat) : Option PriToken :=
  (pri[i]?).join

/-- `Tail(j)` (R80). -/
def tailToken (tail : Vector (Option Chr) 64) (j : Nat) : Option Chr :=
  (tail[j]?).join

/-- `PriInv(t)` (R80): both characters are compared, all 32 bits of each. -/
def priInv (pri : Vector (Option PriToken) 2048) (t : PriToken) : Option Nat :=
  entryIndex t pri.toList

/-- `TailInv(c)` (R80). -/
def tailInv (tail : Vector (Option Chr) 64) (c : Chr) : Option Nat :=
  entryIndex c tail.toList

end Sys2Proof.Machine
end

