-- ==== Sys2Proof/Machine/Ops.lean ====
section
/-! DEFINITION. The operations the commands share: memory in its canonical form, the engine's accesses through its port,
acceptance, completion, and raising an error (this machine's exception entry: spec/60_exceptions.md R121, R122). -/

namespace Sys2Proof.Machine

open Sys2Proof.Config

/-- What an address that memory does not list reads as. DESIGN CHOICE (unsafe; log entry 1): the spec leaves memory's
contents to the platform (R44). -/
def unlistedByte : Byte := 0

/-- Reading one byte of memory (R46). -/
def Memory.read : Memory → Nat → Byte
  | [], _ => unlistedByte
  | (a, v) :: m, k => if k < a then unlistedByte else if k = a then v else Memory.read m k

/-- Writing one byte of memory (R46), keeping the canonical form. -/
def Memory.write : Memory → Nat → Byte → Memory
  | [], k, v => if v = unlistedByte then [] else [(k, v)]
  | (a, w) :: m, k, v =>
    if k < a then (if v = unlistedByte then (a, w) :: m else (k, v) :: (a, w) :: m)
    else if k = a then (if v = unlistedByte then m else (k, v) :: m)
    else (a, w) :: Memory.write m k v

/-- Writing consecutive bytes from an address up, in ascending order (R55). -/
def Memory.writeBytes (m : Memory) (a : Nat) : List Byte → Memory
  | [] => m
  | v :: vs => Memory.writeBytes (Memory.write m a v) (a + 1) vs

/-- The canonical form from a lowest allowed address up. -/
def Memory.wfFrom (lo : Nat) : Memory → Bool
  | [] => true
  | (a, v) :: m => decide (lo ≤ a) && decide (a < memSize) && (v != unlistedByte) && Memory.wfFrom (a + 1) m

/-- Memory is in canonical form: addresses of R45 strictly rising, no byte listed that reads so unlisted. -/
def Memory.wf (m : Memory) : Bool :=
  Memory.wfFrom 0 m

/-- `MemOK(addr, kind)` (R8). -/
def State.memOK (s : State) (kind : AccessKind) (a : Nat) : Bool :=
  match kind with
  | .read => !inRanges s.params.readRefused a
  | .write => !inRanges s.params.writeRefused a

/-- The lowest refused address of an access to `size` bytes from `base` (R46, R55), if there is one. -/
def State.firstRefused (s : State) (kind : AccessKind) (base : Nat) : Nat → Option Nat
  | 0 => none
  | n + 1 =>
    match State.firstRefused s kind base n with
    | some a => some a
    | none => if s.memOK kind (base + n) then none else some (base + n)

/-- The byte the engine reads at an address (R46); a free value where the host wrote the byte while the command ran
(R58 rule 3), or where reads have side effects (R54). -/
def State.portRead (s : State) (a : Nat) : Byte :=
  if s.touched.contains a || inRanges s.params.sideEffects a then unstableByte s.draws a else s.mem.read a

/-- The bytes the engine reads from `n` addresses from `base` up. -/
def State.portBytes (s : State) (base n : Nat) : List Byte :=
  (List.range n).map fun k => s.portRead (base + k)

/-- What a byte holds after the engine writes `v` there: `v`, or, if the host wrote the byte while the command ran, the
host's value or `v` (R58 rule 3). -/
def State.portWritten (s : State) (a : Nat) (v : Byte) : Byte :=
  if s.touched.contains a && hostWins s.draws a then s.mem.read a else v

/-- What `portWritten` says of consecutive addresses. -/
def State.portWrittenFrom (s : State) (a : Nat) : List Byte → List Byte
  | [] => []
  | v :: vs => s.portWritten a v :: s.portWrittenFrom (a + 1) vs

/-- The engine writes consecutive bytes from `base` up (R46, R55). -/
def State.portStore (s : State) (base : Nat) (bs : List Byte) : State :=
  { s with mem := s.mem.writeBytes base (s.portWrittenFrom base bs) }

/-- The free bytes of a range. -/
def scrambledBytes (k base : Nat) : Nat → List Byte
  | 0 => []
  | n + 1 => scrambledByte k base :: scrambledBytes k (base + 1) n

/-- Every byte of a range holds any value (R122, R135). -/
def State.scramble (s : State) (base size : Nat) : State :=
  { s with mem := s.mem.writeBytes base (scrambledBytes s.draws base size) }

/-- The four bytes of a character word, lowest address first (R46 `MemWrite32`, R50). -/
def chrBytes (c : Chr) : List Byte :=
  [c.extractLsb' 0 8, c.extractLsb' 8 8, c.extractLsb' 16 8, c.extractLsb' 24 8]

/-- The bytes of a string in memory (R50). -/
def stringBytes (str : List Chr) : List Byte :=
  str.flatMap chrBytes

/-- The character word of four bytes, the lowest address's first (R46 `MemRead32`). -/
def chrOfBytes (b0 b1 b2 b3 : Byte) : Chr :=
  b3 ++ b2 ++ b1 ++ b0

/-- Character `k` of the string at `CS_BASE`, as the engine reads it (R50). -/
def State.portChr (s : State) (k : Nat) : Chr :=
  let a := s.csBase.toNat + 4 * k
  chrOfBytes (s.portRead a) (s.portRead (a + 1)) (s.portRead (a + 2)) (s.portRead (a + 3))

/-- The string of `n` characters at `CS_BASE`, as the engine reads it (R50). -/
def State.portString (s : State) (n : Nat) : List Chr :=
  (List.range n).map s.portChr

/-- Acceptance of the command word `w` (R71). -/
def State.accept (s : State) (w : Word) : State :=
  { s with lastCmd := w, status := s.status.accepted, errCode := 0, errInfo := 0, touched := [] }

/-- Completion without an error (R74). -/
def State.complete (s : State) : State :=
  { s with status := s.status.completed, touched := [] }

/-- Completion with an error (R74, R121): the flags, the code and the information word, and nothing else. -/
def State.raise (s : State) (e : Err) : State :=
  { s with status := s.status.failed, errCode := e.code, errInfo := e.info, touched := [] }

/-- Completion with `BusError` where the command's output range `[base, base + size)` may have been written (R122;
log entry 8). -/
def State.raiseBus (s : State) (addr base size : Nat) : State :=
  (s.scramble base size).raise (.busError addr)

/-- Completion with `IllegalCommand`, which records the command word (R67, R119). -/
def State.raiseIllegal (s : State) : State :=
  s.raise (.illegalCommand s.lastCmd)

/-- Error return (R124): the host's write of `STATUS`, which clears the flags written 1 and restores nothing. -/
def State.acknowledge (s : State) (v : Word) : State :=
  { s with status := s.status.clearedBy v }

/-- A dropped host write (R17, R72). -/
def State.dropWrite (s : State) : State :=
  { s with status := s.status.overrun }

/-- A new reader instance (R29, R30, R92). -/
def State.newReader (s : State) : State :=
  { s with brPos := 0 }

/-- The writer initialisation (R98). -/
def State.newWriter (s : State) : State :=
  { s with bwCnt := 0, accv := 0, accn := 0, status := { s.status with bwClosed := false } }

/-- The needed tables that are not committed: (primary, tail) (R109, R117). -/
def State.missingTables (s : State) : Bool × Bool :=
  (!s.status.priValid, decide (s.params.policy = .dual) && !s.status.tailValid)

end Sys2Proof.Machine
end

