-- ==== Sys2Proof/WellFormed.lean ====
section
/-! DEFINITION. The legal field values of a command (spec/30_encoding.md R66, R67 step 3): `N` in 1..16, `SEL` not 0; every
value of `P` and `IDX` is legal. -/

namespace Sys2Proof

/-- `N` is a legal bit count: `1 <= N <= READ_MAX` (R66, R67). -/
def legalCount (n : BitVec 5) : Bool :=
  decide (1 ≤ n.toNat) && decide (n.toNat ≤ Config.readMax)

/-- `SEL` selects at least one table (R66, R67). -/
def legalSel (sel : BitVec 2) : Bool :=
  sel != 0

/-- The field values of the command are legal (R66). -/
def Instr.wellFormed : Instr → Bool
  | .nop => true
  | .brInit => true
  | .brRead n => legalCount n
  | .bwInit => true
  | .bwWrite n => legalCount n
  | .bwFinal _ => true
  | .tblClear sel => legalSel sel
  | .tblCommit sel => legalSel sel
  | .tblWrPri _ => true
  | .tblWrTail _ => true
  | .tblEncPri => true
  | .tblEncTail => true
  | .tblDecPri => true
  | .tblDecTail => true
  | .encode => true
  | .decode => true

end Sys2Proof
end

