-- ==== Sys2Proof/Machine/Alphabet.lean ====
section
/-! DEFINITION. The Alphabet Table commands (spec/41_alphabet.md R83 to R90). -/

namespace Sys2Proof.Machine

/-- The index of the first unwritten entry of a table (R86 `Check`). -/
def firstUnwritten {α : Type} : List (Option α) → Option Nat
  | [] => none
  | none :: _ => some 0
  | some _ :: es => (firstUnwritten es).map (· + 1)

/-- The first index `j` whose entry equals an earlier one, given the earlier entries, latest first (R86 `Check`). -/
def firstDuplicate {α : Type} [DecidableEq α] (seen : List (Option α)) : List (Option α) → Option Nat
  | [] => none
  | e :: es => if seen.contains e then some seen.length else firstDuplicate (e :: seen) es

/-- `Check` (R86): every entry written, then no duplicate, each over increasing index. -/
def checkTable {α : Type} [DecidableEq α] (tailTable : Bool) (entries : List (Option α)) : Option Err :=
  match firstUnwritten entries with
  | some i => some (.malformedTable i false tailTable)
  | none =>
    match firstDuplicate [] entries with
    | some j => some (.malformedTable j true tailTable)
    | none => none

/-- The checks of `TBL_COMMIT` (R86): the selected tables that are not yet committed, the primary table first. -/
def State.commitError (s : State) (sel : BitVec 2) : Option Err :=
  let primary := if selPri sel && !s.status.priValid then checkTable false s.pri.toList else none
  let tailTable := if selTail sel && !s.status.tailValid then checkTable true s.tail.toList else none
  match primary with
  | some e => some e
  | none => tailTable

/-- Uncommit and empty the primary table (R83). -/
def State.clearPri (s : State) : State :=
  { s with pri := Vector.replicate 2048 none, status := { s.status with priValid := false } }

/-- Uncommit and empty the tail table (R83). -/
def State.clearTail (s : State) : State :=
  { s with tail := Vector.replicate 64 none, status := { s.status with tailValid := false } }

/-- `TBL_CLEAR sel` (R83). -/
def execTblClear (sel : BitVec 2) (s : State) : Host.Outcome State Fault Refusal :=
  if legalSel sel = false then .next s.raiseIllegal
  else
    let s1 := if selPri sel then s.clearPri else s
    let s2 := if selTail sel then s1.clearTail else s1
    .next s2.complete

/-- `TBL_WR_PRI idx` (R84). -/
def execTblWrPri (idx : BitVec 11) (s : State) : Host.Outcome State Fault Refusal :=
  if s.status.priValid then .next (s.raise (.tableLocked true false))
  else .next ({ s with pri := s.pri.set idx.toNat (some (s.tok0, s.tok1)) idx.isLt }).complete

/-- `TBL_WR_TAIL idx` (R85). -/
def execTblWrTail (idx : BitVec 6) (s : State) : Host.Outcome State Fault Refusal :=
  if s.status.tailValid then .next (s.raise (.tableLocked false true))
  else .next ({ s with tail := s.tail.set idx.toNat (some s.tok0) idx.isLt }).complete

/-- `TBL_COMMIT sel` (R86): all the selected tables, or none. -/
def execTblCommit (sel : BitVec 2) (s : State) : Host.Outcome State Fault Refusal :=
  if legalSel sel = false then .next s.raiseIllegal
  else
    match s.commitError sel with
    | some e => .next (s.raise e)
    | none =>
      .next ({ s with status := { s.status with
                priValid := s.status.priValid || selPri sel
                tailValid := s.status.tailValid || selTail sel } }).complete

/-- `TBL_ENC_PRI` (R87): the token of the index `VAL`. -/
def execTblEncPri (s : State) : Host.Outcome State Fault Refusal :=
  if s.status.priValid = false then .next (s.raise (.tableNotReady true false))
  else if 2048 ≤ s.val.toNat then .next (s.raise (.indexOutOfRange s.val))
  else
    match priToken s.pri s.val.toNat with
    | some (c0, c1) => .next ({ s with tok0 := c0, tok1 := c1 }).complete
    | none => .fault .unwrittenEntry

/-- `TBL_ENC_TAIL` (R88): the character of the index `VAL`; `TOK1` is unchanged. -/
def execTblEncTail (s : State) : Host.Outcome State Fault Refusal :=
  if s.status.tailValid = false then .next (s.raise (.tableNotReady false true))
  else if 64 ≤ s.val.toNat then .next (s.raise (.indexOutOfRange s.val))
  else
    match tailToken s.tail s.val.toNat with
    | some c => .next ({ s with tok0 := c }).complete
    | none => .fault .unwrittenEntry

/-- `TBL_DEC_PRI` (R89): the index of the token `(TOK0, TOK1)`. -/
def execTblDecPri (s : State) : Host.Outcome State Fault Refusal :=
  if s.status.priValid = false then .next (s.raise (.tableNotReady true false))
  else
    match priInv s.pri (s.tok0, s.tok1) with
    | some i => .next ({ s with res := BitVec.ofNat 32 i }).complete
    | none => .next (s.raise (.unknownSymbol 0))

/-- `TBL_DEC_TAIL` (R90): the index of the character `TOK0`; `TOK1` is ignored. -/
def execTblDecTail (s : State) : Host.Outcome State Fault Refusal :=
  if s.status.tailValid = false then .next (s.raise (.tableNotReady false true))
  else
    match tailInv s.tail s.tok0 with
    | some j => .next ({ s with res := BitVec.ofNat 32 j }).complete
    | none => .next (s.raise (.unknownSymbol 0))

end Sys2Proof.Machine
end

