-- ==== Sys2Proof/Machine/BitReader.lean ====
section
/-! DEFINITION. The Bit Reader commands (spec/42_bitreader.md R91 to R93). -/

namespace Sys2Proof.Machine

/-- `BR_INIT` (R92): a new reader instance. -/
def execBrInit (s : State) : Host.Outcome State Fault Refusal :=
  .next s.newReader.complete

/-- The first byte of the sequence that holds a bit of the next read (R93). -/
def State.readFirst (s : State) : Nat :=
  s.brPos.toNat / 8

/-- How many bytes hold the next `n` bits: 1 to 3 for a legal `n` (R93, R53). -/
def State.readSpan (s : State) (n : Nat) : Nat :=
  (s.brPos.toNat + n - 1) / 8 + 1 - s.readFirst

/-- The next `n` bits as an unsigned integer, most significant first, from the bytes the engine reads (R93). -/
def State.nextBits (s : State) (n : Nat) : Nat :=
  readBits (s.portBytes (s.brBase.toNat + s.readFirst) (s.readSpan n)) (s.brPos.toNat % 8) n

/-- `BR_READ n` (R93). -/
def execBrRead (n : BitVec 5) (s : State) : Host.Outcome State Fault Refusal :=
  if legalCount n = false then .next s.raiseIllegal
  else if addrOK s.brBase s.brLen.toNat = false then .next (s.raise (.addressError s.brBase))
  else if s.brRemaining < n.toNat then .next (s.raise (.endOfStream s.brRemaining))
  else
    match s.firstRefused .read (s.brBase.toNat + s.readFirst) (s.readSpan n.toNat) with
    | some a => .next (s.raise (.busError a))
    | none =>
      .next ({ s with
        res := BitVec.ofNat 32 (s.nextBits n.toNat)
        brPos := BitVec.ofNat 32 (s.brPos.toNat + n.toNat) }).complete

end Sys2Proof.Machine
end

