-- ==== Sys2Proof/Machine/BitWriter.lean ====
section
/-! DEFINITION. The Bit Writer commands (spec/43_bitwriter.md R95 to R101). -/

namespace Sys2Proof.Machine

/-- The checks of an emission of `e >= 1` bytes (R97). -/
def State.emitError (s : State) (e : Nat) : Option Err :=
  if s.bwCap.toNat < s.bwCnt.toNat + e then some (.capacityExceeded (s.bwCnt.toNat + e))
  else if addrOK s.bwBase (s.bwCnt.toNat + e) = false then some (.addressError s.bwBase)
  else none

/-- The address of the next byte the writer emits (R97). -/
def State.emitAddr (s : State) : Nat :=
  s.bwBase.toNat + s.bwCnt.toNat

/-- The emission of bytes (R97): either the state in which the command has completed with an error, or the state with the
bytes stored and counted. No byte, no check. -/
def State.emit (s : State) (bs : List Byte) : Except State State :=
  if bs.isEmpty then .ok s
  else
    match s.emitError bs.length with
    | some e => .error (s.raise e)
    | none =>
      match s.firstRefused .write s.emitAddr bs.length with
      | some a => .error (s.raiseBus a s.emitAddr bs.length)
      | none => .ok { s.portStore s.emitAddr bs with bwCnt := BitVec.ofNat 29 (s.bwCnt.toNat + bs.length) }

/-- `BW_INIT` (R99): a new writer instance. -/
def execBwInit (s : State) : Host.Outcome State Fault Refusal :=
  .next s.newWriter.complete

/-- `w = ACCN + N` (R100): how many bits wait once `n` more are appended. -/
def State.pendingWidth (s : State) (n : Nat) : Nat :=
  s.accn.toNat + n

/-- `S` (R100): the waiting bits with the low `n` bits of `VAL` appended, the first written most significant. -/
def State.pendingBits (s : State) (n : Nat) : Nat :=
  s.accv.toNat * 2 ^ n + s.valLow n

/-- The bytes that `BW_WRITE n` completes (R100): 0 to 2 of them. -/
def State.completedBytes (s : State) (n : Nat) : List Byte :=
  (List.range (s.pendingWidth n / 8)).map fun k =>
    BitVec.ofNat 8 (s.pendingBits n / 2 ^ (s.pendingWidth n - 8 * (k + 1)))

/-- `BW_WRITE n` (R100): append the low `n` bits of `VAL`. -/
def execBwWrite (n : BitVec 5) (s : State) : Host.Outcome State Fault Refusal :=
  if legalCount n = false then .next s.raiseIllegal
  else if s.status.bwClosed then .next (s.raise (.sequenceError s.lastCmd))
  else
    match s.emit (s.completedBytes n.toNat) with
    | .error t => .next t
    | .ok t =>
      .next ({ t with
        accn := BitVec.ofNat 3 (s.pendingWidth n.toNat % 8)
        accv := BitVec.ofNat 7 (s.pendingBits n.toNat % 2 ^ (s.pendingWidth n.toNat % 8)) }).complete

/-- The bytes that `BW_FINAL p` flushes (R101): with `pad` and waiting bits, one byte, zero-padded on the low-order side. -/
def State.flushedBytes (s : State) (p : FinalMode) : List Byte :=
  match p with
  | .trunc => []
  | .pad => if s.accn = 0 then [] else [BitVec.ofNat 8 (s.accv.toNat * 2 ^ (8 - s.accn.toNat))]

/-- `BW_FINAL p` (R101): end the writer instance. -/
def execBwFinal (p : FinalMode) (s : State) : Host.Outcome State Fault Refusal :=
  if s.status.bwClosed then .next (s.raise (.sequenceError s.lastCmd))
  else
    match s.emit (s.flushedBytes p) with
    | .error t => .next t
    | .ok t => .next ({ t with accv := 0, accn := 0, status := { t.status with bwClosed := true } }).complete

end Sys2Proof.Machine
end

