-- ==== Sys2Proof/Machine/Control.lean ====
section
/-! DEFINITION. The control command NOP (spec/40_control.md R79). Every meaning is the command's execution and completion,
from a state in which the command has been accepted (R71, R73, R74). -/

namespace Sys2Proof.Machine

/-- `NOP` (R79): nothing between acceptance and completion. -/
def execNop (s : State) : Host.Outcome State Fault Refusal :=
  .next s.complete

end Sys2Proof.Machine
end

