-- ==== Sys2Proof/Machine/Decoder.lean ====
section
/-! DEFINITION. The Decoder (spec/45_decode.md R111 to R118): the pure decoding function, and the command DECODE. -/

namespace Sys2Proof.Machine

open Sys2Proof.Config

/-- The bits that a string's tokens write, from the token at position `pos` on (R111, R112 steps 1 and 2), or the position
of the first failing token. -/
def decodeBits (policy : TailPolicy) (pri : Vector (Option PriToken) 2048) (tail : Vector (Option Chr) 64) (pos : Nat) :
    List Chr → Except Nat (List Bool)
  | [] => .ok []
  | [c] =>
    match policy with
    | .single => .error pos
    | .dual =>
      match tailInv tail c with
      | none => .error pos
      | some j => .ok (bitsOf j 6)
  | c0 :: c1 :: rest =>
    match priInv pri (c0, c1) with
    | none => .error pos
    | some i =>
      match decodeBits policy pri tail (pos + 2) rest with
      | .error p => .error p
      | .ok w => .ok (bitsOf i 11 ++ w)

/-- `DecodeChars(S)` (R112): the bytes, or the position of the first failing token. The last partial byte is discarded. -/
def decodeChars (policy : TailPolicy) (pri : Vector (Option PriToken) 2048) (tail : Vector (Option Chr) 64)
    (str : List Chr) : Except Nat (List Byte) :=
  match decodeBits policy pri tail 0 str with
  | .error pos => .error pos
  | .ok w => .ok (bitsToBytes w)

/-- `OUT(C)`, the output length of a string of `c` characters (R113). DEDUCED for an odd `c` under `SINGLE` (log entry 11). -/
def decodedLength (policy : TailPolicy) (c : Nat) : Nat :=
  match policy with
  | .dual => (11 * (c / 2) + 6 * (c % 2)) / 8
  | .single => 11 * (c / 2) / 8

/-- `OUT` for the state's `CS_LEN` (R117). -/
def State.decodeLen (s : State) : Nat :=
  decodedLength s.params.policy s.csLen.toNat

/-- The checks 2 to 6 of R117, in order. -/
def State.decodeError (s : State) : Option Err :=
  if s.missingTables ≠ (false, false) then some (.tableNotReady s.missingTables.1 s.missingTables.2)
  else if s.csAligned = false then some (.alignmentError s.csBase)
  else if s.bwCap.toNat < s.decodeLen then some (.capacityExceeded s.decodeLen)
  else if addrOK s.csBase (4 * s.csLen.toNat) = false then some (.addressError s.csBase)
  else if addrOK s.bwBase s.decodeLen = false then some (.addressError s.bwBase)
  else if overlap s.csBase.toNat (4 * s.csLen.toNat) s.bwBase.toNat s.decodeLen then some .bufferOverlap
  else none

/-- The string that `DECODE` reads in pass 1 (R118). -/
def State.decodeInput (s : State) : List Chr :=
  s.portString s.csLen.toNat

/-- `DECODE` (R118). -/
def execDecode (s : State) : Host.Outcome State Fault Refusal :=
  match s.decodeError with
  | some e => .next (s.raise e)
  | none =>
    match s.firstRefused .read s.csBase.toNat (4 * s.csLen.toNat) with
    | some a => .next (s.raise (.busError a))
    | none =>
      match decodeChars s.params.policy s.pri s.tail s.decodeInput with
      | .error pos => .next (s.raise (.unknownSymbol pos))
      | .ok out =>
        match s.firstRefused .write s.bwBase.toNat out.length with
        | some a => .next (s.raiseBus a s.bwBase.toNat s.decodeLen)
        | none =>
          .next ({ s.portStore s.bwBase.toNat out with
            bwCnt := BitVec.ofNat 29 out.length
            accv := 0
            accn := 0
            status := { s.status with bwClosed := true } }).complete

end Sys2Proof.Machine
end

