-- ==== Sys2Proof/Machine/Encoder.lean ====
section
/-! DEFINITION. The Encoder (spec/44_encode.md R103 to R110): the pure encoding function, and the command ENCODE. -/

namespace Sys2Proof.Machine

open Sys2Proof.Config

/-- A symbol (R104): `p11 u` is a primary symbol, `t6 u` a tail symbol. -/
inductive Sym where
  | p11 (u : Nat)
  | t6 (u : Nat)
  deriving DecidableEq, Repr

/-- `g`, the number of full groups of an input of `len` bytes (R103). -/
def fullGroups (len : Nat) : Nat := 8 * len / 11

/-- `t`, the number of tail bits of an input of `len` bytes (R103). -/
def tailBits (len : Nat) : Nat := 8 * len % 11

/-- The tail symbol of `t` leftover bits of value `v` (R104, steps 3 and 4): left-justified to 6 or to 11 bits. -/
def tailSyms (policy : TailPolicy) (t v : Nat) : List Sym :=
  if t = 0 then []
  else if policy = .dual ∧ t ≤ 6 then [.t6 (v * 2 ^ (6 - t))]
  else [.p11 (v * 2 ^ (11 - t))]

/-- `EncodeSyms(B)` (R104). -/
def encodeSyms (policy : TailPolicy) (b : List Byte) : List Sym :=
  let g := fullGroups b.length
  let t := tailBits b.length
  (List.range g).map (fun k => Sym.p11 (readBits b (11 * k) 11)) ++ tailSyms policy t (readBits b (11 * g) t)

/-- The token of a symbol (R105); `none` where its entry is unwritten. -/
def symToken (pri : Vector (Option PriToken) 2048) (tail : Vector (Option Chr) 64) : Sym → Option (List Chr)
  | .p11 u => (priToken pri u).map fun t => [t.1, t.2]
  | .t6 u => (tailToken tail u).map fun c => [c]

/-- The tokens of a sequence of symbols, in order (R105). -/
def symsChars (pri : Vector (Option PriToken) 2048) (tail : Vector (Option Chr) 64) : List Sym → Option (List Chr)
  | [] => some []
  | y :: ys =>
    match symToken pri tail y, symsChars pri tail ys with
    | some cs, some rest => some (cs ++ rest)
    | _, _ => none

/-- `EncodeChars(B)` (R105). -/
def encodeChars (policy : TailPolicy) (pri : Vector (Option PriToken) 2048) (tail : Vector (Option Chr) 64)
    (b : List Byte) : Option (List Chr) :=
  symsChars pri tail (encodeSyms policy b)

/-- `C(L)`, the length of the string of an input of `len` bytes (R106). -/
def encodedLength (policy : TailPolicy) (len : Nat) : Nat :=
  2 * fullGroups len +
    (if tailBits len = 0 then 0
     else
       match policy with
       | .dual => if tailBits len ≤ 6 then 1 else 2
       | .single => 2)

/-- `C` for the state's `BR_LEN` (R109). -/
def State.encodeLen (s : State) : Nat :=
  encodedLength s.params.policy s.brLen.toNat

/-- The checks 2 to 6 of R109, in order. -/
def State.encodeError (s : State) : Option Err :=
  if s.missingTables ≠ (false, false) then some (.tableNotReady s.missingTables.1 s.missingTables.2)
  else if s.csAligned = false then some (.alignmentError s.csBase)
  else if s.csCap.toNat < s.encodeLen then some (.capacityExceeded s.encodeLen)
  else if addrOK s.brBase s.brLen.toNat = false then some (.addressError s.brBase)
  else if addrOK s.csBase (4 * s.encodeLen) = false then some (.addressError s.csBase)
  else if overlap s.brBase.toNat s.brLen.toNat s.csBase.toNat (4 * s.encodeLen) then some .bufferOverlap
  else none

/-- The last input byte that character `j` of the string depends on (R104, R110): that of its symbol's last bit. -/
def lastByteOf (len j : Nat) : Nat :=
  if j / 2 < fullGroups len then (11 * (j / 2) + 10) / 8 else len - 1

/-- The refused access that `ENCODE` meets first, if one is refused (R46, R55, R110). A refused read comes before a refused
write where the word written depends on the byte or on a later one; elsewhere the rule lets the engine interleave the two
either way, and which comes first is a free value (log entry 9). -/
def State.encodeRefused (s : State) : Option Nat :=
  match s.firstRefused .read s.brBase.toNat s.brLen.toNat, s.firstRefused .write s.csBase.toNat (4 * s.encodeLen) with
  | none, none => none
  | some r, none => some r
  | none, some w => some w
  | some r, some w =>
    if r - s.brBase.toNat ≤ lastByteOf s.brLen.toNat ((w - s.csBase.toNat) / 4) then some r
    else if writeFirst s.draws then some w
    else some r

/-- The input bytes of `ENCODE`, as the engine reads them (R110). -/
def State.encodeInput (s : State) : List Byte :=
  s.portBytes s.brBase.toNat s.brLen.toNat

/-- `ENCODE` (R110). -/
def execEncode (s : State) : Host.Outcome State Fault Refusal :=
  match s.encodeError with
  | some e => .next (s.raise e)
  | none =>
    match s.encodeRefused with
    | some a => .next (s.raiseBus a s.csBase.toNat (4 * s.encodeLen))
    | none =>
      match encodeChars s.params.policy s.pri s.tail s.encodeInput with
      | none => .fault .unwrittenEntry
      | some str =>
        .next ({ s.portStore s.csBase.toNat (stringBytes str) with
          brPos := BitVec.ofNat 32 (8 * s.brLen.toNat)
          csCnt := BitVec.ofNat 30 str.length }).complete

end Sys2Proof.Machine
end

