-- ==== Sys2Proof/Machine/Dispatch.lean ====
section
/-! DEFINITION. One arm per command: the execution and completion of an accepted command (spec/40_control.md R73, R74). -/

namespace Sys2Proof.Machine

def exec (i : Instr) (s : State) : Host.Outcome State Fault Refusal :=
  match i with
  | .nop => Sys2Proof.Machine.execNop s
  | .brInit => Sys2Proof.Machine.execBrInit s
  | .brRead n => Sys2Proof.Machine.execBrRead n s
  | .bwInit => Sys2Proof.Machine.execBwInit s
  | .bwWrite n => Sys2Proof.Machine.execBwWrite n s
  | .bwFinal p => Sys2Proof.Machine.execBwFinal p s
  | .tblClear sel => Sys2Proof.Machine.execTblClear sel s
  | .tblCommit sel => Sys2Proof.Machine.execTblCommit sel s
  | .tblWrPri idx => Sys2Proof.Machine.execTblWrPri idx s
  | .tblWrTail idx => Sys2Proof.Machine.execTblWrTail idx s
  | .tblEncPri => Sys2Proof.Machine.execTblEncPri s
  | .tblEncTail => Sys2Proof.Machine.execTblEncTail s
  | .tblDecPri => Sys2Proof.Machine.execTblDecPri s
  | .tblDecTail => Sys2Proof.Machine.execTblDecTail s
  | .encode => Sys2Proof.Machine.execEncode s
  | .decode => Sys2Proof.Machine.execDecode s

end Sys2Proof.Machine
end

