-- ==== Sys2Proof/Decode.lean ====
section
/-! DEFINITION. Decoding and encoding command words (spec/30_encoding.md R63 to R68). `decode` is total over all 2^32 words
and rejects by name; `encode` writes a command's word from the same tables. -/

namespace Sys2Proof

/-- Why a word is no command: the step of R67 that fails first. -/
inductive DecodeError where
  /-- Step 1: `OPC` is none of the 16 values of R66. -/
  | undefinedOpcode
  /-- Step 2: a reserved-zero bit of the format is 1. -/
  | reservedBit
  /-- Step 3: `N` is not in 1..16, or `SEL` is 0. -/
  | illegalField
  deriving DecidableEq, Repr

/-- The opcode number `OPC`, bits 31:24 of the word (R66). -/
def Opcode.number : Opcode → BitVec 8
  | .nop => 0x00
  | .brInit => 0x01
  | .brRead => 0x02
  | .bwInit => 0x04
  | .bwWrite => 0x05
  | .bwFinal => 0x06
  | .tblClear => 0x08
  | .tblCommit => 0x09
  | .tblWrPri => 0x0A
  | .tblWrTail => 0x0B
  | .tblEncPri => 0x0C
  | .tblEncTail => 0x0D
  | .tblDecPri => 0x0E
  | .tblDecTail => 0x0F
  | .encode => 0x10
  | .decode => 0x11

/-- The opcode with a number, if it is one of the 16 values of R66; 0x03, 0x07 and 0x12 to 0xFF are undefined (R67). -/
def Opcode.ofNumber (opc : BitVec 8) : Option Opcode :=
  match opc.toNat with
  | 0x00 => some .nop
  | 0x01 => some .brInit
  | 0x02 => some .brRead
  | 0x04 => some .bwInit
  | 0x05 => some .bwWrite
  | 0x06 => some .bwFinal
  | 0x08 => some .tblClear
  | 0x09 => some .tblCommit
  | 0x0A => some .tblWrPri
  | 0x0B => some .tblWrTail
  | 0x0C => some .tblEncPri
  | 0x0D => some .tblEncTail
  | 0x0E => some .tblDecPri
  | 0x0F => some .tblDecTail
  | 0x10 => some .encode
  | 0x11 => some .decode
  | _ => none

/-- The format of an opcode's words (R66). -/
def Opcode.format : Opcode → Format
  | .nop => .Z
  | .brInit => .Z
  | .brRead => .N
  | .bwInit => .Z
  | .bwWrite => .N
  | .bwFinal => .P
  | .tblClear => .S
  | .tblCommit => .S
  | .tblWrPri => .I11
  | .tblWrTail => .I6
  | .tblEncPri => .Z
  | .tblEncTail => .Z
  | .tblDecPri => .Z
  | .tblDecTail => .Z
  | .encode => .Z
  | .decode => .Z

/-- The mask of a format (R66): the bits a word of the format has fixed, the opcode and the reserved-zero bits. -/
def Format.mask : Format → Word
  | .Z => 0xFFFFFFFF
  | .N => 0xFFFFFFE0
  | .P => 0xFFFFFFFE
  | .S => 0xFFFFFFFC
  | .I11 => 0xFFFFF800
  | .I6 => 0xFFFFFFC0

/-- The reserved-zero bits of a format (R64): its fixed bits below the opcode. -/
def Format.reserved (f : Format) : Word :=
  f.mask &&& 0x00FFFFFF

/-- `match` of an opcode, `OPC << 24` (R66). -/
def Opcode.matchWord (o : Opcode) : Word :=
  o.number.setWidth 32 <<< 24

/-- `OPC`, bits 31:24 of a word (R63, R64). -/
def opcField (w : Word) : BitVec 8 := w.extractLsb' 24 8

/-- `N`, bits 4:0 (R65). -/
def nField (w : Word) : BitVec 5 := w.extractLsb' 0 5

/-- `P`, bit 0 (R65): 1 is `pad`, 0 is `trunc` (R101). -/
def pField (w : Word) : FinalMode := if w.getLsbD 0 then .pad else .trunc

/-- `SEL`, bits 1:0 (R65). -/
def selField (w : Word) : BitVec 2 := w.extractLsb' 0 2

/-- `IDX` of format I11, bits 10:0 (R65). -/
def idx11Field (w : Word) : BitVec 11 := w.extractLsb' 0 11

/-- `IDX` of format I6, bits 5:0 (R65). -/
def idx6Field (w : Word) : BitVec 6 := w.extractLsb' 0 6

/-- The command an opcode makes of a word's fields (R65, R66), before the checks of R67. -/
def Opcode.build (w : Word) : Opcode → Instr
  | .nop => .nop
  | .brInit => .brInit
  | .brRead => .brRead (nField w)
  | .bwInit => .bwInit
  | .bwWrite => .bwWrite (nField w)
  | .bwFinal => .bwFinal (pField w)
  | .tblClear => .tblClear (selField w)
  | .tblCommit => .tblCommit (selField w)
  | .tblWrPri => .tblWrPri (idx11Field w)
  | .tblWrTail => .tblWrTail (idx6Field w)
  | .tblEncPri => .tblEncPri
  | .tblEncTail => .tblEncTail
  | .tblDecPri => .tblDecPri
  | .tblDecTail => .tblDecTail
  | .encode => .encode
  | .decode => .decode

/-- Decoding a command word: the three steps of R67, in order. Total over all words (R68). -/
def decode (w : Word) : Except DecodeError Instr :=
  match Opcode.ofNumber (opcField w) with
  | none => .error .undefinedOpcode
  | some o =>
    if w &&& o.format.reserved != 0 then .error .reservedBit
    else if (o.build w).wellFormed then .ok (o.build w)
    else .error .illegalField

/-- The instruction read from a table row's word: a command is one 32-bit word, written to `CMD` whole (R63), so no byte
order applies (R16); the bits above `nbits` are 0. -/
def decodeTableWord (nbits w : Nat) : Option Instr :=
  match decode (BitVec.ofNat 32 (w % 2 ^ nbits)) with
  | .ok i => some i
  | .error _ => none

/-- The operand field of a command, at its place in the word (R64, R65). -/
def Instr.operandBits : Instr → Word
  | .nop => 0
  | .brInit => 0
  | .brRead n => n.setWidth 32
  | .bwInit => 0
  | .bwWrite n => n.setWidth 32
  | .bwFinal .trunc => 0
  | .bwFinal .pad => 1
  | .tblClear sel => sel.setWidth 32
  | .tblCommit sel => sel.setWidth 32
  | .tblWrPri idx => idx.setWidth 32
  | .tblWrTail idx => idx.setWidth 32
  | .tblEncPri => 0
  | .tblEncTail => 0
  | .tblDecPri => 0
  | .tblDecTail => 0
  | .encode => 0
  | .decode => 0

/-- The word of a command: its opcode in bits 31:24 and its operand field, every reserved bit 0 (R64, R66). -/
def encode (i : Instr) : Word :=
  i.opcode.matchWord ||| i.operandBits

end Sys2Proof
end

