-- ==== Sys2Proof/Machine/Reset.lean ====
section
/-! DEFINITION. Hardware reset and soft reset (spec/70_reset_and_hazards.md R135, R136), and the buffers and the output range
of the running command, which a reset and a racing host touch. -/

namespace Sys2Proof.Machine

open Sys2Proof.Config

/-- A range from its base and size, empty where the command's own checks would stop it first. DEDUCED (log
entry 10). -/
def rangeUnless (stops : Bool) (base size : Nat) : Range :=
  if stops then { base := base, size := 0 } else { base := base, size := size }

/-- The output range of a command, the bytes its rule would write (R53, R122, R135). -/
def State.outputRange (s : State) : Instr → Range
  | .nop => rangeUnless true 0 0
  | .brInit => rangeUnless true 0 0
  | .brRead _ => rangeUnless true 0 0
  | .bwInit => rangeUnless true 0 0
  | .bwWrite n =>
    rangeUnless (s.status.bwClosed || (s.emitError (s.completedBytes n.toNat).length).isSome) s.emitAddr
      (s.completedBytes n.toNat).length
  | .bwFinal p =>
    rangeUnless (s.status.bwClosed || (s.emitError (s.flushedBytes p).length).isSome) s.emitAddr (s.flushedBytes p).length
  | .tblClear _ => rangeUnless true 0 0
  | .tblCommit _ => rangeUnless true 0 0
  | .tblWrPri _ => rangeUnless true 0 0
  | .tblWrTail _ => rangeUnless true 0 0
  | .tblEncPri => rangeUnless true 0 0
  | .tblEncTail => rangeUnless true 0 0
  | .tblDecPri => rangeUnless true 0 0
  | .tblDecTail => rangeUnless true 0 0
  | .encode => rangeUnless s.encodeError.isSome s.csBase.toNat (4 * s.encodeLen)
  | .decode => rangeUnless s.decodeError.isSome s.bwBase.toNat s.decodeLen

/-- The input and output buffers of a command (R48, R53, R58 rule 3). DEDUCED for the extent of a reader's and a writer's
(log entry 7). -/
def State.buffers (s : State) : Instr → List Range
  | .nop => []
  | .brInit => []
  | .brRead _ => [{ base := s.brBase.toNat, size := s.brLen.toNat }]
  | .bwInit => []
  | .bwWrite _ => [{ base := s.bwBase.toNat, size := s.bwCap.toNat }]
  | .bwFinal _ => [{ base := s.bwBase.toNat, size := s.bwCap.toNat }]
  | .tblClear _ => []
  | .tblCommit _ => []
  | .tblWrPri _ => []
  | .tblWrTail _ => []
  | .tblEncPri => []
  | .tblEncTail => []
  | .tblDecPri => []
  | .tblDecTail => []
  | .encode =>
    [{ base := s.brBase.toNat, size := s.brLen.toNat }, { base := s.csBase.toNat, size := 4 * s.encodeLen }]
  | .decode =>
    [{ base := s.csBase.toNat, size := 4 * s.csLen.toNat }, { base := s.bwBase.toNat, size := s.decodeLen }]

/-- The running command's buffers; none while the engine is idle (R58 rule 3). DESIGN CHOICE (unsafe; log entry 21): none as
soon as the command has completed, also before the host has observed that, where R58 rule 2 promises nothing yet. -/
def State.runningBuffers (s : State) : List Range :=
  if s.status.busy then
    match decode s.lastCmd with
    | .ok i => s.buffers i
    | .error _ => []
  else []

/-- A command in flight is aborted: every byte of its output range holds any value (R135 item 3). -/
def State.abort (s : State) : State :=
  if s.status.busy then
    match decode s.lastCmd with
    | .ok i => s.scramble (s.outputRange i).base (s.outputRange i).size
    | .error _ => s
  else s

/-- Either reset (R135, R136): the reset state, but for what is no register of the block: the parameters, memory as the
abort leaves it, and the outside world. -/
def State.toReset (s : State) : State :=
  { State.reset with
    params := s.params
    mem := s.abort.mem
    inputs := s.inputs
    resp := s.resp
    draws := s.draws }

end Sys2Proof.Machine
end

