-- ==== Sys2Proof/Machine/HostPort.lean ====
section
/-! DEFINITION. The host's side: the register window (spec/10_state.md R15 to R40), command issue (spec/40_control.md R71,
R72), and the host's accesses to memory while a command may be running (spec/20_memory.md R58). -/

namespace Sys2Proof.Machine

open Sys2Proof.Config

/-- The register at an offset of the window (R15); `none` for a reserved offset. -/
def regAt (offset : Nat) : Option Reg :=
  match offset with
  | 0x00 => some .id
  | 0x04 => some .cfg
  | 0x08 => some .ctrl
  | 0x0C => some .status
  | 0x10 => some .errCode
  | 0x14 => some .errInfo
  | 0x18 => some .cmd
  | 0x1C => some .val
  | 0x20 => some .res
  | 0x24 => some .tok0
  | 0x28 => some .tok1
  | 0x2C => some .brBase
  | 0x30 => some .brLen
  | 0x34 => some .brPos
  | 0x38 => some .brRem
  | 0x3C => some .bwBase
  | 0x40 => some .bwCap
  | 0x44 => some .bwCnt
  | 0x48 => some .bwAcc
  | 0x4C => some .csBase
  | 0x50 => some .csLen
  | 0x54 => some .csCap
  | 0x58 => some .csCnt
  | _ => none

/-- The offset of a register in the window (R15). -/
def Reg.offset : Reg → Nat
  | .id => 0x00
  | .cfg => 0x04
  | .ctrl => 0x08
  | .status => 0x0C
  | .errCode => 0x10
  | .errInfo => 0x14
  | .cmd => 0x18
  | .val => 0x1C
  | .res => 0x20
  | .tok0 => 0x24
  | .tok1 => 0x28
  | .brBase => 0x2C
  | .brLen => 0x30
  | .brPos => 0x34
  | .brRem => 0x38
  | .bwBase => 0x3C
  | .bwCap => 0x40
  | .bwCnt => 0x44
  | .bwAcc => 0x48
  | .csBase => 0x4C
  | .csLen => 0x50
  | .csCap => 0x54
  | .csCnt => 0x58

/-- The value of a register when it is defined (R19 to R40). -/
def State.regValue (s : State) : Reg → Word
  | .id => idWord
  | .cfg => cfgWord s.params.policy
  | .ctrl => s.ctrlWord
  | .status => s.status.word
  | .errCode => s.errCode.setWidth 32
  | .errInfo => s.errInfo
  | .cmd => s.lastCmd
  | .val => s.val
  | .res => s.res
  | .tok0 => s.tok0
  | .tok1 => s.tok1
  | .brBase => s.brBase
  | .brLen => s.brLen.setWidth 32
  | .brPos => s.brPos
  | .brRem => s.brRemWord
  | .bwBase => s.bwBase
  | .bwCap => s.bwCap.setWidth 32
  | .bwCnt => s.bwCnt.setWidth 32
  | .bwAcc => s.accWord
  | .csBase => s.csBase
  | .csLen => s.csLen.setWidth 32
  | .csCap => s.csCap.setWidth 32
  | .csCnt => s.csCnt.setWidth 32

/-- The registers whose value stays defined while `BUSY = 1` (R18). -/
def Reg.definedWhileBusy : Reg → Bool
  | .id => true
  | .cfg => true
  | .ctrl => true
  | .status => true
  | .cmd => true
  | .errCode => false
  | .errInfo => false
  | .val => false
  | .res => false
  | .tok0 => false
  | .tok1 => false
  | .brBase => false
  | .brLen => false
  | .brPos => false
  | .brRem => false
  | .bwBase => false
  | .bwCap => false
  | .bwCnt => false
  | .bwAcc => false
  | .csBase => false
  | .csLen => false
  | .csCap => false
  | .csCnt => false

/-- What a host read of an offset returns (R15, R18): a reserved offset reads 0; while `BUSY = 1`, most registers read as
any value. -/
def State.windowRead (s : State) (offset : Nat) : Word :=
  match regAt offset with
  | none => 0
  | some r => if s.status.busy && !r.definedWhileBusy then busyWord s.draws else s.regValue r

/-- The registers a write of which is dropped while `BUSY = 1` (R17). -/
def Reg.droppedWhileBusy : Reg → Bool
  | .cmd => true
  | .val => true
  | .tok0 => true
  | .tok1 => true
  | .brBase => true
  | .brLen => true
  | .bwBase => true
  | .bwCap => true
  | .csBase => true
  | .csLen => true
  | .csCap => true
  | .id => false
  | .cfg => false
  | .ctrl => false
  | .status => false
  | .errCode => false
  | .errInfo => false
  | .res => false
  | .brPos => false
  | .brRem => false
  | .bwCnt => false
  | .bwAcc => false
  | .csCnt => false

/-- A host write of `CMD` (R71, R72): accepted when the engine is idle and no error is pending, dropped otherwise. -/
def State.issue (s : State) (w : Word) : State :=
  if s.status.busy || s.status.err then s.dropWrite else s.accept w

/-- A host write of `CTRL` (R21): `SRST` resets and ignores `IE`; else `IE` is written. -/
def State.writeCtrl (s : State) (v : Word) : State :=
  if v.getLsbD 1 then s.toReset else { s with ie := v.getLsbD 0 }

/-- The effect of a host write of a register that is not dropped (R15 to R40). -/
def State.writeReg (s : State) (v : Word) : Reg → State
  | .id => s
  | .cfg => s
  | .ctrl => s.writeCtrl v
  | .status => s.acknowledge v
  | .errCode => s
  | .errInfo => s
  | .cmd => s.issue v
  | .val => { s with val := v }
  | .res => s
  | .tok0 => { s with tok0 := v }
  | .tok1 => { s with tok1 := v }
  | .brBase => ({ s with brBase := v }).newReader
  | .brLen => ({ s with brLen := v.setWidth 29 }).newReader
  | .brPos => s
  | .brRem => s
  | .bwBase => ({ s with bwBase := v }).newWriter
  | .bwCap => ({ s with bwCap := v.setWidth 29 }).newWriter
  | .bwCnt => s
  | .bwAcc => s
  | .csBase => { s with csBase := v }
  | .csLen => { s with csLen := v.setWidth 30 }
  | .csCap => { s with csCap := v.setWidth 30 }
  | .csCnt => s

/-- A host write of an offset (R15, R17): a reserved offset ignores it; while `BUSY = 1`, an operand register or `CMD`
drops it and sets `OVR`. -/
def State.windowWrite (s : State) (offset : Nat) (v : Word) : State :=
  match regAt offset with
  | none => s
  | some r => if s.status.busy && r.droppedWhileBusy then s.dropWrite else s.writeReg v r

/-- The address lies in the block's window (R15). DESIGN CHOICE (unsafe; log entry 23): an access is one of the window exactly
if its first byte is, also where its width reaches into the window from below or past its end, of which R16 does not speak. -/
def State.inWindow (s : State) (addr : Nat) : Bool :=
  decide (s.params.regBase ≤ addr) && decide (addr < s.params.regBase + windowSize)

/-- The access is a naturally aligned 32-bit one (R16). -/
def accessOK (addr bits : Nat) : Bool :=
  decide (bits = 32) && decide (addr % 4 = 0)

/-- A host write access (R15, R16). An access outside the window is none of the block's (log entry 17). -/
def State.hostWrite (s : State) (addr bits : Nat) (v : Word) : State :=
  if s.inWindow addr = false then s
  else if accessOK addr bits = false then { s with resp := .busErrorResponse }
  else { s.windowWrite (addr - s.params.regBase) v with resp := .ack }

/-- A host read access (R15, R16, R18). No read changes the block's state. -/
def State.hostRead (s : State) (addr bits : Nat) : State :=
  if s.inWindow addr = false then s
  else if accessOK addr bits = false then { s with resp := .busErrorResponse }
  else { s with resp := .word (s.windowRead (addr - s.params.regBase)) }

/-- A host write of a byte of memory (R45, R58). While a command runs, the byte is noted (R58 rule 3; log entries 6, 16). -/
def State.hostMemWrite (s : State) (addr : Word) (v : Byte) : State :=
  { s with
    mem := s.mem.write addr.toNat v
    touched :=
      if s.status.busy && !s.touched.contains addr.toNat then addr.toNat :: s.touched else s.touched
    resp := .ack }

/-- What a host read of a byte of memory returns (R58): any value in the running command's buffers, else what memory holds,
right after a completion too (log entries 16, 20, 21). -/
def State.hostMemByte (s : State) (a : Nat) : Byte :=
  if inRanges s.runningBuffers a then busyByte s.draws else s.mem.read a

/-- A host read of a byte of memory (R45, R58). -/
def State.hostMemRead (s : State) (addr : Word) : State :=
  { s with resp := .byte (s.hostMemByte addr.toNat) }

/-- The effect of one input of the outside world on the block; a turn is the engine's, and here changes nothing. -/
def State.input (s : State) : Input → State
  | .regWrite addr bits v => s.hostWrite addr bits v
  | .regRead addr bits => s.hostRead addr bits
  | .memWrite addr v => s.hostMemWrite addr v
  | .memRead addr => s.hostMemRead addr
  | .hardReset => s.toReset
  | .turn => s

end Sys2Proof.Machine
end

