-- ==== Sys2Proof/Machine/Engine.lean ====
section
/-! DEFINITION. One step of the machine: which agent moves (spec/00_scope.md R14), and the engine's run of the accepted
command (spec/40_control.md R71 to R76). -/

namespace Sys2Proof.Machine

/-- The next step's free values are others than this step's. -/
def State.nextDraw (s : State) : State :=
  { s with draws := s.draws + 1 }

/-- The engine runs the command word it has accepted (R71, R73): the command it decodes to, or `IllegalCommand` (R67). -/
def State.runCommand (s : State) : Host.Outcome State Fault Refusal :=
  match decode s.lastCmd with
  | .ok i => exec i s
  | .error _ => .next s.raiseIllegal

/-- One step. The inputs say who moves: the host or the platform, or, at a turn and when no input is left, the engine, which
runs and completes the accepted command (R74). With nothing to do, the machine stays as it is (R134). DESIGN CHOICE
(log entries 2, 19). -/
def State.move (s : State) : Host.Outcome State Fault Refusal :=
  match s.inputs with
  | [] => if s.status.busy then s.nextDraw.runCommand else .next s
  | .turn :: rest =>
    if s.status.busy then ({ s with inputs := rest }).nextDraw.runCommand else .next { s with inputs := rest }
  | i :: rest => .next (({ s with inputs := rest }).nextDraw.input i)

/-- The state in which the word `w` has been accepted and the engine moves next. -/
def State.withCommand (s : State) (w : Word) : State :=
  { s.accept w with inputs := .turn :: s.inputs }

end Sys2Proof.Machine
end

