-- ==== Sys2Proof/Machine/Step.lean ====
section
/-! DEFINITION. The step of the machine, and how a command word comes to be the next one the engine runs. -/

namespace Sys2Proof.Machine

/-- One step of the machine. -/
def step (s : State) : Host.Outcome State Fault Refusal :=
  s.move

/-- `s` with the command word `w` accepted (R71), so that the next step runs it. A command is one 32-bit word (R63).
DESIGN CHOICE (log entry 3): nothing is fetched or loaded (R61), so this stands for the acceptance of the word. -/
def State.withFetchWord (s : State) (nbits w : Nat) : State :=
  s.withCommand (BitVec.ofNat 32 (w % 2 ^ nbits))

end Sys2Proof.Machine
end

