-- ==== Sys2Proof/Machine/HostProgram.lean ====
section
/-! DEFINITION. The host operations and pseudo-instructions of spec/30_encoding.md R69 and R70, as the inputs they bring
about. `base` is `REG_BASE`. The host's own `for` and `if` are Lean's: the engine has no control flow (R76). -/

namespace Sys2Proof.Machine

/-- `wr REG, v` (R69). -/
def hostWr (base : Nat) (r : Reg) (v : Word) : Input :=
  .regWrite (base + r.offset) 32 v

/-- `rd REG` (R69). -/
def hostRd (base : Nat) (r : Reg) : Input :=
  .regRead (base + r.offset) 32

/-- `w1c STATUS, mask` (R69): the host write `wr STATUS, mask`. -/
def hostW1c (base : Nat) (mask : Word) : Input :=
  hostWr base .status mask

/-- `poll` (R69): reads of `STATUS` until `BUSY = 0`; the running command completes, and the last read sees it. DEDUCED
(log entry 18). -/
def hostPoll (base : Nat) : List Input :=
  [.turn, hostRd base .status]

/-- `mem8 a, v` (R69). -/
def hostMem8 (a : Word) (v : Byte) : Input :=
  .memWrite a v

/-- `mem32 a, v` (R69): the four bytes of the word, little-endian (R50), as four byte writes in ascending order (log entry
16). DESIGN CHOICE (unsafe; log entry 22): above `2^32 - 4`, where R69 does not say what the write does, the addresses wrap
to 0. -/
def hostMem32 (a v : Word) : List Input :=
  [.memWrite a (v.extractLsb' 0 8), .memWrite (a + 1) (v.extractLsb' 8 8), .memWrite (a + 2) (v.extractLsb' 16 8),
    .memWrite (a + 3) (v.extractLsb' 24 8)]

/-- `ISSUE.NOWAIT c` (R70). -/
def hostIssueNoWait (base : Nat) (c : Instr) : Input :=
  hostWr base .cmd (encode c)

/-- `ISSUE c`, or a mnemonic alone (R69, R70). -/
def hostIssue (base : Nat) (c : Instr) : List Input :=
  hostIssueNoWait base c :: hostPoll base

/-- `LOAD_PRI i, c0, c1` (R70). -/
def hostLoadPri (base : Nat) (i : BitVec 11) (c0 c1 : Chr) : List Input :=
  hostWr base .tok0 c0 :: hostWr base .tok1 c1 :: hostIssue base (.tblWrPri i)

/-- `LOAD_TAIL j, c` (R70). -/
def hostLoadTail (base : Nat) (j : BitVec 6) (c : Chr) : List Input :=
  hostWr base .tok0 c :: hostIssue base (.tblWrTail j)

/-- `CLEAR_FLAGS` (R70): clears `DONE`, `ERR` and `OVR`. -/
def hostClearFlags (base : Nat) : Input :=
  hostW1c base 0x0E

/-- `SETUP_ENC src, len, dst, cap` (R70). -/
def hostSetupEnc (base : Nat) (src len dst cap : Word) : List Input :=
  [hostWr base .brBase src, hostWr base .brLen len, hostWr base .csBase dst, hostWr base .csCap cap]

/-- `SETUP_DEC src, nchars, dst, cap` (R70). -/
def hostSetupDec (base : Nat) (src nchars dst cap : Word) : List Input :=
  [hostWr base .csBase src, hostWr base .csLen nchars, hostWr base .bwBase dst, hostWr base .bwCap cap]

end Sys2Proof.Machine
end

