-- ==== Sys2Proof/Safety.lean ====
section
/-! DEFINITION. What counts as a safe run, in the terms the statements use: the invariants the spec gives the state
(spec/10_state.md R31, R35, R36, R41; spec/40_control.md R71, R74; spec/60_exceptions.md R119), and the outcomes that go
on. -/

namespace Sys2Proof.Machine

open Sys2Proof.Config

/-- Every primary entry is written, and no two are equal: what a committed primary table satisfies (R41, R86). -/
structure PriComplete (pri : Vector (Option PriToken) 2048) : Prop where
  written : ∀ i, i < 2048 → (priToken pri i).isSome
  distinct : ∀ i j, i < 2048 → j < 2048 → priToken pri i = priToken pri j → i = j

/-- Every tail entry is written, and no two are equal: what a committed tail table satisfies (R41, R86). -/
structure TailComplete (tail : Vector (Option Chr) 64) : Prop where
  written : ∀ j, j < 64 → (tailToken tail j).isSome
  distinct : ∀ i j, i < 64 → j < 64 → tailToken tail i = tailToken tail j → i = j

/-- The invariants of the state. -/
structure State.Inv (s : State) : Prop where
  /-- Memory is in canonical form. -/
  memory : s.mem.wf = true
  /-- `BR_POS <= 8 * BR_LEN` (R31). -/
  reader : s.brPos.toNat ≤ 8 * s.brLen.toNat
  /-- `BW_CNT <= BW_CAP` (R35). -/
  writer : s.bwCnt.toNat ≤ s.bwCap.toNat
  /-- The emitted bytes do not wrap past `2^32` (R47, R97). -/
  writerAddr : s.bwBase.toNat + s.bwCnt.toNat ≤ memSize
  /-- `ACCV < 2^ACCN` (R36). -/
  acc : s.accv.toNat < 2 ^ s.accn.toNat
  /-- A committed primary table is complete (R41). -/
  pri : s.status.priValid = true → PriComplete s.pri
  /-- A committed tail table is complete (R41). -/
  tail : s.status.tailValid = true → TailComplete s.tail
  /-- While a command runs, `DONE` and `ERR` are 0 (R71, R72, R74). -/
  busy : s.status.busy = true → s.status.done = false ∧ s.status.err = false
  /-- No reserved cause code is reported (R119). -/
  code : s.errCode.toNat ≤ 0x0D
  /-- A pending error has a code (R119, R121). -/
  cause : s.status.err = true → s.errCode ≠ 0
  /-- The record of the host's racing writes is empty while the engine is idle. -/
  idle : s.status.busy = false → s.touched = []

/-- The outcome is a next state: the machine neither faults nor refuses. -/
def GoesOn (o : Host.Outcome State Fault Refusal) : Prop :=
  ∃ t, o = .next t

/-- The `n` bytes of memory from `base` up. -/
def State.memBytes (s : State) (base n : Nat) : List Byte :=
  (List.range n).map fun k => s.mem.read (base + k)

/-- The port refuses no access of a kind to `n` bytes from `base` up (R46). -/
def State.allows (s : State) (kind : AccessKind) (base n : Nat) : Prop :=
  ∀ k, k < n → s.memOK kind (base + k) = true

/-- `a` is the lowest address that the port refuses in an access of a kind to `n` bytes from `base` up (R46, R55). -/
def State.RefusedFirst (s : State) (kind : AccessKind) (base n a : Nat) : Prop :=
  base ≤ a ∧ a < base + n ∧ s.memOK kind a = false ∧ ∀ k, base ≤ k → k < a → s.memOK kind k = true

/-- The engine's reads of `n` bytes from `base` up have one value: the host has not written them while the command ran
(R58 rule 3), and reads there have no side effects (R54). -/
def State.stable (s : State) (base n : Nat) : Prop :=
  ∀ k, k < n → s.touched.contains (base + k) = false ∧ inRanges s.params.sideEffects (base + k) = false

/-- Two memories read alike outside `n` bytes from `base` up. -/
def SameOutside (m m' : Memory) (base n : Nat) : Prop :=
  ∀ a, ¬(base ≤ a ∧ a < base + n) → m'.read a = m.read a

/-- The byte at `base + k` is the one of the list, for each of its bytes. -/
def HoldsBytes (m : Memory) (base : Nat) (bs : List Byte) : Prop :=
  ∀ k, k < bs.length → m.read (base + k) = bs.getD k 0

/-- The bits of a byte sequence, in stream order (R11, R95). -/
def bytesBits (b : List Byte) : List Bool :=
  b.flatMap fun x => bitsOf x.toNat 8

/-- The bit sequence the writer's state stands for (R96): the emitted bytes, then the waiting bits. -/
def State.writerBits (s : State) : List Bool :=
  bytesBits (s.memBytes s.bwBase.toNat s.bwCnt.toNat) ++ bitsOf s.accv.toNat s.accn.toNat

/-- A sequence of `BR_READ` commands (R94): what each leaves in `RES`, and the last state. -/
def runReads : List (BitVec 5) → State → Option (List Word × State)
  | [], s => some ([], s)
  | n :: ns, s =>
    match exec (.brRead n) s with
    | .next t =>
      match runReads ns t with
      | some (vs, u) => some (t.res :: vs, u)
      | none => none
    | .fault _ => none
    | .refused _ => none

/-- A sequence of `BW_WRITE` commands (R102), the host writing `VAL` before each. -/
def runWrites : List (Word × BitVec 5) → State → Option State
  | [], s => some s
  | (v, n) :: ws, s =>
    match exec (.bwWrite n) { s with val := v } with
    | .next t => runWrites ws t
    | .fault _ => none
    | .refused _ => none

/-- The bits that a sequence of `BW_WRITE` commands appends (R102). -/
def writesBits (ws : List (Word × BitVec 5)) : List Bool :=
  ws.flatMap fun w => bitsOf w.1.toNat w.2.toNat

/-- The bytes that a finished writer of the bit sequence `w` leaves (R95, R102): with `pad` the last byte is zero-padded on
the low-order side, with `trunc` the last partial byte is left out. -/
def packedBytes (p : FinalMode) (w : List Bool) : List Byte :=
  match p with
  | .pad => bitsToBytes (w ++ List.replicate ((8 - w.length % 8) % 8) false)
  | .trunc => bitsToBytes w

/-- The checks of R109 and R117 on the tables pass: the primary table is committed, and under `DUAL` the tail table too. -/
def State.tablesReady (s : State) : Prop :=
  s.status.priValid = true ∧ (s.params.policy = .dual → s.status.tailValid = true)

/-- The checks of `ENCODE` pass (R109): `len` is `BR_LEN`, `c` the string's length. -/
structure State.EncodeReady (s : State) (len c : Nat) : Prop where
  tables : s.tablesReady
  aligned : s.csBase.toNat % 4 = 0
  capacity : c ≤ s.csCap.toNat
  input : s.brBase.toNat + len ≤ 2 ^ 32
  output : s.csBase.toNat + 4 * c ≤ 2 ^ 32
  apart : len = 0 ∨ c = 0 ∨ s.brBase.toNat + len ≤ s.csBase.toNat ∨ s.csBase.toNat + 4 * c ≤ s.brBase.toNat

/-- The checks 2 to 6 of `DECODE` pass (R117): `c` is `CS_LEN`, `out` the output length. -/
structure State.DecodeReady (s : State) (c out : Nat) : Prop where
  tables : s.tablesReady
  aligned : s.csBase.toNat % 4 = 0
  capacity : out ≤ s.bwCap.toNat
  input : s.csBase.toNat + 4 * c ≤ 2 ^ 32
  output : s.bwBase.toNat + out ≤ 2 ^ 32
  apart : c = 0 ∨ out = 0 ∨ s.csBase.toNat + 4 * c ≤ s.bwBase.toNat ∨ s.bwBase.toNat + out ≤ s.csBase.toNat

end Sys2Proof.Machine
end

