-- ==== Sys2Proof/Certificates/Slice0/Obligations.lean ====
section
/-! DEFINITION. The statements about MCB-CE, for the provers. Each docstring says which rule of spec/ its statement comes
from. A result statement gives the whole next state, so it says what stays unchanged too; memory is described by what each
of its bytes reads as. -/

open Sys2Proof Sys2Proof.Machine Sys2Proof.Config

/-! ### Command words -/

/-- The words of spec/30_encoding.md R66, R69 and of the commands' own rules, written out, decode to their commands. -/
def Obligations.DecodesWrittenOutWords : Prop :=
  decode 0x00000000 = .ok .nop ∧ decode 0x01000000 = .ok .brInit ∧ decode 0x0200000B = .ok (.brRead 11) ∧
  decode 0x02000010 = .ok (.brRead 16) ∧ decode 0x04000000 = .ok .bwInit ∧ decode 0x05000006 = .ok (.bwWrite 6) ∧
  decode 0x06000000 = .ok (.bwFinal .trunc) ∧ decode 0x06000001 = .ok (.bwFinal .pad) ∧
  decode 0x08000001 = .ok (.tblClear 1) ∧ decode 0x09000003 = .ok (.tblCommit 3) ∧
  decode 0x0A0007FF = .ok (.tblWrPri 2047) ∧ decode 0x0B00003F = .ok (.tblWrTail 63) ∧
  decode 0x0C000000 = .ok .tblEncPri ∧ decode 0x0D000000 = .ok .tblEncTail ∧ decode 0x0E000000 = .ok .tblDecPri ∧
  decode 0x0F000000 = .ok .tblDecTail ∧ decode 0x10000000 = .ok .encode ∧ decode 0x11000000 = .ok .decode

/-- Decode after encode (R64 to R66): every legal command, with every operand, decodes from its own word. -/
def Obligations.DecodeAfterEncode : Prop :=
  ∀ i : Instr, i.wellFormed = true → decode (encode i) = .ok i

/-- Encode after decode (R66 to R68): a word that decodes has legal fields and is the word of its command, so no two words
are one command and no bit of a word is dropped. -/
def Obligations.EncodeAfterDecode : Prop :=
  ∀ (w : Word) (i : Instr), decode w = .ok i → i.wellFormed = true ∧ encode i = w

/-- R66 to R68: a word is a command exactly if it matches a row's mask and match with legal fields; otherwise the
first failing step of R67 names why it is illegal. `inputs`, `resp` and `draws` are the model's own (log entry 2). -/
def Obligations.DecodesExactlyTheTableWords : Prop :=
  ∀ w : Word,
    (decode w = .error .undefinedOpcode ↔ ∀ o : Opcode, w.toNat / 2 ^ 24 ≠ o.number.toNat) ∧
    (decode w = .error .reservedBit ↔
      ∃ o : Opcode, w.toNat / 2 ^ 24 = o.number.toNat ∧ w &&& o.format.mask ≠ o.matchWord) ∧
    (decode w = .error .illegalField ↔
      ∃ o : Opcode, w &&& o.format.mask = o.matchWord ∧
        (o.format = .N ∧ (w.toNat % 2 ^ 5 = 0 ∨ 16 < w.toNat % 2 ^ 5) ∨ o.format = .S ∧ w.toNat % 2 ^ 2 = 0)) ∧
    ((∃ i, decode w = .ok i) ↔
      ∃ o : Opcode, w &&& o.format.mask = o.matchWord ∧
        (o.format = .N → 1 ≤ w.toNat % 2 ^ 5 ∧ w.toNat % 2 ^ 5 ≤ 16) ∧ (o.format = .S → w.toNat % 2 ^ 2 ≠ 0))

/-! ### The step -/

/-- When a command runs and the engine moves, the step is the execution of the command that `LASTCMD` decodes to, on
the state with that turn taken and the next free values drawn (R71, R73). `inputs`, `resp` and `draws` are the
model's own (log entry 2). -/
def Obligations.StepRunsTheAcceptedCommand : Prop :=
  ∀ (s : State) (i : Instr), s.status.busy = true → decode s.lastCmd = .ok i →
    (∀ rest, s.inputs = .turn :: rest → step s = exec i { s with inputs := rest, draws := s.draws + 1 }) ∧
    (s.inputs = [] → step s = exec i { s with draws := s.draws + 1 })

/-- The word of a legal command that `withFetchWord` places is the one the next step executes, on the state that the
word's acceptance leaves (R71). `withFetchWord` itself is the model's (log entry 3). `inputs`, `resp`, `draws` (log
entry 2) and `touched` (log entry 6) are the model's own. -/
def Obligations.FetchWordIsWhatRunsNext : Prop :=
  ∀ (s : State) (i : Instr), i.wellFormed = true →
    step (s.withFetchWord 32 (encode i).toNat) =
      exec i { s with lastCmd := encode i, status := { s.status with busy := true, done := false }, errCode := 0,
                      errInfo := 0, touched := [], draws := s.draws + 1 }

/-- R67: an accepted word that is no command completes with `IllegalCommand`, the word in `ERR_INFO`, and changes no other
state: at a turn, and when no input is left. `inputs`, `resp`, `draws` (log entry 2) and `touched` (log entry 6) are the
model's own. -/
def Obligations.IllegalWordCompletesWithError : Prop :=
  ∀ (s : State) (e : DecodeError) (rest : List Input), s.status.busy = true → decode s.lastCmd = .error e →
    (s.inputs = .turn :: rest ∨ (s.inputs = [] ∧ rest = [])) →
    step s = .next { s with
      status := { s.status with busy := false, done := true, err := true }, errCode := 0x05, errInfo := s.lastCmd,
      touched := [], inputs := rest, draws := s.draws + 1 }

/-- R71: a write of `CMD` while `BUSY = 0` and `ERR = 0` accepts the word; the engine then executes it: the command
it decodes to, or an `IllegalCommand` completion. `REG_BASE` is a multiple of 4 (log entry 5). `inputs`, `resp`,
`draws` (log entry 2) and `touched` (log entry 6) are the model's own. -/
def Obligations.IssueIsAcceptedWhenIdle : Prop :=
  (∀ (s : State) (w : Word) (rest : List Input), s.params.regBase % 4 = 0 →
    s.inputs = hostWr s.params.regBase .cmd w :: rest → s.status.busy = false → s.status.err = false →
    step s = .next { s with
      lastCmd := w, status := { s.status with busy := true, done := false }, errCode := 0, errInfo := 0, touched := [],
      inputs := rest, resp := .ack, draws := s.draws + 1 }) ∧
  (∀ (s : State) (rest : List Input), s.status.busy = true →
    (s.inputs = .turn :: rest ∨ (s.inputs = [] ∧ rest = [])) →
    (∀ i, decode s.lastCmd = .ok i → step s = exec i { s with inputs := rest, draws := s.draws + 1 }) ∧
    (∀ e, decode s.lastCmd = .error e →
      step s = .next (State.raise { s with inputs := rest, draws := s.draws + 1 } (.illegalCommand s.lastCmd))))

/-- R72: a write of `CMD` made while `BUSY = 1` or `ERR = 1` sets `OVR` and changes nothing else of the block.
`REG_BASE` is a multiple of 4 (log entry 5). `inputs`, `resp` and `draws` are the model's own (log entry 2). -/
def Obligations.IssueIsDroppedWhenBusyOrErr : Prop :=
  ∀ (s : State) (w : Word) (rest : List Input), s.params.regBase % 4 = 0 →
    s.inputs = hostWr s.params.regBase .cmd w :: rest → (s.status.busy = true ∨ s.status.err = true) →
    step s = .next { s with
      status := { s.status with ovr := true }, inputs := rest, resp := .ack, draws := s.draws + 1 }

/-! ### The register window -/

/-- R17: while `BUSY = 1` a write of `CMD` or of an operand register is ignored and sets `OVR`; writes of `CTRL` and
`STATUS` take effect whatever `BUSY` is (R21: a write with `SRST = 0` sets `IE`, one with `SRST = 1` resets and ignores
`IE`). `REG_BASE` is a multiple of 4 (log entry 5). `inputs`, `resp` and `draws` are the model's own (log entry 2). -/
def Obligations.WritesWhileBusyAreDropped : Prop :=
  ∀ (s : State) (r : Reg) (v : Word) (rest : List Input), s.params.regBase % 4 = 0 →
    s.inputs = hostWr s.params.regBase r v :: rest →
    (s.status.busy = true →
      r ∈ [Reg.cmd, .val, .tok0, .tok1, .brBase, .brLen, .bwBase, .bwCap, .csBase, .csLen, .csCap] →
      step s = .next { s with
        status := { s.status with ovr := true }, inputs := rest, resp := .ack, draws := s.draws + 1 }) ∧
    (r = .ctrl → v.getLsbD 1 = false →
      step s = .next { s with ie := v.getLsbD 0, inputs := rest, resp := .ack, draws := s.draws + 1 }) ∧
    (r = .ctrl → v.getLsbD 1 = true → ∃ m,
      step s = .next { State.reset with
        params := s.params, mem := m, inputs := rest, resp := .ack, draws := s.draws + 1 }) ∧
    (r = .status →
      step s = .next { s with
        status := { s.status with
          done := s.status.done && !v.getLsbD 1, err := s.status.err && !v.getLsbD 2, ovr := s.status.ovr && !v.getLsbD 3 }
        inputs := rest, resp := .ack, draws := s.draws + 1 })

/-- R18: while `BUSY = 1` a read of `ID`, `CFG`, `CTRL`, `STATUS` or `CMD` returns the register's value, a read of
another register returns some word; once the engine is idle every register's value is returned. No read changes the
block. `REG_BASE` is a multiple of 4 (log entry 5). `inputs`, `resp` and `draws` are the model's own (log entry 2). -/
def Obligations.ReadsReturnRegisterValues : Prop :=
  ∀ (s : State) (r : Reg) (rest : List Input), s.params.regBase % 4 = 0 →
    s.inputs = hostRd s.params.regBase r :: rest →
    (∃ v, step s = .next { s with inputs := rest, resp := .word v, draws := s.draws + 1 }) ∧
    (s.status.busy = false ∨ r ∈ [Reg.id, .cfg, .ctrl, .status, .cmd] →
      step s = .next { s with inputs := rest, resp := .word (s.regValue r), draws := s.draws + 1 })

/-- What the registers read as (R19 to R40): the constants, the places of the fields, the zero bits above a narrow
register, and `BR_REM = 8 * BR_LEN - BR_POS` (R32). -/
def Obligations.RegisterValuesAreTheFields : Prop :=
  ∀ s : State, s.Inv →
    s.regValue .id = 0x4D420B06 ∧
    (s.params.policy = .dual → s.regValue .cfg = 0x10060B00) ∧
    (s.params.policy = .single → s.regValue .cfg = 0x10060B01) ∧
    (s.regValue .ctrl).toNat = s.ie.toNat ∧
    (s.regValue .status).toNat = s.status.busy.toNat + 2 * s.status.done.toNat + 4 * s.status.err.toNat +
      8 * s.status.ovr.toNat + 16 * s.status.priValid.toNat + 32 * s.status.tailValid.toNat +
      64 * s.status.bwClosed.toNat ∧
    (s.regValue .errCode).toNat = s.errCode.toNat ∧ s.regValue .errInfo = s.errInfo ∧ s.regValue .cmd = s.lastCmd ∧
    s.regValue .val = s.val ∧ s.regValue .res = s.res ∧ s.regValue .tok0 = s.tok0 ∧ s.regValue .tok1 = s.tok1 ∧
    s.regValue .brBase = s.brBase ∧ (s.regValue .brLen).toNat = s.brLen.toNat ∧ s.regValue .brPos = s.brPos ∧
    (s.regValue .brRem).toNat = 8 * s.brLen.toNat - s.brPos.toNat ∧ s.brPos.toNat ≤ 8 * s.brLen.toNat ∧
    s.regValue .bwBase = s.bwBase ∧ (s.regValue .bwCap).toNat = s.bwCap.toNat ∧
    (s.regValue .bwCnt).toNat = s.bwCnt.toNat ∧
    (s.regValue .bwAcc).toNat = s.accv.toNat + 256 * s.accn.toNat ∧
    s.regValue .csBase = s.csBase ∧ (s.regValue .csLen).toNat = s.csLen.toNat ∧
    (s.regValue .csCap).toNat = s.csCap.toNat ∧ (s.regValue .csCnt).toNat = s.csCnt.toNat

/-- R16, R15: an access of another width, or at an address that is no multiple of 4, gets the error response and
changes no state; a write of a read-only register is ignored; the reserved offsets 0x5C to 0xFC read 0 and ignore
writes, whatever `BUSY` is. An access is one of the window if its first byte is: the model's choice (log entry 23).
`inputs`, `resp` and `draws` are the model's own (log entry 2). -/
def Obligations.BadReadOnlyAndReservedAccessesChangeNothing : Prop :=
  ∀ (s : State) (addr bits : Nat) (v : Word) (rest : List Input),
    s.params.regBase ≤ addr → addr < s.params.regBase + 256 →
    (bits ≠ 32 ∨ addr % 4 ≠ 0 → s.inputs = .regWrite addr bits v :: rest ∨ s.inputs = .regRead addr bits :: rest →
      step s = .next { s with inputs := rest, resp := .busErrorResponse, draws := s.draws + 1 }) ∧
    (∀ r ∈ [Reg.id, .cfg, .errCode, .errInfo, .res, .brPos, .brRem, .bwCnt, .bwAcc, .csCnt],
      addr = s.params.regBase + r.offset → addr % 4 = 0 → s.inputs = .regWrite addr 32 v :: rest →
      step s = .next { s with inputs := rest, resp := .ack, draws := s.draws + 1 }) ∧
    (s.params.regBase + 0x5C ≤ addr → addr % 4 = 0 →
      (s.inputs = .regRead addr 32 :: rest →
        step s = .next { s with inputs := rest, resp := .word 0, draws := s.draws + 1 }) ∧
      (s.inputs = .regWrite addr 32 v :: rest →
        step s = .next { s with inputs := rest, resp := .ack, draws := s.draws + 1 }))

/-- The idle writes of the operand registers (R26, R28 to R30, R33, R34, R37 to R39): each register takes its bits
of the word, a write of `BR_BASE` or `BR_LEN` starts a new reader, a write of `BW_BASE` or `BW_CAP` a new writer
(R98). `REG_BASE` is a multiple of 4 (log entry 5). `inputs`, `resp` and `draws` are the model's own (log entry 2). -/
def Obligations.IdleWritesSetOperandRegisters : Prop :=
  ∀ (s : State) (r : Reg) (v : Word) (rest : List Input), s.params.regBase % 4 = 0 → s.status.busy = false →
    s.inputs = hostWr s.params.regBase r v :: rest →
    let q := { s with inputs := rest, resp := Response.ack, draws := s.draws + 1 }
    (r = .val → step s = .next { q with val := v }) ∧
    (r = .tok0 → step s = .next { q with tok0 := v }) ∧
    (r = .tok1 → step s = .next { q with tok1 := v }) ∧
    (r = .brBase → step s = .next { q with brBase := v, brPos := 0 }) ∧
    (r = .brLen → step s = .next { q with brLen := BitVec.ofNat 29 v.toNat, brPos := 0 }) ∧
    (r = .bwBase → step s = .next { q with
      bwBase := v, bwCnt := 0, accv := 0, accn := 0, status := { s.status with bwClosed := false } }) ∧
    (r = .bwCap → step s = .next { q with
      bwCap := BitVec.ofNat 29 v.toNat, bwCnt := 0, accv := 0, accn := 0,
      status := { s.status with bwClosed := false } }) ∧
    (r = .csBase → step s = .next { q with csBase := v }) ∧
    (r = .csLen → step s = .next { q with csLen := BitVec.ofNat 30 v.toNat }) ∧
    (r = .csCap → step s = .next { q with csCap := BitVec.ofNat 30 v.toNat })

/-- R124, R22: acknowledging an error is a write of `STATUS` with bit 2 set: it clears `ERR` (and each other flag
written 1), restores nothing, and leaves `ERR_CODE` and `ERR_INFO`. `REG_BASE` is a multiple of 4 (log entry 5).
`inputs`, `resp` and `draws` are the model's own (log entry 2). -/
def Obligations.AcknowledgeClearsWrittenFlags : Prop :=
  ∀ (s : State) (v : Word) (rest : List Input), s.params.regBase % 4 = 0 →
    s.inputs = hostWr s.params.regBase .status v :: rest →
    ∃ t, step s = .next t ∧
      t = { s with
        status := { s.status with
          done := s.status.done && !v.getLsbD 1, err := s.status.err && !v.getLsbD 2, ovr := s.status.ovr && !v.getLsbD 3 }
        inputs := rest, resp := .ack, draws := s.draws + 1 } ∧
      (v.getLsbD 2 = true → t.status.err = false) ∧ t.errCode = s.errCode ∧ t.errInfo = s.errInfo

/-! ### Reset and interrupt -/

/-- R135, R136: the reset input, and a write of `CTRL` with `SRST` set, whatever `BUSY` is: every register at its
reset value, no table entry written, and memory as before outside the output range of the command in flight, whole
when no command writes. That a command its own checks would stop has an empty output range is the model's reading
(log entry 10). `REG_BASE` is a multiple of 4 (log entry 5). `inputs`, `resp` and `draws` are the model's own (log
entry 2). -/
def Obligations.ResetsLeaveTheResetState : Prop :=
  ∀ (s : State) (v : Word) (rest : List Input), s.mem.wf = true →
    (s.inputs = .hardReset :: rest ∨
      (s.params.regBase % 4 = 0 ∧ v.getLsbD 1 = true ∧ s.inputs = hostWr s.params.regBase .ctrl v :: rest)) →
    ∃ t, step s = .next t ∧
      t = { State.reset with
        params := s.params, mem := t.mem, inputs := rest, resp := t.resp, draws := s.draws + 1 } ∧
      t.irq = false ∧
      (s.status.busy = false → t.mem = s.mem) ∧
      (∀ i, s.status.busy = true → decode s.lastCmd = .ok i →
        SameOutside s.mem t.mem (s.outputRange i).base (s.outputRange i).size) ∧
      (∀ e, s.status.busy = true → decode s.lastCmd = .error e → t.mem = s.mem)

/-- The reset column of R15, with R137: what the window reads right after reset; the engine is idle, `IRQ` is low,
no table is committed and no entry is written. The model's reset state is the `DUAL` build (log entry 4). -/
def Obligations.ResetReadsTheResetColumn : Prop :=
  State.reset.windowRead 0x00 = 0x4D420B06 ∧ State.reset.windowRead 0x04 = 0x10060B00 ∧
  (∀ r : Reg, r ≠ .id → r ≠ .cfg → State.reset.windowRead r.offset = 0) ∧
  State.reset.status.busy = false ∧ State.reset.irq = false ∧ State.reset.status.priValid = false ∧
  State.reset.status.tailValid = false ∧ (∀ i, i < 2048 → priToken State.reset.pri i = none) ∧
  (∀ j, j < 64 → tailToken State.reset.tail j = none)

/-- R126, R127: `IRQ` is `CTRL.IE & STATUS.DONE`; a step raises it only where the engine completes a command, or
where the host sets `IE` while `DONE = 1`. `inputs`, `resp` and `draws` are the model's own (log entry 2). -/
def Obligations.OnlyCompletionRaisesIrq : Prop :=
  (∀ s : State, s.irq = ((s.regValue .ctrl).getLsbD 0 && (s.regValue .status).getLsbD 1)) ∧
  ∀ s t : State, step s = .next t → s.irq = false → t.irq = true →
    (s.status.busy = true ∧ t.status.busy = false ∧ s.ie = true ∧
      (s.inputs = [] ∨ ∃ rest, s.inputs = .turn :: rest)) ∨
    (s.status.done = true ∧ s.ie = false ∧ ∃ v rest, v.getLsbD 0 = true ∧ v.getLsbD 1 = false ∧
      s.inputs = .regWrite (s.params.regBase + 0x08) 32 v :: rest)

/-! ### Control and Bit Reader commands -/

/-- R79: `NOP` only completes: `DONE <- 1`. `touched` is the model's own (log entry 6). -/
def Obligations.NopOnlyCompletes : Prop :=
  ∀ s : State, exec .nop s = .next { s with
    status := { s.status with busy := false, done := true }, touched := [] }

/-- R92: `BR_INIT` starts a new reader: `BR_POS <- 0`, `BR_REM = 8 * BR_LEN`, and nothing else but the completion.
`touched` is the model's own (log entry 6). -/
def Obligations.BrInitStartsAReader : Prop :=
  ∀ s : State, ∃ t, exec .brInit s = .next t ∧
    t = { s with brPos := 0, status := { s.status with busy := false, done := true }, touched := [] } ∧
    t.brRemWord.toNat = 8 * s.brLen.toNat

/-- R93, R91, R11: with `N` bits remaining, a buffer that does not wrap and the bytes readable, `BR_READ` completes:
`RES` is the group of the next `N` bits of the whole buffer's stream, below `2^N`, `BR_POS` advances by `N`, and
nothing else changes. `touched` is the model's own (log entry 6). -/
def Obligations.BrReadReturnsTheNextBits : Prop :=
  ∀ (s : State) (n : BitVec 5), 1 ≤ n.toNat → n.toNat ≤ 16 → s.brBase.toNat + s.brLen.toNat ≤ 2 ^ 32 →
    s.brPos.toNat + n.toNat ≤ 8 * s.brLen.toNat →
    (∀ k, s.brPos.toNat / 8 ≤ k → k ≤ (s.brPos.toNat + n.toNat - 1) / 8 → s.memOK .read (s.brBase.toNat + k) = true) →
    ∃ v, v < 2 ^ n.toNat ∧
      exec (.brRead n) s = .next { s with
        res := BitVec.ofNat 32 v, brPos := BitVec.ofNat 32 (s.brPos.toNat + n.toNat),
        status := { s.status with busy := false, done := true }, touched := [] } ∧
      (s.stable s.brBase.toNat s.brLen.toNat →
        v = readBits (s.memBytes s.brBase.toNat s.brLen.toNat) s.brPos.toNat n.toNat)

/-- R93, R123: the errors of `BR_READ`, in their order; each leaves `RES` and `BR_POS` alone. That the meaning
checks `N` again is the model's (log entry 12). -/
def Obligations.BrReadErrorsInOrder : Prop :=
  ∀ (s : State) (n : BitVec 5),
    (n.toNat = 0 ∨ 16 < n.toNat → exec (.brRead n) s = .next (s.raise (.illegalCommand s.lastCmd))) ∧
    (1 ≤ n.toNat → n.toNat ≤ 16 →
      (2 ^ 32 < s.brBase.toNat + s.brLen.toNat → exec (.brRead n) s = .next (s.raise (.addressError s.brBase))) ∧
      (s.brBase.toNat + s.brLen.toNat ≤ 2 ^ 32 →
        (8 * s.brLen.toNat - s.brPos.toNat < n.toNat →
          exec (.brRead n) s = .next (s.raise (.endOfStream (8 * s.brLen.toNat - s.brPos.toNat)))) ∧
        (s.brPos.toNat + n.toNat ≤ 8 * s.brLen.toNat →
          ∀ k, s.brPos.toNat / 8 ≤ k → k ≤ (s.brPos.toNat + n.toNat - 1) / 8 →
            s.memOK .read (s.brBase.toNat + k) = false →
            (∀ j, s.brPos.toNat / 8 ≤ j → j < k → s.memOK .read (s.brBase.toNat + j) = true) →
            exec (.brRead n) s = .next (s.raise (.busError (s.brBase.toNat + k))))))

/-- R94: from a new reader instance, a sequence of reads that fits the stream returns consecutive groups of it, and
`BR_POS` ends at the sum of the counts. `touched` is the model's own (log entry 6). -/
def Obligations.ReadSequenceIsConsecutive : Prop :=
  ∀ (s : State) (ns : List (BitVec 5)), s.brPos = 0 → (∀ n ∈ ns, 1 ≤ n.toNat ∧ n.toNat ≤ 16) →
    (ns.map BitVec.toNat).sum ≤ 8 * s.brLen.toNat → s.brBase.toNat + s.brLen.toNat ≤ 2 ^ 32 →
    s.allows .read s.brBase.toNat s.brLen.toNat → s.stable s.brBase.toNat s.brLen.toNat →
    ∃ vs u, runReads ns s = some (vs, u) ∧ vs.length = ns.length ∧
      u.brPos.toNat = (ns.map BitVec.toNat).sum ∧ u.status.err = s.status.err ∧
      ∀ r (h : r < ns.length), vs[r]? = some (BitVec.ofNat 32
        (readBits (s.memBytes s.brBase.toNat s.brLen.toNat) ((ns.take r).map BitVec.toNat).sum ns[r].toNat))

/-! ### Bit Writer commands -/

/-- R99, R98: `BW_INIT` starts a new writer and writes no memory. `touched` is the model's own (log entry 6). -/
def Obligations.BwInitStartsAWriter : Prop :=
  ∀ s : State, exec .bwInit s = .next { s with
    bwCnt := 0, accv := 0, accn := 0, status := { s.status with busy := false, done := true, bwClosed := false },
    touched := [] }

/-- R100, R97: with an open writer and room for the bytes it completes, `BW_WRITE` completes: with `w = ACCN + N`
and `S` the waiting bits followed by the low `N` bits of `VAL`, it stores the `w div 8` bytes of `S` at `BW_BASE +
BW_CNT` on, keeps the `w mod 8` bits left, and changes nothing else. `touched` is the model's own (log entry 6). -/
def Obligations.BwWriteAppendsBits : Prop :=
  ∀ (s : State) (n : BitVec 5), 1 ≤ n.toNat → n.toNat ≤ 16 → s.status.bwClosed = false →
    let w := s.accn.toNat + n.toNat
    let S := s.accv.toNat * 2 ^ n.toNat + s.val.toNat % 2 ^ n.toNat
    let a := s.bwBase.toNat + s.bwCnt.toNat
    (w / 8 = 0 ∨ (s.bwCnt.toNat + w / 8 ≤ s.bwCap.toNat ∧ a + w / 8 ≤ 2 ^ 32 ∧ s.allows .write a (w / 8))) →
    ∃ m, exec (.bwWrite n) s = .next { s with
        mem := m, bwCnt := BitVec.ofNat 29 (s.bwCnt.toNat + w / 8), accn := BitVec.ofNat 3 (w % 8),
        accv := BitVec.ofNat 7 (S % 2 ^ (w % 8)), status := { s.status with busy := false, done := true },
        touched := [] } ∧
      (w / 8 = 0 → m = s.mem) ∧
      (s.mem.wf = true → SameOutside s.mem m a (w / 8)) ∧
      (s.mem.wf = true → s.touched = [] →
        ∀ k, k < w / 8 → m.read (a + k) = BitVec.ofNat 8 (S / 2 ^ (w - 8 * (k + 1))))

/-- R101, R97: with an open writer, `BW_FINAL` completes: `trunc`, or `pad` with no waiting bits, writes no memory;
`pad` with waiting bits and room stores one byte, zero-padded on the low-order side. The waiting bits are gone and
the writer is closed; nothing else changes. `touched` is the model's own (log entry 6). -/
def Obligations.BwFinalClosesTheWriter : Prop :=
  ∀ (s : State) (p : FinalMode), s.status.bwClosed = false →
    let a := s.bwBase.toNat + s.bwCnt.toNat
    (p = .trunc ∨ s.accn = 0 → exec (.bwFinal p) s = .next { s with
      accv := 0, accn := 0, status := { s.status with busy := false, done := true, bwClosed := true }, touched := [] }) ∧
    (p = .pad → s.accn ≠ 0 → s.bwCnt.toNat + 1 ≤ s.bwCap.toNat → a + 1 ≤ 2 ^ 32 → s.memOK .write a = true →
      ∃ m, exec (.bwFinal p) s = .next { s with
          mem := m, bwCnt := BitVec.ofNat 29 (s.bwCnt.toNat + 1), accv := 0, accn := 0,
          status := { s.status with busy := false, done := true, bwClosed := true }, touched := [] } ∧
        (s.mem.wf = true → SameOutside s.mem m a 1) ∧
        (s.mem.wf = true → s.touched = [] → m.read a = BitVec.ofNat 8 (s.accv.toNat * 2 ^ (8 - s.accn.toNat))))

/-- R100, R101, R97, R123: the errors of the two writing commands, in their order: a closed writer, the capacity,
the address, the first refused byte. All leave the registers alone, and memory outside the bytes to be emitted. `e`
is the number of bytes the command would emit. What a `BusError` leaves in the bytes to be emitted is free (log
entry 8). -/
def Obligations.WriterErrorsInOrder : Prop :=
  ∀ (s : State) (i : Instr) (e : Nat),
    (∃ n : BitVec 5, i = .bwWrite n ∧ 1 ≤ n.toNat ∧ n.toNat ≤ 16 ∧ e = (s.accn.toNat + n.toNat) / 8) ∨
      (i = .bwFinal .pad ∧ e = if s.accn = 0 then 0 else 1) ∨ (i = .bwFinal .trunc ∧ e = 0) →
    (s.status.bwClosed = true → exec i s = .next (s.raise (.sequenceError s.lastCmd))) ∧
    (s.status.bwClosed = false → 1 ≤ e →
      let a := s.bwBase.toNat + s.bwCnt.toNat
      (s.bwCap.toNat < s.bwCnt.toNat + e → exec i s = .next (s.raise (.capacityExceeded (s.bwCnt.toNat + e)))) ∧
      (s.bwCnt.toNat + e ≤ s.bwCap.toNat → 2 ^ 32 < a + e → exec i s = .next (s.raise (.addressError s.bwBase))) ∧
      (s.bwCnt.toNat + e ≤ s.bwCap.toNat → a + e ≤ 2 ^ 32 →
        ∀ k, k < e → s.memOK .write (a + k) = false → (∀ j, j < k → s.memOK .write (a + j) = true) →
          ∃ m, exec i s = .next (State.raise { s with mem := m } (.busError (a + k))) ∧
            (s.mem.wf = true → SameOutside s.mem m a e)))

/-- R96: the writer's state stands for the sequence of the bits written: a `BW_WRITE` that completes without error
appends the low `N` bits of `VAL` to it. `touched` is the model's own (log entry 6). -/
def Obligations.BwWriteKeepsTheBitSequence : Prop :=
  ∀ (s t : State) (n : BitVec 5), s.Inv → s.touched = [] → s.status.err = false → exec (.bwWrite n) s = .next t →
    t.status.err = false → t.writerBits = s.writerBits ++ bitsOf s.val.toNat n.toNat

/-- R102: from a new writer instance, a sequence of writes that fits the buffer, then `BW_FINAL`, leaves the packed
bytes at `BW_BASE`: with `pad` the last byte zero-padded, with `trunc` the last partial byte left out; `BW_CNT` is
their number. `touched` is the model's own (log entry 6). -/
def Obligations.WriteSequencePacksTheBits : Prop :=
  ∀ (s : State) (ws : List (Word × BitVec 5)) (p : FinalMode), s.mem.wf = true → s.touched = [] → s.bwCnt = 0 →
    s.accv = 0 → s.accn = 0 → s.status.bwClosed = false → s.status.err = false →
    (∀ w ∈ ws, 1 ≤ w.2.toNat ∧ w.2.toNat ≤ 16) →
    let bits := writesBits ws
    let bs := packedBytes p bits
    bs.length ≤ s.bwCap.toNat → s.bwBase.toNat + bs.length ≤ 2 ^ 32 → s.allows .write s.bwBase.toNat bs.length →
    (p = .pad → bs.length = (bits.length + 7) / 8) ∧ (p = .trunc → bs.length = bits.length / 8) ∧
    ∃ t u, runWrites ws s = some t ∧ exec (.bwFinal p) t = .next u ∧ u.status.err = false ∧
      u.bwCnt.toNat = bs.length ∧ HoldsBytes u.mem s.bwBase.toNat bs ∧
      SameOutside s.mem u.mem s.bwBase.toNat bs.length

/-! ### Alphabet Table commands -/

/-- R83: `TBL_CLEAR` uncommits and empties the selected tables, and leaves the other as it is. `touched` is the
model's own (log entry 6). -/
def Obligations.TblClearEmptiesSelected : Prop :=
  ∀ (s : State) (sel : BitVec 2), sel ≠ 0 →
    ∃ t, exec (.tblClear sel) s = .next t ∧
      t = { s with
        pri := t.pri, tail := t.tail,
        status := { s.status with
          busy := false, done := true, priValid := s.status.priValid && !sel.getLsbD 0,
          tailValid := s.status.tailValid && !sel.getLsbD 1 }
        touched := [] } ∧
      (if sel.getLsbD 0 then ∀ i, i < 2048 → priToken t.pri i = none else t.pri = s.pri) ∧
      (if sel.getLsbD 1 then ∀ j, j < 64 → tailToken t.tail j = none else t.tail = s.tail)

/-- R84, R85: a write of an entry of an uncommitted table stores the token registers there and nothing else; of a
committed table it is `TableLocked`. `touched` is the model's own (log entry 6). -/
def Obligations.TblWritesStoreOneEntry : Prop :=
  ∀ s : State,
    (∀ idx : BitVec 11,
      (s.status.priValid = false → ∃ pri', exec (.tblWrPri idx) s = .next { s with
          pri := pri', status := { s.status with busy := false, done := true }, touched := [] } ∧
        priToken pri' idx.toNat = some (s.tok0, s.tok1) ∧
        ∀ i, i < 2048 → i ≠ idx.toNat → priToken pri' i = priToken s.pri i) ∧
      (s.status.priValid = true → exec (.tblWrPri idx) s = .next { s with
          status := { s.status with busy := false, done := true, err := true }, errCode := 0x07, errInfo := 0x1,
          touched := [] })) ∧
    (∀ idx : BitVec 6,
      (s.status.tailValid = false → ∃ tail', exec (.tblWrTail idx) s = .next { s with
          tail := tail', status := { s.status with busy := false, done := true }, touched := [] } ∧
        tailToken tail' idx.toNat = some s.tok0 ∧
        ∀ j, j < 64 → j ≠ idx.toNat → tailToken tail' j = tailToken s.tail j) ∧
      (s.status.tailValid = true → exec (.tblWrTail idx) s = .next { s with
          status := { s.status with busy := false, done := true, err := true }, errCode := 0x07, errInfo := 0x2,
          touched := [] }))

/-- R86: `TBL_COMMIT` commits the selected tables when each is committed already, or has every entry written and no
two equal; and only then. `touched` is the model's own (log entry 6). -/
def Obligations.TblCommitAcceptsCompleteTables : Prop :=
  ∀ (s : State) (sel : BitVec 2), sel ≠ 0 →
    ((sel.getLsbD 0 = true → s.status.priValid = true ∨ PriComplete s.pri) ∧
        (sel.getLsbD 1 = true → s.status.tailValid = true ∨ TailComplete s.tail) →
      exec (.tblCommit sel) s = .next { s with
        status := { s.status with
          busy := false, done := true, priValid := s.status.priValid || sel.getLsbD 0,
          tailValid := s.status.tailValid || sel.getLsbD 1 }
        touched := [] }) ∧
    (¬((sel.getLsbD 0 = true → s.status.priValid = true ∨ PriComplete s.pri) ∧
        (sel.getLsbD 1 = true → s.status.tailValid = true ∨ TailComplete s.tail)) →
      ∃ index duplicate tailTable, exec (.tblCommit sel) s = .next (s.raise (.malformedTable index duplicate tailTable)))

/-- R86, R119: what a failing `TBL_COMMIT` records: the first unwritten index, or, with all written, the first index whose
token an earlier one has; the primary table before the tail table. -/
def Obligations.TblCommitNamesTheFirstFailure : Prop :=
  ∀ (s : State) (sel : BitVec 2),
    (∀ i, i < 2048 → sel.getLsbD 0 = true → s.status.priValid = false →
      (priToken s.pri i = none → (∀ j, j < i → (priToken s.pri j).isSome) →
        ∃ t, exec (.tblCommit sel) s = .next t ∧ t = s.raise (.malformedTable i false false) ∧ t.errInfo.toNat = i) ∧
      ((∀ j, j < 2048 → (priToken s.pri j).isSome) → (∃ j, j < i ∧ priToken s.pri j = priToken s.pri i) →
        (∀ k j, k < i → j < k → priToken s.pri j ≠ priToken s.pri k) →
        ∃ t, exec (.tblCommit sel) s = .next t ∧ t = s.raise (.malformedTable i true false) ∧
          t.errInfo.toNat = i + 2 ^ 16)) ∧
    (∀ i, i < 64 → sel.getLsbD 1 = true → s.status.tailValid = false →
      (sel.getLsbD 0 = true → s.status.priValid = true ∨ PriComplete s.pri) →
      (tailToken s.tail i = none → (∀ j, j < i → (tailToken s.tail j).isSome) →
        ∃ t, exec (.tblCommit sel) s = .next t ∧ t = s.raise (.malformedTable i false true) ∧
          t.errInfo.toNat = i + 2 ^ 17) ∧
      ((∀ j, j < 64 → (tailToken s.tail j).isSome) → (∃ j, j < i ∧ tailToken s.tail j = tailToken s.tail i) →
        (∀ k j, k < i → j < k → tailToken s.tail j ≠ tailToken s.tail k) →
        ∃ t, exec (.tblCommit sel) s = .next t ∧ t = s.raise (.malformedTable i true true) ∧
          t.errInfo.toNat = i + 2 ^ 16 + 2 ^ 17))

/-- R87, R88: the token of an index in range, of a committed table (complete, as R41 says); an uncommitted table and
an index out of range are errors, in that order. `touched` is the model's own (log entry 6). -/
def Obligations.TblEncLooksUpTokens : Prop :=
  ∀ s : State,
    (s.status.priValid = true → PriComplete s.pri → s.val.toNat < 2048 →
      ∃ c0 c1, priToken s.pri s.val.toNat = some (c0, c1) ∧ exec .tblEncPri s = .next { s with
        tok0 := c0, tok1 := c1, status := { s.status with busy := false, done := true }, touched := [] }) ∧
    (s.status.tailValid = true → TailComplete s.tail → s.val.toNat < 64 →
      ∃ c, tailToken s.tail s.val.toNat = some c ∧ exec .tblEncTail s = .next { s with
        tok0 := c, status := { s.status with busy := false, done := true }, touched := [] }) ∧
    (s.status.priValid = false → exec .tblEncPri s = .next (s.raise (.tableNotReady true false))) ∧
    (s.status.priValid = true → 2048 ≤ s.val.toNat → exec .tblEncPri s = .next (s.raise (.indexOutOfRange s.val))) ∧
    (s.status.tailValid = false → exec .tblEncTail s = .next (s.raise (.tableNotReady false true))) ∧
    (s.status.tailValid = true → 64 ≤ s.val.toNat → exec .tblEncTail s = .next (s.raise (.indexOutOfRange s.val)))

/-- R89, R90: the index of the token in the token registers, of a committed table (complete, as R41 says); an
uncommitted table and an absent token are errors, in that order, and leave `RES`. `touched` is the model's own (log
entry 6). -/
def Obligations.TblDecLooksUpIndices : Prop :=
  ∀ s : State,
    (s.status.priValid = true → PriComplete s.pri →
      (∀ i, i < 2048 → priToken s.pri i = some (s.tok0, s.tok1) → exec .tblDecPri s = .next { s with
        res := BitVec.ofNat 32 i, status := { s.status with busy := false, done := true }, touched := [] }) ∧
      ((∀ i, i < 2048 → priToken s.pri i ≠ some (s.tok0, s.tok1)) →
        exec .tblDecPri s = .next (s.raise (.unknownSymbol 0)))) ∧
    (s.status.tailValid = true → TailComplete s.tail →
      (∀ j, j < 64 → tailToken s.tail j = some s.tok0 → exec .tblDecTail s = .next { s with
        res := BitVec.ofNat 32 j, status := { s.status with busy := false, done := true }, touched := [] }) ∧
      ((∀ j, j < 64 → tailToken s.tail j ≠ some s.tok0) →
        exec .tblDecTail s = .next (s.raise (.unknownSymbol 0)))) ∧
    (s.status.priValid = false → exec .tblDecPri s = .next (s.raise (.tableNotReady true false))) ∧
    (s.status.tailValid = false → exec .tblDecTail s = .next (s.raise (.tableNotReady false true)))

/-- R81: the lookups of a committed table are inverse to each other: `PriInv(Pri(i)) = i` and `TailInv(Tail(j)) = j`. -/
def Obligations.TableLookupsAreInverse : Prop :=
  ∀ s : State, s.Inv →
    (s.status.priValid = true → ∀ i, i < 2048 → ∃ t, priToken s.pri i = some t ∧ priInv s.pri t = some i) ∧
    (s.status.tailValid = true → ∀ j, j < 64 → ∃ c, tailToken s.tail j = some c ∧ tailInv s.tail c = some j)

/-- R83, R86: `SEL = 0` is illegal, for `TBL_CLEAR` and `TBL_COMMIT`; and `N` out of 1..16 for `BW_WRITE` (R100).
That the meanings check their fields again is the model's (log entry 12). -/
def Obligations.IllegalFieldsAreRefusedByCommands : Prop :=
  ∀ s : State,
    exec (.tblClear 0) s = .next (s.raise (.illegalCommand s.lastCmd)) ∧
    exec (.tblCommit 0) s = .next (s.raise (.illegalCommand s.lastCmd)) ∧
    ∀ n : BitVec 5, n.toNat = 0 ∨ 16 < n.toNat → exec (.bwWrite n) s = .next (s.raise (.illegalCommand s.lastCmd))

/-! ### ENCODE and DECODE -/

/-- R106: the length of the string of an input of `L` bytes, over committed tables, under each policy; under `SINGLE` it is
`2 * ceil(8L / 11)`. -/
def Obligations.EncodedLengthRelation : Prop :=
  ∀ (policy : TailPolicy) (pri : Vector (Option PriToken) 2048) (tail : Vector (Option Chr) 64) (b : List Byte),
    PriComplete pri → (policy = .dual → TailComplete tail) →
    let g := 8 * b.length / 11
    let t := 8 * b.length % 11
    ∃ str, encodeChars policy pri tail b = some str ∧
      (policy = .dual →
        str.length = 2 * g + (if 7 ≤ t then 2 else if 1 ≤ t then 1 else 0)) ∧
      (policy = .single →
        str.length = 2 * g + (if t = 0 then 0 else 2) ∧ str.length = 2 * ((8 * b.length + 10) / 11))

/-- R108: every symbol of an encoding is in range for its table, the groups and the tail take exactly the `8L` bits of the
input, and `ENCODE` never raises `IndexOutOfRange` or `EndOfStream`. -/
def Obligations.SymbolsAreInRange : Prop :=
  (∀ (policy : TailPolicy) (b : List Byte),
    11 * fullGroups b.length + tailBits b.length = 8 * b.length ∧
    ∀ y ∈ encodeSyms policy b, (∀ u, y = .p11 u → u < 2048) ∧ (∀ u, y = .t6 u → u < 64)) ∧
  ∀ s t : State, exec .encode s = .next t → s.status.err = false → t.status.err = true →
    t.errCode ≠ 0x02 ∧ t.errCode ≠ 0x04

/-- R113: the output length of a string that decodes depends only on its length. -/
def Obligations.DecodedLengthRelation : Prop :=
  ∀ (policy : TailPolicy) (pri : Vector (Option PriToken) 2048) (tail : Vector (Option Chr) 64) (str : List Chr)
    (out : List Byte), decodeChars policy pri tail str = .ok out →
    (policy = .dual → out.length = (11 * (str.length / 2) + 6 * (str.length % 2)) / 8) ∧
    (policy = .single → str.length % 2 = 0 ∧ out.length = 11 * (str.length / 2) / 8)

/-- R112, R111: decoding fails at the first token absent from its table, and only then; under `SINGLE` a lone last character
is such a token. -/
def Obligations.DecodeFailsAtTheFirstUnknownToken : Prop :=
  ∀ (policy : TailPolicy) (pri : Vector (Option PriToken) 2048) (tail : Vector (Option Chr) 64) (str : List Chr)
    (pos : Nat),
    let bad : Nat → Prop := fun k =>
      (∃ c0 c1, str[2 * k]? = some c0 ∧ str[2 * k + 1]? = some c1 ∧ priInv pri (c0, c1) = none) ∨
      (∃ c, str[2 * k]? = some c ∧ str.length = 2 * k + 1 ∧ (policy = .dual → tailInv tail c = none))
    decodeChars policy pri tail str = .error pos ↔ ∃ k, pos = 2 * k ∧ bad k ∧ ∀ j, j < k → ¬bad j

/-- R114: under `DUAL` and with committed tables, decoding an encoding gives back the bytes: the decoder's bits are those of
the input followed by `z < 8` zeros. -/
def Obligations.DualRoundTrip : Prop :=
  ∀ (pri : Vector (Option PriToken) 2048) (tail : Vector (Option Chr) 64) (b : List Byte),
    PriComplete pri → TailComplete tail →
    let t := 8 * b.length % 11
    let z := if t = 0 then 0 else if t ≤ 6 then 6 - t else 11 - t
    ∃ str, encodeChars .dual pri tail b = some str ∧ z < 8 ∧
      decodeBits .dual pri tail 0 str = .ok (bytesBits b ++ List.replicate z false) ∧
      decodeChars .dual pri tail str = .ok b

/-- R115: under `SINGLE` the round trip holds exactly when `L mod 11` is none of 3, 7, 10; there the result is one zero byte
too long, the input with that byte encodes to the same string, and the token counts of `L` and `L + 1` agree. -/
def Obligations.SingleRoundTripDefect : Prop :=
  ∀ (pri : Vector (Option PriToken) 2048) (tail : Vector (Option Chr) 64) (b : List Byte), PriComplete pri →
    let defect := b.length % 11 = 3 ∨ b.length % 11 = 7 ∨ b.length % 11 = 10
    ∃ str, encodeChars .single pri tail b = some str ∧
      (¬defect → decodeChars .single pri tail str = .ok b) ∧
      (defect → decodeChars .single pri tail str = .ok (b ++ [0]) ∧
        encodeChars .single pri tail (b ++ [0]) = some str) ∧
      (((8 * b.length + 10) / 11 = (8 * (b.length + 1) + 10) / 11) ↔ defect)

/-- R110, R109: when the checks pass and the port refuses nothing, `ENCODE` completes: it stores the string of the
input, one little-endian word a character, from `CS_BASE` up, sets `BR_POS = 8L` and `CS_CNT = C`, and changes
nothing else. `touched` is the model's own (log entry 6). -/
def Obligations.EncodeStoresTheString : Prop :=
  ∀ (s : State) (c : Nat), s.Inv → c = encodedLength s.params.policy s.brLen.toNat → s.EncodeReady s.brLen.toNat c →
    s.allows .read s.brBase.toNat s.brLen.toNat → s.allows .write s.csBase.toNat (4 * c) →
    ∃ m, exec .encode s = .next { s with
        mem := m, brPos := BitVec.ofNat 32 (8 * s.brLen.toNat), csCnt := BitVec.ofNat 30 c,
        status := { s.status with busy := false, done := true }, touched := [] } ∧
      SameOutside s.mem m s.csBase.toNat (4 * c) ∧
      (s.touched = [] → s.stable s.brBase.toNat s.brLen.toNat →
        ∃ str, encodeChars s.params.policy s.pri s.tail (s.memBytes s.brBase.toNat s.brLen.toNat) = some str ∧
          str.length = c ∧
          ∀ k (h : k < str.length), ∀ j, j < 4 →
            m.read (s.csBase.toNat + 4 * k + j) = BitVec.ofNat 8 (str[k].toNat / 2 ^ (8 * j)))

/-- R109, R110, R123: the errors of `ENCODE`, in their order. Where a read and a write are both refused, the read is
reported if its byte is one that the refused character depends on, or one before: character `j` is of symbol `j / 2`,
whose bits end in byte `(11 * (j / 2) + 10) / 8` for a full group, and in the last byte for the tail (R104). Elsewhere
R110 leaves the order open, and which one is reported is free (log entry 9). What a `BusError` leaves in the output range
is free (log entry 8). -/
def Obligations.EncodeErrorsInOrder : Prop :=
  ∀ (s : State) (c : Nat), c = encodedLength s.params.policy s.brLen.toNat →
    let L := s.brLen.toNat
    (¬s.tablesReady → exec .encode s = .next (s.raise (.tableNotReady (!s.status.priValid)
      (decide (s.params.policy = .dual) && !s.status.tailValid)))) ∧
    (s.tablesReady → s.csBase.toNat % 4 ≠ 0 → exec .encode s = .next (s.raise (.alignmentError s.csBase))) ∧
    (s.tablesReady → s.csBase.toNat % 4 = 0 →
      (s.csCap.toNat < c → exec .encode s = .next (s.raise (.capacityExceeded c))) ∧
      (c ≤ s.csCap.toNat →
        (2 ^ 32 < s.brBase.toNat + L → exec .encode s = .next (s.raise (.addressError s.brBase))) ∧
        (s.brBase.toNat + L ≤ 2 ^ 32 → 2 ^ 32 < s.csBase.toNat + 4 * c →
          exec .encode s = .next (s.raise (.addressError s.csBase))) ∧
        (s.brBase.toNat + L ≤ 2 ^ 32 → s.csBase.toNat + 4 * c ≤ 2 ^ 32 → 0 < L → 0 < c →
          s.brBase.toNat < s.csBase.toNat + 4 * c → s.csBase.toNat < s.brBase.toNat + L →
          exec .encode s = .next (s.raise .bufferOverlap)))) ∧
    (s.EncodeReady L c →
      let reports : Nat → Prop := fun a =>
        ∃ m, exec .encode s = .next (State.raise { s with mem := m } (.busError a)) ∧
          (s.mem.wf = true → SameOutside s.mem m s.csBase.toNat (4 * c))
      (∀ r, s.RefusedFirst .read s.brBase.toNat L r → s.allows .write s.csBase.toNat (4 * c) → reports r) ∧
      (∀ w, s.allows .read s.brBase.toNat L → s.RefusedFirst .write s.csBase.toNat (4 * c) w → reports w) ∧
      (∀ r w, s.RefusedFirst .read s.brBase.toNat L r → s.RefusedFirst .write s.csBase.toNat (4 * c) w →
        let k := (w - s.csBase.toNat) / 4 / 2
        (8 * L / 11 ≤ k ∨ r - s.brBase.toNat ≤ (11 * k + 10) / 8 → reports r) ∧ (reports r ∨ reports w)))

/-- R118, R117: when the checks pass, the port refuses nothing and every token is known, `DECODE` completes: it
stores the bytes of the string at `CS_BASE` from `BW_BASE` up, leaves a closed writer that counts them, and changes
nothing else; an unknown token is `UnknownSymbol` at its position, with memory unchanged. `touched` is the model's
own (log entry 6). -/
def Obligations.DecodeStoresTheBytes : Prop :=
  ∀ (s : State) (str : List Chr), s.Inv → s.touched = [] →
    s.DecodeReady s.csLen.toNat (decodedLength s.params.policy s.csLen.toNat) →
    s.allows .read s.csBase.toNat (4 * s.csLen.toNat) →
    s.allows .write s.bwBase.toNat (decodedLength s.params.policy s.csLen.toNat) →
    s.stable s.csBase.toNat (4 * s.csLen.toNat) →
    str = (List.range s.csLen.toNat).map (fun k => chrOfBytes (s.mem.read (s.csBase.toNat + 4 * k))
      (s.mem.read (s.csBase.toNat + 4 * k + 1)) (s.mem.read (s.csBase.toNat + 4 * k + 2))
      (s.mem.read (s.csBase.toNat + 4 * k + 3))) →
    (∀ out, decodeChars s.params.policy s.pri s.tail str = .ok out →
      out.length = decodedLength s.params.policy s.csLen.toNat ∧
      ∃ m, exec .decode s = .next { s with
          mem := m, bwCnt := BitVec.ofNat 29 out.length, accv := 0, accn := 0,
          status := { s.status with busy := false, done := true, bwClosed := true }, touched := [] } ∧
        HoldsBytes m s.bwBase.toNat out ∧ SameOutside s.mem m s.bwBase.toNat out.length) ∧
    (∀ pos, decodeChars s.params.policy s.pri s.tail str = .error pos →
      exec .decode s = .next (s.raise (.unknownSymbol pos)))

/-- R117, R118, R123: the errors of `DECODE`, in their order. A refused read comes before any lookup result and leaves
memory unchanged. Then an unknown token of the string read is `UnknownSymbol` at its position, whether or not a write would
be refused; where every token is known, a refused write is `BusError`, and leaves memory unchanged outside the output, whose
bytes are free (log entry 8). For an odd string under `SINGLE` the output length checked is the model's reading of R117 (log
entry 11). -/
def Obligations.DecodeErrorsInOrder : Prop :=
  ∀ (s : State) (out : Nat), out = decodedLength s.params.policy s.csLen.toNat →
    let C := s.csLen.toNat
    (¬s.tablesReady → exec .decode s = .next (s.raise (.tableNotReady (!s.status.priValid)
      (decide (s.params.policy = .dual) && !s.status.tailValid)))) ∧
    (s.tablesReady → s.csBase.toNat % 4 ≠ 0 → exec .decode s = .next (s.raise (.alignmentError s.csBase))) ∧
    (s.tablesReady → s.csBase.toNat % 4 = 0 →
      (s.bwCap.toNat < out → exec .decode s = .next (s.raise (.capacityExceeded out))) ∧
      (out ≤ s.bwCap.toNat →
        (2 ^ 32 < s.csBase.toNat + 4 * C → exec .decode s = .next (s.raise (.addressError s.csBase))) ∧
        (s.csBase.toNat + 4 * C ≤ 2 ^ 32 → 2 ^ 32 < s.bwBase.toNat + out →
          exec .decode s = .next (s.raise (.addressError s.bwBase))) ∧
        (s.csBase.toNat + 4 * C ≤ 2 ^ 32 → s.bwBase.toNat + out ≤ 2 ^ 32 → 0 < C → 0 < out →
          s.csBase.toNat < s.bwBase.toNat + out → s.bwBase.toNat < s.csBase.toNat + 4 * C →
          exec .decode s = .next (s.raise .bufferOverlap)))) ∧
    (s.DecodeReady C out → ∀ a, s.RefusedFirst .read s.csBase.toNat (4 * C) a →
      exec .decode s = .next (s.raise (.busError a))) ∧
    (s.DecodeReady C out → s.allows .read s.csBase.toNat (4 * C) →
      (∀ pos, decodeChars s.params.policy s.pri s.tail s.decodeInput = .error pos →
        exec .decode s = .next (s.raise (.unknownSymbol pos))) ∧
      (∀ bs a, decodeChars s.params.policy s.pri s.tail s.decodeInput = .ok bs →
        s.RefusedFirst .write s.bwBase.toNat out a →
        ∃ m, exec .decode s = .next (State.raise { s with mem := m } (.busError a)) ∧
          (s.mem.wf = true → SameOutside s.mem m s.bwBase.toNat out)))

/-- The machine's round trip (R110, R114, R118): under `DUAL`, decoding into another buffer the string that `ENCODE`
has stored gives back the input bytes. `touched` is the model's own (log entry 6). -/
def Obligations.EncodeThenDecodeRestoresTheInput : Prop :=
  ∀ (s t : State) (b : Word) (cap : BitVec 29), s.Inv → s.touched = [] → s.params.policy = .dual →
    s.EncodeReady s.brLen.toNat (encodedLength .dual s.brLen.toNat) →
    s.allows .read s.brBase.toNat s.brLen.toNat →
    s.allows .write s.csBase.toNat (4 * encodedLength .dual s.brLen.toNat) →
    s.stable s.brBase.toNat s.brLen.toNat → s.stable s.csBase.toNat (4 * encodedLength .dual s.brLen.toNat) →
    exec .encode s = .next t →
    let u := { t with csLen := t.csCnt, bwBase := b, bwCap := cap }
    u.DecodeReady u.csLen.toNat s.brLen.toNat →
    u.allows .read s.csBase.toNat (4 * encodedLength .dual s.brLen.toNat) → u.allows .write b.toNat s.brLen.toNat →
    ∃ v, exec .decode u = .next v ∧ v.status.err = s.status.err ∧ v.bwCnt.toNat = s.brLen.toNat ∧
      ∀ k, k < s.brLen.toNat → v.mem.read (b.toNat + k) = s.mem.read (s.brBase.toNat + k)

/-! ### The machine as a whole -/

/-- The reset state has the invariants (R15, R135). -/
def Obligations.InvHoldsAtReset : Prop :=
  State.reset.Inv

/-- Every step keeps the invariants: `BR_POS <= 8 * BR_LEN` (R31), `BW_CNT <= BW_CAP` (R35), `ACCV < 2^ACCN` (R36),
committed tables complete (R41), no `DONE` or `ERR` while `BUSY` (R71, R74), a known code in `ERR_CODE` (R119),
memory in canonical form. `inputs`, `resp` and `draws` are the model's own (log entry 2). -/
def Obligations.StepKeepsInv : Prop :=
  ∀ s t : State, s.Inv → step s = .next t → t.Inv

/-- Every state with the invariants has a next step, and every command completes in it (R74;
spec/93_implementation_defined.md I25): the machine neither faults nor refuses. `inputs`, `resp` and `draws` are the
model's own (log entry 2). -/
def Obligations.EveryStepGoesOn : Prop :=
  (∀ s : State, s.Inv → GoesOn (step s)) ∧ (∀ (s : State) (i : Instr), s.Inv → GoesOn (exec i s))

/-- R74: whatever a command does, where it answers a next state it has completed: `BUSY = 0`, `DONE = 1`; with an error
(where `ERR` was 0), `ERR_CODE` is one of the codes of R119. And R119 itself: what `raise`, by which every error of a
command completes, leaves in `ERR_CODE` and `ERR_INFO`, for each error. -/
def Obligations.CommandsEndCompleted : Prop :=
  (∀ (i : Instr) (s t : State), exec i s = .next t →
    t.status.busy = false ∧ t.status.done = true ∧ (s.status.err = true → t.status.err = true) ∧
    (t.status.err = true → s.status.err = false → 1 ≤ t.errCode.toNat ∧ t.errCode.toNat ≤ 0x0D) ∧
    (t.status.err = false → t.errCode = s.errCode ∧ t.errInfo = s.errInfo)) ∧
  ∀ (s : State) (w : Word) (n : Nat) (b c : Bool), n < 2 ^ 32 →
    (n < 2 ^ 16 → (s.raise (.malformedTable n b c)).errCode = 0x01 ∧
      (s.raise (.malformedTable n b c)).errInfo.toNat = n + 2 ^ 16 * b.toNat + 2 ^ 17 * c.toNat) ∧
    (s.raise (.indexOutOfRange w)).errCode = 0x02 ∧ (s.raise (.indexOutOfRange w)).errInfo = w ∧
    (s.raise (.unknownSymbol n)).errCode = 0x03 ∧ (s.raise (.unknownSymbol n)).errInfo.toNat = n ∧
    (s.raise (.endOfStream n)).errCode = 0x04 ∧ (s.raise (.endOfStream n)).errInfo.toNat = n ∧
    (s.raise (.illegalCommand w)).errCode = 0x05 ∧ (s.raise (.illegalCommand w)).errInfo = w ∧
    (s.raise (.tableNotReady b c)).errCode = 0x06 ∧
    (s.raise (.tableNotReady b c)).errInfo.toNat = b.toNat + 2 * c.toNat ∧
    (s.raise (.tableLocked b c)).errCode = 0x07 ∧ (s.raise (.tableLocked b c)).errInfo.toNat = b.toNat + 2 * c.toNat ∧
    (s.raise (.capacityExceeded n)).errCode = 0x08 ∧ (s.raise (.capacityExceeded n)).errInfo.toNat = n ∧
    (s.raise (.addressError w)).errCode = 0x09 ∧ (s.raise (.addressError w)).errInfo = w ∧
    (s.raise (.alignmentError w)).errCode = 0x0A ∧ (s.raise (.alignmentError w)).errInfo = w ∧
    (s.raise .bufferOverlap).errCode = 0x0B ∧ (s.raise .bufferOverlap).errInfo = 0 ∧
    (s.raise (.busError n)).errCode = 0x0C ∧ (s.raise (.busError n)).errInfo.toNat = n ∧
    (s.raise (.sequenceError w)).errCode = 0x0D ∧ (s.raise (.sequenceError w)).errInfo = w

/-- R121, R122: errors are precise. A command that completes with an error leaves every register, flag and table
entry as at acceptance, but for `STATUS`'s `BUSY`, `DONE` and `ERR`, `ERR_CODE` and `ERR_INFO`; and memory too, but
for the bytes of its output range after a `BusError`. The output range of a command that its checks stop is empty
(log entry 10). `touched` is the model's own (log entry 6). -/
def Obligations.ErrorsArePrecise : Prop :=
  ∀ (i : Instr) (s t : State), exec i s = .next t → s.status.err = false → t.status.err = true →
    t = { s with
      status := { s.status with busy := false, done := true, err := true }, errCode := t.errCode, errInfo := t.errInfo,
      mem := t.mem, touched := [] } ∧
    (t.errCode ≠ 0x0C → t.mem = s.mem) ∧
    (s.mem.wf = true → SameOutside s.mem t.mem (s.outputRange i).base (s.outputRange i).size)

/-- What no command writes (R26, R29, R30, R33, R34, R37 to R39; R25, R21): the operand registers the host sets,
`CTRL`, `LASTCMD`, the parameters, the outside world. `inputs`, `resp` and `draws` are the model's own (log entry
2). -/
def Obligations.NoCommandWritesHostRegisters : Prop :=
  ∀ (i : Instr) (s t : State), exec i s = .next t →
    t.val = s.val ∧ t.brBase = s.brBase ∧ t.brLen = s.brLen ∧ t.bwBase = s.bwBase ∧ t.bwCap = s.bwCap ∧
    t.csBase = s.csBase ∧ t.csLen = s.csLen ∧ t.csCap = s.csCap ∧ t.ie = s.ie ∧ t.lastCmd = s.lastCmd ∧
    t.status.ovr = s.status.ovr ∧ t.params = s.params ∧ t.inputs = s.inputs ∧ t.resp = s.resp ∧ t.draws = s.draws

/-- Which commands write each register the engine owns (R27, R28, R31, R35, R36, R40 to R42, R53): every other command
leaves it. -/
def Obligations.EachCommandWritesOnlyItsRegisters : Prop :=
  ∀ (i : Instr) (s t : State), exec i s = .next t →
    (i ≠ .tblDecPri → i ≠ .tblDecTail → (∀ n, i ≠ .brRead n) → t.res = s.res) ∧
    (i ≠ .tblEncPri → i ≠ .tblEncTail → t.tok0 = s.tok0) ∧
    (i ≠ .tblEncPri → t.tok1 = s.tok1) ∧
    (i ≠ .brInit → (∀ n, i ≠ .brRead n) → i ≠ .encode → t.brPos = s.brPos) ∧
    (i ≠ .bwInit → (∀ n, i ≠ .bwWrite n) → (∀ p, i ≠ .bwFinal p) → i ≠ .decode →
      t.bwCnt = s.bwCnt ∧ t.accv = s.accv ∧ t.accn = s.accn) ∧
    (i ≠ .bwInit → (∀ p, i ≠ .bwFinal p) → i ≠ .decode → t.status.bwClosed = s.status.bwClosed) ∧
    (i ≠ .encode → t.csCnt = s.csCnt) ∧
    ((∀ idx, i ≠ .tblWrPri idx) → (∀ sel, i ≠ .tblClear sel) → t.pri = s.pri) ∧
    ((∀ idx, i ≠ .tblWrTail idx) → (∀ sel, i ≠ .tblClear sel) → t.tail = s.tail) ∧
    ((∀ sel, i ≠ .tblClear sel) → (∀ sel, i ≠ .tblCommit sel) →
      t.status.priValid = s.status.priValid ∧ t.status.tailValid = s.status.tailValid) ∧
    ((∀ n, i ≠ .bwWrite n) → (∀ p, i ≠ .bwFinal p) → i ≠ .encode → i ≠ .decode → t.mem = s.mem)

/-- R41, over every step: a committed table stays committed and unchanged, unless the engine runs a `TBL_CLEAR` that
selects it, or a reset comes. `inputs`, `resp` and `draws` are the model's own (log entry 2). -/
def Obligations.CommittedTablesAreNeverMutated : Prop :=
  ∀ s t : State, step s = .next t →
    let resets := (∃ rest, s.inputs = .hardReset :: rest) ∨
      (∃ v rest, v.getLsbD 1 = true ∧ s.inputs = .regWrite (s.params.regBase + 0x08) 32 v :: rest)
    let clears : Nat → Prop := fun bit => s.status.busy = true ∧
      ∃ sel : BitVec 2, decode s.lastCmd = .ok (.tblClear sel) ∧ sel.getLsbD bit = true
    (s.status.priValid = true → (t.status.priValid = true ∧ t.pri = s.pri) ∨ clears 0 ∨ resets) ∧
    (s.status.tailValid = true → (t.status.tailValid = true ∧ t.tail = s.tail) ∨ clears 1 ∨ resets)

/-- R125, R72, R124: while an error is pending, no step accepts a command: the engine stays idle, and the record of
the error stays, until the host clears `ERR` or a reset comes. `inputs`, `resp` and `draws` are the model's own (log
entry 2). -/
def Obligations.ErrorsDoNotNest : Prop :=
  ∀ s t : State, step s = .next t → s.status.busy = false → s.status.err = true →
    t.status.busy = false ∧
    ((t.lastCmd = s.lastCmd ∧ t.errCode = s.errCode ∧ t.errInfo = s.errInfo) ∨
      (t.status = Status.reset ∧ t.lastCmd = 0 ∧ t.errCode = 0 ∧ t.errInfo = 0))

/-- No step changes the build's and the platform's parameters. R6 says so of `TAIL_POLICY`. Of `REG_BASE`, `MemOK` and the
regions with read side effects it is the model's reading (log entry 5): R8 gives `MemOK` an address and a kind, and does not
speak of change over time. `inputs`, `resp` and `draws` are the model's own (log entry 2). -/
def Obligations.ParametersNeverChange : Prop :=
  ∀ s t : State, step s = .next t → t.params = s.params

/-! ### Memory -/

/-- R46, R50: a string stored from an address up reads back, little-endian, as its characters, and leaves every other byte
as it was; storing keeps memory canonical. -/
def Obligations.StringsReadBackLittleEndian : Prop :=
  ∀ (m : Memory) (base : Nat) (str : List Chr), m.wf = true → base + 4 * str.length ≤ 2 ^ 32 →
    let m' := m.writeBytes base (stringBytes str)
    m'.wf = true ∧ SameOutside m m' base (4 * str.length) ∧
    ∀ k (h : k < str.length),
      chrOfBytes (m'.read (base + 4 * k)) (m'.read (base + 4 * k + 1)) (m'.read (base + 4 * k + 2))
        (m'.read (base + 4 * k + 3)) = str[k] ∧
      (str[k].toNat = (m'.read (base + 4 * k)).toNat + 2 ^ 8 * (m'.read (base + 4 * k + 1)).toNat +
        2 ^ 16 * (m'.read (base + 4 * k + 2)).toNat + 2 ^ 24 * (m'.read (base + 4 * k + 3)).toNat)

/-- The host's memory accesses, as the model takes them: byte by byte and whatever `MemOK` says (log entry 16), with reads
in regions with side effects returning what memory holds (log entry 20). Under R58, a write is visible to the engine's
later reads; while no command runs a read returns what memory holds, right after a completion too (log entry 21); while a
command runs, a read outside its buffers does, whose extent is the model's reading (log entry 7); while a word that is no
command is in flight, every read does. `inputs`, `resp`, `draws` (log entry 2) and `touched` (log entry 6) are the model's
own. -/
def Obligations.HostMemoryAccesses : Prop :=
  ∀ (s : State) (a : Word) (v : Byte) (rest : List Input),
    (s.inputs = .memWrite a v :: rest → s.mem.wf = true → ∃ t, step s = .next t ∧
      t = { s with mem := t.mem, touched := t.touched, inputs := rest, resp := .ack, draws := s.draws + 1 } ∧
      t.mem.read a.toNat = v ∧ SameOutside s.mem t.mem a.toNat 1 ∧ t.mem.wf = true ∧
      (s.status.busy = false → t.touched = s.touched) ∧ (s.status.busy = true → a.toNat ∈ t.touched)) ∧
    (s.inputs = .memRead a :: rest → ∃ w, step s = .next { s with
        inputs := rest, resp := .byte w, draws := s.draws + 1 } ∧
      (s.status.busy = false → w = s.mem.read a.toNat) ∧
      (∀ i, s.status.busy = true → decode s.lastCmd = .ok i →
        (∀ r ∈ s.buffers i, ¬(r.base ≤ a.toNat ∧ a.toNat < r.base + r.size)) → w = s.mem.read a.toNat) ∧
      (∀ e, s.status.busy = true → decode s.lastCmd = .error e → w = s.mem.read a.toNat))
end

