-- ==== Sys2Proof/Laws/Memory.lean ====
section
/-! SUPPORT. The laws of memory: every operation keeps the canonical form, a read after a write gives the value written, a
write leaves every other address alone, and equal contents are equal data. -/

namespace Sys2Proof.Machine

open Sys2Proof.Config

@[simp] theorem Memory.read_nil (k : Nat) : Memory.read [] k = unlistedByte := rfl

theorem Memory.read_cons (a k : Nat) (v : Byte) (m : Memory) :
    Memory.read ((a, v) :: m) k = if k < a then unlistedByte else if k = a then v else Memory.read m k := rfl

theorem Memory.write_cons (a k : Nat) (w v : Byte) (m : Memory) :
    Memory.write ((a, w) :: m) k v =
      if k < a then (if v = unlistedByte then (a, w) :: m else (k, v) :: (a, w) :: m)
      else if k = a then (if v = unlistedByte then m else (k, v) :: m)
      else (a, w) :: Memory.write m k v := rfl

theorem Memory.wfFrom_cons (lo a : Nat) (v : Byte) (m : Memory) :
    Memory.wfFrom lo ((a, v) :: m) = true ↔
      lo ≤ a ∧ a < memSize ∧ v ≠ unlistedByte ∧ Memory.wfFrom (a + 1) m = true := by
  simp [Memory.wfFrom, and_assoc]

/-- A lower bound may be lowered. -/
theorem Memory.wfFrom_mono {lo lo' : Nat} {m : Memory} (h : Memory.wfFrom lo m = true) (hle : lo' ≤ lo) :
    Memory.wfFrom lo' m = true := by
  cases m with
  | nil => rfl
  | cons c m =>
    obtain ⟨a, v⟩ := c
    rw [Memory.wfFrom_cons] at h ⊢
    exact ⟨hle.trans h.1, h.2⟩

/-- Below its first address, memory lists nothing. -/
theorem Memory.read_below {lo k : Nat} {m : Memory} (h : Memory.wfFrom lo m = true) (hk : k < lo) :
    m.read k = unlistedByte := by
  cases m with
  | nil => rfl
  | cons c m =>
    obtain ⟨a, v⟩ := c
    rw [Memory.wfFrom_cons] at h
    rw [Memory.read_cons, if_pos (by omega)]

/-- A write keeps the canonical form. -/
theorem Memory.write_wfFrom {lo k : Nat} {m : Memory} (v : Byte) (h : Memory.wfFrom lo m = true) (hlo : lo ≤ k)
    (hk : k < memSize) : Memory.wfFrom lo (m.write k v) = true := by
  induction m generalizing lo with
  | nil =>
    by_cases hv : v = unlistedByte
    · simp [Memory.write, hv, Memory.wfFrom]
    · simp [Memory.write, hv, Memory.wfFrom, hlo, hk]
  | cons c m ih =>
    obtain ⟨a, w⟩ := c
    rw [Memory.write_cons]
    have hc := (Memory.wfFrom_cons lo a w m).1 h
    split_ifs with h1 h2 h3 h4
    · exact h
    · rw [Memory.wfFrom_cons, Memory.wfFrom_cons]
      exact ⟨hlo, hk, h2, by omega, hc.2⟩
    · exact Memory.wfFrom_mono hc.2.2.2 (by omega)
    · rw [Memory.wfFrom_cons]
      exact ⟨hlo, hk, h4, h3 ▸ hc.2.2.2⟩
    · rw [Memory.wfFrom_cons]
      exact ⟨hc.1, hc.2.1, hc.2.2.1, ih hc.2.2.2 (by omega)⟩

/-- What a read gives after a write, in a canonical memory. -/
theorem Memory.read_write_from {lo : Nat} {m : Memory} (h : Memory.wfFrom lo m = true) (k : Nat) (v : Byte) (j : Nat) :
    (m.write k v).read j = if j = k then v else m.read j := by
  induction m generalizing lo with
  | nil =>
    by_cases hv : v = unlistedByte
    · simp [Memory.write, hv]
    · simp only [Memory.write, if_neg hv, Memory.read_cons, Memory.read_nil]
      split_ifs <;> first | rfl | omega
  | cons c m ih =>
    obtain ⟨a, w⟩ := c
    have hc := (Memory.wfFrom_cons lo a w m).1 h
    rw [Memory.write_cons]
    by_cases h1 : k < a
    · rw [if_pos h1]
      by_cases h2 : v = unlistedByte
      · rw [if_pos h2]
        by_cases hj : j = k
        · rw [if_pos hj, hj, Memory.read_cons, if_pos h1, h2]
        · rw [if_neg hj]
      · rw [if_neg h2]
        simp only [Memory.read_cons]
        split_ifs <;> first | rfl | omega
    · rw [if_neg h1]
      by_cases h3 : k = a
      · subst h3
        rw [if_pos rfl]
        by_cases h4 : v = unlistedByte
        · rw [if_pos h4, Memory.read_cons]
          by_cases hj : j = k
          · rw [if_pos hj, hj, Memory.read_below hc.2.2.2 (by omega), h4]
          · rw [if_neg hj, if_neg hj]
            split_ifs with h5
            · exact Memory.read_below hc.2.2.2 (by omega)
            · rfl
        · rw [if_neg h4]
          simp only [Memory.read_cons]
          split_ifs <;> first | rfl | omega
      · rw [if_neg h3, Memory.read_cons, Memory.read_cons, ih hc.2.2.2]
        split_ifs <;> first | rfl | omega

/-- A write of a byte of the address space keeps memory canonical. -/
theorem Memory.write_wf {m : Memory} (h : m.wf = true) {k : Nat} (hk : k < memSize) (v : Byte) :
    (m.write k v).wf = true :=
  Memory.write_wfFrom v h (Nat.zero_le k) hk

/-- What a read gives after a write. -/
theorem Memory.read_write {m : Memory} (h : m.wf = true) (k : Nat) (v : Byte) (j : Nat) :
    (m.write k v).read j = if j = k then v else m.read j :=
  Memory.read_write_from h k v j

/-- Writing consecutive bytes inside the address space keeps memory canonical. -/
theorem Memory.writeBytes_wf {m : Memory} (h : m.wf = true) {a : Nat} {vs : List Byte}
    (hk : a + vs.length ≤ memSize) : (m.writeBytes a vs).wf = true := by
  induction vs generalizing m a with
  | nil => exact h
  | cons v vs ih =>
    rw [List.length_cons] at hk
    exact ih (Memory.write_wf h (by omega) v) (by omega)

/-- What a read gives after consecutive bytes are written inside the address space: the byte written, or what stood
there. -/
theorem Memory.read_writeBytes {m : Memory} (h : m.wf = true) {a : Nat} {vs : List Byte}
    (hk : a + vs.length ≤ memSize) (j : Nat) :
    (m.writeBytes a vs).read j = if a ≤ j ∧ j < a + vs.length then vs.getD (j - a) 0 else m.read j := by
  induction vs generalizing m a with
  | nil => rw [if_neg (by simp)]; rfl
  | cons v vs ih =>
    rw [List.length_cons] at hk
    rw [Memory.writeBytes, ih (Memory.write_wf h (by omega) v) (by omega), Memory.read_write h, List.length_cons]
    by_cases hj : j = a
    · subst hj
      rw [if_neg (by omega), if_pos rfl, if_pos (by omega)]
      simp
    · by_cases hin : a + 1 ≤ j ∧ j < a + 1 + vs.length
      · rw [if_pos hin, if_pos (by omega), show j - a = (j - (a + 1)) + 1 by omega, List.getD_cons_succ]
      · rw [if_neg hin, if_neg hj, if_neg (by omega)]

/-- Outside the bytes written, memory reads as before. -/
theorem Memory.read_writeBytes_outside {m : Memory} (h : m.wf = true) {a : Nat} {vs : List Byte}
    (hk : a + vs.length ≤ memSize) {j : Nat} (hj : ¬(a ≤ j ∧ j < a + vs.length)) :
    (m.writeBytes a vs).read j = m.read j := by
  rw [Memory.read_writeBytes h hk, if_neg hj]

@[simp] theorem scrambledBytes_length (k base n : Nat) : (scrambledBytes k base n).length = n := by
  induction n generalizing base with
  | zero => rfl
  | succ n ih => simp [scrambledBytes, ih]

@[simp] theorem State.portWrittenFrom_length (s : State) (a : Nat) (bs : List Byte) :
    (s.portWrittenFrom a bs).length = bs.length := by
  induction bs generalizing a with
  | nil => rfl
  | cons v vs ih => simp [State.portWrittenFrom, ih]

/-- When the host has written nothing while the command ran, what the engine writes is what stands there. -/
theorem State.portWrittenFrom_untouched {s : State} (h : s.touched = []) (a : Nat) (bs : List Byte) :
    s.portWrittenFrom a bs = bs := by
  induction bs generalizing a with
  | nil => rfl
  | cons v vs ih => simp [State.portWrittenFrom, State.portWritten, h, ih]

/-- Two canonical memories that read alike everywhere are equal data. -/
theorem Memory.eq_of_read {lo : Nat} {m m' : Memory} (h : Memory.wfFrom lo m = true) (h' : Memory.wfFrom lo m' = true)
    (he : ∀ k, m.read k = m'.read k) : m = m' := by
  induction m generalizing lo m' with
  | nil =>
    cases m' with
    | nil => rfl
    | cons c m' =>
      obtain ⟨a, v⟩ := c
      have hk := he a
      rw [Memory.read_cons] at hk
      simp only [lt_irrefl, if_false, if_true, Memory.read_nil] at hk
      exact absurd hk.symm ((Memory.wfFrom_cons lo a v m').1 h').2.2.1
  | cons c m ih =>
    obtain ⟨a, v⟩ := c
    have hc := (Memory.wfFrom_cons lo a v m).1 h
    cases m' with
    | nil =>
      have hk := he a
      rw [Memory.read_cons] at hk
      simp only [lt_irrefl, if_false, if_true, Memory.read_nil] at hk
      exact absurd hk hc.2.2.1
    | cons c' m' =>
      obtain ⟨a', v'⟩ := c'
      have hc' := (Memory.wfFrom_cons lo a' v' m').1 h'
      have hka := he a
      have hka' := he a'
      simp only [Memory.read_cons, lt_irrefl, if_false, if_true] at hka hka'
      have haa : a = a' := by
        rcases Nat.lt_trichotomy a a' with hlt | heq | hgt
        · rw [if_pos hlt] at hka
          exact absurd hka hc.2.2.1
        · exact heq
        · rw [if_pos hgt] at hka'
          exact absurd hka'.symm hc'.2.2.1
      subst haa
      simp only [lt_irrefl, if_false, if_true] at hka
      subst hka
      rw [ih hc.2.2.2 hc'.2.2.2]
      intro k
      by_cases hk : k < a + 1
      · rw [Memory.read_below hc.2.2.2 hk, Memory.read_below hc'.2.2.2 hk]
      · have hkk := he k
        simpa only [Memory.read_cons, if_neg (show ¬k < a by omega), if_neg (show ¬k = a by omega)] using hkk

end Sys2Proof.Machine
end

