-- ==== Sys2Proof/Laws/State.lean ====
section
/-! SUPPORT. What each update of the state does to each field, one lemma per field per update, so that no proof unfolds a
record update; and the same of `STATUS`. -/

namespace Sys2Proof.Machine

/-! ### `Status.accepted` -/

@[simp] theorem Status.accepted_busy (t : Status) : (t.accepted).busy = true := rfl
@[simp] theorem Status.accepted_done (t : Status) : (t.accepted).done = false := rfl
@[simp] theorem Status.accepted_err (t : Status) : (t.accepted).err = t.err := rfl
@[simp] theorem Status.accepted_ovr (t : Status) : (t.accepted).ovr = t.ovr := rfl
@[simp] theorem Status.accepted_priValid (t : Status) : (t.accepted).priValid = t.priValid := rfl
@[simp] theorem Status.accepted_tailValid (t : Status) : (t.accepted).tailValid = t.tailValid := rfl
@[simp] theorem Status.accepted_bwClosed (t : Status) : (t.accepted).bwClosed = t.bwClosed := rfl

/-! ### `Status.completed` -/

@[simp] theorem Status.completed_busy (t : Status) : (t.completed).busy = false := rfl
@[simp] theorem Status.completed_done (t : Status) : (t.completed).done = true := rfl
@[simp] theorem Status.completed_err (t : Status) : (t.completed).err = t.err := rfl
@[simp] theorem Status.completed_ovr (t : Status) : (t.completed).ovr = t.ovr := rfl
@[simp] theorem Status.completed_priValid (t : Status) : (t.completed).priValid = t.priValid := rfl
@[simp] theorem Status.completed_tailValid (t : Status) : (t.completed).tailValid = t.tailValid := rfl
@[simp] theorem Status.completed_bwClosed (t : Status) : (t.completed).bwClosed = t.bwClosed := rfl

/-! ### `Status.failed` -/

@[simp] theorem Status.failed_busy (t : Status) : (t.failed).busy = false := rfl
@[simp] theorem Status.failed_done (t : Status) : (t.failed).done = true := rfl
@[simp] theorem Status.failed_err (t : Status) : (t.failed).err = true := rfl
@[simp] theorem Status.failed_ovr (t : Status) : (t.failed).ovr = t.ovr := rfl
@[simp] theorem Status.failed_priValid (t : Status) : (t.failed).priValid = t.priValid := rfl
@[simp] theorem Status.failed_tailValid (t : Status) : (t.failed).tailValid = t.tailValid := rfl
@[simp] theorem Status.failed_bwClosed (t : Status) : (t.failed).bwClosed = t.bwClosed := rfl

/-! ### `Status.overrun` -/

@[simp] theorem Status.overrun_busy (t : Status) : (t.overrun).busy = t.busy := rfl
@[simp] theorem Status.overrun_done (t : Status) : (t.overrun).done = t.done := rfl
@[simp] theorem Status.overrun_err (t : Status) : (t.overrun).err = t.err := rfl
@[simp] theorem Status.overrun_ovr (t : Status) : (t.overrun).ovr = true := rfl
@[simp] theorem Status.overrun_priValid (t : Status) : (t.overrun).priValid = t.priValid := rfl
@[simp] theorem Status.overrun_tailValid (t : Status) : (t.overrun).tailValid = t.tailValid := rfl
@[simp] theorem Status.overrun_bwClosed (t : Status) : (t.overrun).bwClosed = t.bwClosed := rfl

/-! ### `Status.clearedBy` -/

@[simp] theorem Status.clearedBy_busy (t : Status) (v : Word) : (t.clearedBy v).busy = t.busy := rfl
@[simp] theorem Status.clearedBy_done (t : Status) (v : Word) : (t.clearedBy v).done = (t.done && !v.getLsbD 1) := rfl
@[simp] theorem Status.clearedBy_err (t : Status) (v : Word) : (t.clearedBy v).err = (t.err && !v.getLsbD 2) := rfl
@[simp] theorem Status.clearedBy_ovr (t : Status) (v : Word) : (t.clearedBy v).ovr = (t.ovr && !v.getLsbD 3) := rfl
@[simp] theorem Status.clearedBy_priValid (t : Status) (v : Word) : (t.clearedBy v).priValid = t.priValid := rfl
@[simp] theorem Status.clearedBy_tailValid (t : Status) (v : Word) : (t.clearedBy v).tailValid = t.tailValid := rfl
@[simp] theorem Status.clearedBy_bwClosed (t : Status) (v : Word) : (t.clearedBy v).bwClosed = t.bwClosed := rfl

/-! ### `State.complete` -/

@[simp] theorem State.complete_params (s : State) :
    (s.complete).params = s.params := rfl
@[simp] theorem State.complete_ie (s : State) :
    (s.complete).ie = s.ie := rfl
@[simp] theorem State.complete_status (s : State) :
    (s.complete).status = s.status.completed := rfl
@[simp] theorem State.complete_errCode (s : State) :
    (s.complete).errCode = s.errCode := rfl
@[simp] theorem State.complete_errInfo (s : State) :
    (s.complete).errInfo = s.errInfo := rfl
@[simp] theorem State.complete_lastCmd (s : State) :
    (s.complete).lastCmd = s.lastCmd := rfl
@[simp] theorem State.complete_val (s : State) :
    (s.complete).val = s.val := rfl
@[simp] theorem State.complete_res (s : State) :
    (s.complete).res = s.res := rfl
@[simp] theorem State.complete_tok0 (s : State) :
    (s.complete).tok0 = s.tok0 := rfl
@[simp] theorem State.complete_tok1 (s : State) :
    (s.complete).tok1 = s.tok1 := rfl
@[simp] theorem State.complete_brBase (s : State) :
    (s.complete).brBase = s.brBase := rfl
@[simp] theorem State.complete_brLen (s : State) :
    (s.complete).brLen = s.brLen := rfl
@[simp] theorem State.complete_brPos (s : State) :
    (s.complete).brPos = s.brPos := rfl
@[simp] theorem State.complete_bwBase (s : State) :
    (s.complete).bwBase = s.bwBase := rfl
@[simp] theorem State.complete_bwCap (s : State) :
    (s.complete).bwCap = s.bwCap := rfl
@[simp] theorem State.complete_bwCnt (s : State) :
    (s.complete).bwCnt = s.bwCnt := rfl
@[simp] theorem State.complete_accv (s : State) :
    (s.complete).accv = s.accv := rfl
@[simp] theorem State.complete_accn (s : State) :
    (s.complete).accn = s.accn := rfl
@[simp] theorem State.complete_csBase (s : State) :
    (s.complete).csBase = s.csBase := rfl
@[simp] theorem State.complete_csLen (s : State) :
    (s.complete).csLen = s.csLen := rfl
@[simp] theorem State.complete_csCap (s : State) :
    (s.complete).csCap = s.csCap := rfl
@[simp] theorem State.complete_csCnt (s : State) :
    (s.complete).csCnt = s.csCnt := rfl
@[simp] theorem State.complete_pri (s : State) :
    (s.complete).pri = s.pri := rfl
@[simp] theorem State.complete_tail (s : State) :
    (s.complete).tail = s.tail := rfl
@[simp] theorem State.complete_mem (s : State) :
    (s.complete).mem = s.mem := rfl
@[simp] theorem State.complete_touched (s : State) :
    (s.complete).touched = [] := rfl
@[simp] theorem State.complete_inputs (s : State) :
    (s.complete).inputs = s.inputs := rfl
@[simp] theorem State.complete_resp (s : State) :
    (s.complete).resp = s.resp := rfl
@[simp] theorem State.complete_draws (s : State) :
    (s.complete).draws = s.draws := rfl

/-! ### `State.raise` -/

@[simp] theorem State.raise_params (s : State) (e : Err) :
    (s.raise e).params = s.params := rfl
@[simp] theorem State.raise_ie (s : State) (e : Err) :
    (s.raise e).ie = s.ie := rfl
@[simp] theorem State.raise_status (s : State) (e : Err) :
    (s.raise e).status = s.status.failed := rfl
@[simp] theorem State.raise_errCode (s : State) (e : Err) :
    (s.raise e).errCode = e.code := rfl
@[simp] theorem State.raise_errInfo (s : State) (e : Err) :
    (s.raise e).errInfo = e.info := rfl
@[simp] theorem State.raise_lastCmd (s : State) (e : Err) :
    (s.raise e).lastCmd = s.lastCmd := rfl
@[simp] theorem State.raise_val (s : State) (e : Err) :
    (s.raise e).val = s.val := rfl
@[simp] theorem State.raise_res (s : State) (e : Err) :
    (s.raise e).res = s.res := rfl
@[simp] theorem State.raise_tok0 (s : State) (e : Err) :
    (s.raise e).tok0 = s.tok0 := rfl
@[simp] theorem State.raise_tok1 (s : State) (e : Err) :
    (s.raise e).tok1 = s.tok1 := rfl
@[simp] theorem State.raise_brBase (s : State) (e : Err) :
    (s.raise e).brBase = s.brBase := rfl
@[simp] theorem State.raise_brLen (s : State) (e : Err) :
    (s.raise e).brLen = s.brLen := rfl
@[simp] theorem State.raise_brPos (s : State) (e : Err) :
    (s.raise e).brPos = s.brPos := rfl
@[simp] theorem State.raise_bwBase (s : State) (e : Err) :
    (s.raise e).bwBase = s.bwBase := rfl
@[simp] theorem State.raise_bwCap (s : State) (e : Err) :
    (s.raise e).bwCap = s.bwCap := rfl
@[simp] theorem State.raise_bwCnt (s : State) (e : Err) :
    (s.raise e).bwCnt = s.bwCnt := rfl
@[simp] theorem State.raise_accv (s : State) (e : Err) :
    (s.raise e).accv = s.accv := rfl
@[simp] theorem State.raise_accn (s : State) (e : Err) :
    (s.raise e).accn = s.accn := rfl
@[simp] theorem State.raise_csBase (s : State) (e : Err) :
    (s.raise e).csBase = s.csBase := rfl
@[simp] theorem State.raise_csLen (s : State) (e : Err) :
    (s.raise e).csLen = s.csLen := rfl
@[simp] theorem State.raise_csCap (s : State) (e : Err) :
    (s.raise e).csCap = s.csCap := rfl
@[simp] theorem State.raise_csCnt (s : State) (e : Err) :
    (s.raise e).csCnt = s.csCnt := rfl
@[simp] theorem State.raise_pri (s : State) (e : Err) :
    (s.raise e).pri = s.pri := rfl
@[simp] theorem State.raise_tail (s : State) (e : Err) :
    (s.raise e).tail = s.tail := rfl
@[simp] theorem State.raise_mem (s : State) (e : Err) :
    (s.raise e).mem = s.mem := rfl
@[simp] theorem State.raise_touched (s : State) (e : Err) :
    (s.raise e).touched = [] := rfl
@[simp] theorem State.raise_inputs (s : State) (e : Err) :
    (s.raise e).inputs = s.inputs := rfl
@[simp] theorem State.raise_resp (s : State) (e : Err) :
    (s.raise e).resp = s.resp := rfl
@[simp] theorem State.raise_draws (s : State) (e : Err) :
    (s.raise e).draws = s.draws := rfl

/-! ### `State.accept` -/

@[simp] theorem State.accept_params (s : State) (w : Word) :
    (s.accept w).params = s.params := rfl
@[simp] theorem State.accept_ie (s : State) (w : Word) :
    (s.accept w).ie = s.ie := rfl
@[simp] theorem State.accept_status (s : State) (w : Word) :
    (s.accept w).status = s.status.accepted := rfl
@[simp] theorem State.accept_errCode (s : State) (w : Word) :
    (s.accept w).errCode = 0 := rfl
@[simp] theorem State.accept_errInfo (s : State) (w : Word) :
    (s.accept w).errInfo = 0 := rfl
@[simp] theorem State.accept_lastCmd (s : State) (w : Word) :
    (s.accept w).lastCmd = w := rfl
@[simp] theorem State.accept_val (s : State) (w : Word) :
    (s.accept w).val = s.val := rfl
@[simp] theorem State.accept_res (s : State) (w : Word) :
    (s.accept w).res = s.res := rfl
@[simp] theorem State.accept_tok0 (s : State) (w : Word) :
    (s.accept w).tok0 = s.tok0 := rfl
@[simp] theorem State.accept_tok1 (s : State) (w : Word) :
    (s.accept w).tok1 = s.tok1 := rfl
@[simp] theorem State.accept_brBase (s : State) (w : Word) :
    (s.accept w).brBase = s.brBase := rfl
@[simp] theorem State.accept_brLen (s : State) (w : Word) :
    (s.accept w).brLen = s.brLen := rfl
@[simp] theorem State.accept_brPos (s : State) (w : Word) :
    (s.accept w).brPos = s.brPos := rfl
@[simp] theorem State.accept_bwBase (s : State) (w : Word) :
    (s.accept w).bwBase = s.bwBase := rfl
@[simp] theorem State.accept_bwCap (s : State) (w : Word) :
    (s.accept w).bwCap = s.bwCap := rfl
@[simp] theorem State.accept_bwCnt (s : State) (w : Word) :
    (s.accept w).bwCnt = s.bwCnt := rfl
@[simp] theorem State.accept_accv (s : State) (w : Word) :
    (s.accept w).accv = s.accv := rfl
@[simp] theorem State.accept_accn (s : State) (w : Word) :
    (s.accept w).accn = s.accn := rfl
@[simp] theorem State.accept_csBase (s : State) (w : Word) :
    (s.accept w).csBase = s.csBase := rfl
@[simp] theorem State.accept_csLen (s : State) (w : Word) :
    (s.accept w).csLen = s.csLen := rfl
@[simp] theorem State.accept_csCap (s : State) (w : Word) :
    (s.accept w).csCap = s.csCap := rfl
@[simp] theorem State.accept_csCnt (s : State) (w : Word) :
    (s.accept w).csCnt = s.csCnt := rfl
@[simp] theorem State.accept_pri (s : State) (w : Word) :
    (s.accept w).pri = s.pri := rfl
@[simp] theorem State.accept_tail (s : State) (w : Word) :
    (s.accept w).tail = s.tail := rfl
@[simp] theorem State.accept_mem (s : State) (w : Word) :
    (s.accept w).mem = s.mem := rfl
@[simp] theorem State.accept_touched (s : State) (w : Word) :
    (s.accept w).touched = [] := rfl
@[simp] theorem State.accept_inputs (s : State) (w : Word) :
    (s.accept w).inputs = s.inputs := rfl
@[simp] theorem State.accept_resp (s : State) (w : Word) :
    (s.accept w).resp = s.resp := rfl
@[simp] theorem State.accept_draws (s : State) (w : Word) :
    (s.accept w).draws = s.draws := rfl

/-! ### `State.acknowledge` -/

@[simp] theorem State.acknowledge_params (s : State) (v : Word) :
    (s.acknowledge v).params = s.params := rfl
@[simp] theorem State.acknowledge_ie (s : State) (v : Word) :
    (s.acknowledge v).ie = s.ie := rfl
@[simp] theorem State.acknowledge_status (s : State) (v : Word) :
    (s.acknowledge v).status = s.status.clearedBy v := rfl
@[simp] theorem State.acknowledge_errCode (s : State) (v : Word) :
    (s.acknowledge v).errCode = s.errCode := rfl
@[simp] theorem State.acknowledge_errInfo (s : State) (v : Word) :
    (s.acknowledge v).errInfo = s.errInfo := rfl
@[simp] theorem State.acknowledge_lastCmd (s : State) (v : Word) :
    (s.acknowledge v).lastCmd = s.lastCmd := rfl
@[simp] theorem State.acknowledge_val (s : State) (v : Word) :
    (s.acknowledge v).val = s.val := rfl
@[simp] theorem State.acknowledge_res (s : State) (v : Word) :
    (s.acknowledge v).res = s.res := rfl
@[simp] theorem State.acknowledge_tok0 (s : State) (v : Word) :
    (s.acknowledge v).tok0 = s.tok0 := rfl
@[simp] theorem State.acknowledge_tok1 (s : State) (v : Word) :
    (s.acknowledge v).tok1 = s.tok1 := rfl
@[simp] theorem State.acknowledge_brBase (s : State) (v : Word) :
    (s.acknowledge v).brBase = s.brBase := rfl
@[simp] theorem State.acknowledge_brLen (s : State) (v : Word) :
    (s.acknowledge v).brLen = s.brLen := rfl
@[simp] theorem State.acknowledge_brPos (s : State) (v : Word) :
    (s.acknowledge v).brPos = s.brPos := rfl
@[simp] theorem State.acknowledge_bwBase (s : State) (v : Word) :
    (s.acknowledge v).bwBase = s.bwBase := rfl
@[simp] theorem State.acknowledge_bwCap (s : State) (v : Word) :
    (s.acknowledge v).bwCap = s.bwCap := rfl
@[simp] theorem State.acknowledge_bwCnt (s : State) (v : Word) :
    (s.acknowledge v).bwCnt = s.bwCnt := rfl
@[simp] theorem State.acknowledge_accv (s : State) (v : Word) :
    (s.acknowledge v).accv = s.accv := rfl
@[simp] theorem State.acknowledge_accn (s : State) (v : Word) :
    (s.acknowledge v).accn = s.accn := rfl
@[simp] theorem State.acknowledge_csBase (s : State) (v : Word) :
    (s.acknowledge v).csBase = s.csBase := rfl
@[simp] theorem State.acknowledge_csLen (s : State) (v : Word) :
    (s.acknowledge v).csLen = s.csLen := rfl
@[simp] theorem State.acknowledge_csCap (s : State) (v : Word) :
    (s.acknowledge v).csCap = s.csCap := rfl
@[simp] theorem State.acknowledge_csCnt (s : State) (v : Word) :
    (s.acknowledge v).csCnt = s.csCnt := rfl
@[simp] theorem State.acknowledge_pri (s : State) (v : Word) :
    (s.acknowledge v).pri = s.pri := rfl
@[simp] theorem State.acknowledge_tail (s : State) (v : Word) :
    (s.acknowledge v).tail = s.tail := rfl
@[simp] theorem State.acknowledge_mem (s : State) (v : Word) :
    (s.acknowledge v).mem = s.mem := rfl
@[simp] theorem State.acknowledge_touched (s : State) (v : Word) :
    (s.acknowledge v).touched = s.touched := rfl
@[simp] theorem State.acknowledge_inputs (s : State) (v : Word) :
    (s.acknowledge v).inputs = s.inputs := rfl
@[simp] theorem State.acknowledge_resp (s : State) (v : Word) :
    (s.acknowledge v).resp = s.resp := rfl
@[simp] theorem State.acknowledge_draws (s : State) (v : Word) :
    (s.acknowledge v).draws = s.draws := rfl

/-! ### `State.dropWrite` -/

@[simp] theorem State.dropWrite_params (s : State) :
    (s.dropWrite).params = s.params := rfl
@[simp] theorem State.dropWrite_ie (s : State) :
    (s.dropWrite).ie = s.ie := rfl
@[simp] theorem State.dropWrite_status (s : State) :
    (s.dropWrite).status = s.status.overrun := rfl
@[simp] theorem State.dropWrite_errCode (s : State) :
    (s.dropWrite).errCode = s.errCode := rfl
@[simp] theorem State.dropWrite_errInfo (s : State) :
    (s.dropWrite).errInfo = s.errInfo := rfl
@[simp] theorem State.dropWrite_lastCmd (s : State) :
    (s.dropWrite).lastCmd = s.lastCmd := rfl
@[simp] theorem State.dropWrite_val (s : State) :
    (s.dropWrite).val = s.val := rfl
@[simp] theorem State.dropWrite_res (s : State) :
    (s.dropWrite).res = s.res := rfl
@[simp] theorem State.dropWrite_tok0 (s : State) :
    (s.dropWrite).tok0 = s.tok0 := rfl
@[simp] theorem State.dropWrite_tok1 (s : State) :
    (s.dropWrite).tok1 = s.tok1 := rfl
@[simp] theorem State.dropWrite_brBase (s : State) :
    (s.dropWrite).brBase = s.brBase := rfl
@[simp] theorem State.dropWrite_brLen (s : State) :
    (s.dropWrite).brLen = s.brLen := rfl
@[simp] theorem State.dropWrite_brPos (s : State) :
    (s.dropWrite).brPos = s.brPos := rfl
@[simp] theorem State.dropWrite_bwBase (s : State) :
    (s.dropWrite).bwBase = s.bwBase := rfl
@[simp] theorem State.dropWrite_bwCap (s : State) :
    (s.dropWrite).bwCap = s.bwCap := rfl
@[simp] theorem State.dropWrite_bwCnt (s : State) :
    (s.dropWrite).bwCnt = s.bwCnt := rfl
@[simp] theorem State.dropWrite_accv (s : State) :
    (s.dropWrite).accv = s.accv := rfl
@[simp] theorem State.dropWrite_accn (s : State) :
    (s.dropWrite).accn = s.accn := rfl
@[simp] theorem State.dropWrite_csBase (s : State) :
    (s.dropWrite).csBase = s.csBase := rfl
@[simp] theorem State.dropWrite_csLen (s : State) :
    (s.dropWrite).csLen = s.csLen := rfl
@[simp] theorem State.dropWrite_csCap (s : State) :
    (s.dropWrite).csCap = s.csCap := rfl
@[simp] theorem State.dropWrite_csCnt (s : State) :
    (s.dropWrite).csCnt = s.csCnt := rfl
@[simp] theorem State.dropWrite_pri (s : State) :
    (s.dropWrite).pri = s.pri := rfl
@[simp] theorem State.dropWrite_tail (s : State) :
    (s.dropWrite).tail = s.tail := rfl
@[simp] theorem State.dropWrite_mem (s : State) :
    (s.dropWrite).mem = s.mem := rfl
@[simp] theorem State.dropWrite_touched (s : State) :
    (s.dropWrite).touched = s.touched := rfl
@[simp] theorem State.dropWrite_inputs (s : State) :
    (s.dropWrite).inputs = s.inputs := rfl
@[simp] theorem State.dropWrite_resp (s : State) :
    (s.dropWrite).resp = s.resp := rfl
@[simp] theorem State.dropWrite_draws (s : State) :
    (s.dropWrite).draws = s.draws := rfl

/-! ### `State.newReader` -/

@[simp] theorem State.newReader_params (s : State) :
    (s.newReader).params = s.params := rfl
@[simp] theorem State.newReader_ie (s : State) :
    (s.newReader).ie = s.ie := rfl
@[simp] theorem State.newReader_status (s : State) :
    (s.newReader).status = s.status := rfl
@[simp] theorem State.newReader_errCode (s : State) :
    (s.newReader).errCode = s.errCode := rfl
@[simp] theorem State.newReader_errInfo (s : State) :
    (s.newReader).errInfo = s.errInfo := rfl
@[simp] theorem State.newReader_lastCmd (s : State) :
    (s.newReader).lastCmd = s.lastCmd := rfl
@[simp] theorem State.newReader_val (s : State) :
    (s.newReader).val = s.val := rfl
@[simp] theorem State.newReader_res (s : State) :
    (s.newReader).res = s.res := rfl
@[simp] theorem State.newReader_tok0 (s : State) :
    (s.newReader).tok0 = s.tok0 := rfl
@[simp] theorem State.newReader_tok1 (s : State) :
    (s.newReader).tok1 = s.tok1 := rfl
@[simp] theorem State.newReader_brBase (s : State) :
    (s.newReader).brBase = s.brBase := rfl
@[simp] theorem State.newReader_brLen (s : State) :
    (s.newReader).brLen = s.brLen := rfl
@[simp] theorem State.newReader_brPos (s : State) :
    (s.newReader).brPos = 0 := rfl
@[simp] theorem State.newReader_bwBase (s : State) :
    (s.newReader).bwBase = s.bwBase := rfl
@[simp] theorem State.newReader_bwCap (s : State) :
    (s.newReader).bwCap = s.bwCap := rfl
@[simp] theorem State.newReader_bwCnt (s : State) :
    (s.newReader).bwCnt = s.bwCnt := rfl
@[simp] theorem State.newReader_accv (s : State) :
    (s.newReader).accv = s.accv := rfl
@[simp] theorem State.newReader_accn (s : State) :
    (s.newReader).accn = s.accn := rfl
@[simp] theorem State.newReader_csBase (s : State) :
    (s.newReader).csBase = s.csBase := rfl
@[simp] theorem State.newReader_csLen (s : State) :
    (s.newReader).csLen = s.csLen := rfl
@[simp] theorem State.newReader_csCap (s : State) :
    (s.newReader).csCap = s.csCap := rfl
@[simp] theorem State.newReader_csCnt (s : State) :
    (s.newReader).csCnt = s.csCnt := rfl
@[simp] theorem State.newReader_pri (s : State) :
    (s.newReader).pri = s.pri := rfl
@[simp] theorem State.newReader_tail (s : State) :
    (s.newReader).tail = s.tail := rfl
@[simp] theorem State.newReader_mem (s : State) :
    (s.newReader).mem = s.mem := rfl
@[simp] theorem State.newReader_touched (s : State) :
    (s.newReader).touched = s.touched := rfl
@[simp] theorem State.newReader_inputs (s : State) :
    (s.newReader).inputs = s.inputs := rfl
@[simp] theorem State.newReader_resp (s : State) :
    (s.newReader).resp = s.resp := rfl
@[simp] theorem State.newReader_draws (s : State) :
    (s.newReader).draws = s.draws := rfl

/-! ### `State.newWriter` -/

@[simp] theorem State.newWriter_params (s : State) :
    (s.newWriter).params = s.params := rfl
@[simp] theorem State.newWriter_ie (s : State) :
    (s.newWriter).ie = s.ie := rfl
@[simp] theorem State.newWriter_status (s : State) :
    (s.newWriter).status = { s.status with bwClosed := false } := rfl
@[simp] theorem State.newWriter_errCode (s : State) :
    (s.newWriter).errCode = s.errCode := rfl
@[simp] theorem State.newWriter_errInfo (s : State) :
    (s.newWriter).errInfo = s.errInfo := rfl
@[simp] theorem State.newWriter_lastCmd (s : State) :
    (s.newWriter).lastCmd = s.lastCmd := rfl
@[simp] theorem State.newWriter_val (s : State) :
    (s.newWriter).val = s.val := rfl
@[simp] theorem State.newWriter_res (s : State) :
    (s.newWriter).res = s.res := rfl
@[simp] theorem State.newWriter_tok0 (s : State) :
    (s.newWriter).tok0 = s.tok0 := rfl
@[simp] theorem State.newWriter_tok1 (s : State) :
    (s.newWriter).tok1 = s.tok1 := rfl
@[simp] theorem State.newWriter_brBase (s : State) :
    (s.newWriter).brBase = s.brBase := rfl
@[simp] theorem State.newWriter_brLen (s : State) :
    (s.newWriter).brLen = s.brLen := rfl
@[simp] theorem State.newWriter_brPos (s : State) :
    (s.newWriter).brPos = s.brPos := rfl
@[simp] theorem State.newWriter_bwBase (s : State) :
    (s.newWriter).bwBase = s.bwBase := rfl
@[simp] theorem State.newWriter_bwCap (s : State) :
    (s.newWriter).bwCap = s.bwCap := rfl
@[simp] theorem State.newWriter_bwCnt (s : State) :
    (s.newWriter).bwCnt = 0 := rfl
@[simp] theorem State.newWriter_accv (s : State) :
    (s.newWriter).accv = 0 := rfl
@[simp] theorem State.newWriter_accn (s : State) :
    (s.newWriter).accn = 0 := rfl
@[simp] theorem State.newWriter_csBase (s : State) :
    (s.newWriter).csBase = s.csBase := rfl
@[simp] theorem State.newWriter_csLen (s : State) :
    (s.newWriter).csLen = s.csLen := rfl
@[simp] theorem State.newWriter_csCap (s : State) :
    (s.newWriter).csCap = s.csCap := rfl
@[simp] theorem State.newWriter_csCnt (s : State) :
    (s.newWriter).csCnt = s.csCnt := rfl
@[simp] theorem State.newWriter_pri (s : State) :
    (s.newWriter).pri = s.pri := rfl
@[simp] theorem State.newWriter_tail (s : State) :
    (s.newWriter).tail = s.tail := rfl
@[simp] theorem State.newWriter_mem (s : State) :
    (s.newWriter).mem = s.mem := rfl
@[simp] theorem State.newWriter_touched (s : State) :
    (s.newWriter).touched = s.touched := rfl
@[simp] theorem State.newWriter_inputs (s : State) :
    (s.newWriter).inputs = s.inputs := rfl
@[simp] theorem State.newWriter_resp (s : State) :
    (s.newWriter).resp = s.resp := rfl
@[simp] theorem State.newWriter_draws (s : State) :
    (s.newWriter).draws = s.draws := rfl

/-! ### `State.clearPri` -/

@[simp] theorem State.clearPri_params (s : State) :
    (s.clearPri).params = s.params := rfl
@[simp] theorem State.clearPri_ie (s : State) :
    (s.clearPri).ie = s.ie := rfl
@[simp] theorem State.clearPri_status (s : State) :
    (s.clearPri).status = { s.status with priValid := false } := rfl
@[simp] theorem State.clearPri_errCode (s : State) :
    (s.clearPri).errCode = s.errCode := rfl
@[simp] theorem State.clearPri_errInfo (s : State) :
    (s.clearPri).errInfo = s.errInfo := rfl
@[simp] theorem State.clearPri_lastCmd (s : State) :
    (s.clearPri).lastCmd = s.lastCmd := rfl
@[simp] theorem State.clearPri_val (s : State) :
    (s.clearPri).val = s.val := rfl
@[simp] theorem State.clearPri_res (s : State) :
    (s.clearPri).res = s.res := rfl
@[simp] theorem State.clearPri_tok0 (s : State) :
    (s.clearPri).tok0 = s.tok0 := rfl
@[simp] theorem State.clearPri_tok1 (s : State) :
    (s.clearPri).tok1 = s.tok1 := rfl
@[simp] theorem State.clearPri_brBase (s : State) :
    (s.clearPri).brBase = s.brBase := rfl
@[simp] theorem State.clearPri_brLen (s : State) :
    (s.clearPri).brLen = s.brLen := rfl
@[simp] theorem State.clearPri_brPos (s : State) :
    (s.clearPri).brPos = s.brPos := rfl
@[simp] theorem State.clearPri_bwBase (s : State) :
    (s.clearPri).bwBase = s.bwBase := rfl
@[simp] theorem State.clearPri_bwCap (s : State) :
    (s.clearPri).bwCap = s.bwCap := rfl
@[simp] theorem State.clearPri_bwCnt (s : State) :
    (s.clearPri).bwCnt = s.bwCnt := rfl
@[simp] theorem State.clearPri_accv (s : State) :
    (s.clearPri).accv = s.accv := rfl
@[simp] theorem State.clearPri_accn (s : State) :
    (s.clearPri).accn = s.accn := rfl
@[simp] theorem State.clearPri_csBase (s : State) :
    (s.clearPri).csBase = s.csBase := rfl
@[simp] theorem State.clearPri_csLen (s : State) :
    (s.clearPri).csLen = s.csLen := rfl
@[simp] theorem State.clearPri_csCap (s : State) :
    (s.clearPri).csCap = s.csCap := rfl
@[simp] theorem State.clearPri_csCnt (s : State) :
    (s.clearPri).csCnt = s.csCnt := rfl
@[simp] theorem State.clearPri_pri (s : State) :
    (s.clearPri).pri = Vector.replicate 2048 none := rfl
@[simp] theorem State.clearPri_tail (s : State) :
    (s.clearPri).tail = s.tail := rfl
@[simp] theorem State.clearPri_mem (s : State) :
    (s.clearPri).mem = s.mem := rfl
@[simp] theorem State.clearPri_touched (s : State) :
    (s.clearPri).touched = s.touched := rfl
@[simp] theorem State.clearPri_inputs (s : State) :
    (s.clearPri).inputs = s.inputs := rfl
@[simp] theorem State.clearPri_resp (s : State) :
    (s.clearPri).resp = s.resp := rfl
@[simp] theorem State.clearPri_draws (s : State) :
    (s.clearPri).draws = s.draws := rfl

/-! ### `State.clearTail` -/

@[simp] theorem State.clearTail_params (s : State) :
    (s.clearTail).params = s.params := rfl
@[simp] theorem State.clearTail_ie (s : State) :
    (s.clearTail).ie = s.ie := rfl
@[simp] theorem State.clearTail_status (s : State) :
    (s.clearTail).status = { s.status with tailValid := false } := rfl
@[simp] theorem State.clearTail_errCode (s : State) :
    (s.clearTail).errCode = s.errCode := rfl
@[simp] theorem State.clearTail_errInfo (s : State) :
    (s.clearTail).errInfo = s.errInfo := rfl
@[simp] theorem State.clearTail_lastCmd (s : State) :
    (s.clearTail).lastCmd = s.lastCmd := rfl
@[simp] theorem State.clearTail_val (s : State) :
    (s.clearTail).val = s.val := rfl
@[simp] theorem State.clearTail_res (s : State) :
    (s.clearTail).res = s.res := rfl
@[simp] theorem State.clearTail_tok0 (s : State) :
    (s.clearTail).tok0 = s.tok0 := rfl
@[simp] theorem State.clearTail_tok1 (s : State) :
    (s.clearTail).tok1 = s.tok1 := rfl
@[simp] theorem State.clearTail_brBase (s : State) :
    (s.clearTail).brBase = s.brBase := rfl
@[simp] theorem State.clearTail_brLen (s : State) :
    (s.clearTail).brLen = s.brLen := rfl
@[simp] theorem State.clearTail_brPos (s : State) :
    (s.clearTail).brPos = s.brPos := rfl
@[simp] theorem State.clearTail_bwBase (s : State) :
    (s.clearTail).bwBase = s.bwBase := rfl
@[simp] theorem State.clearTail_bwCap (s : State) :
    (s.clearTail).bwCap = s.bwCap := rfl
@[simp] theorem State.clearTail_bwCnt (s : State) :
    (s.clearTail).bwCnt = s.bwCnt := rfl
@[simp] theorem State.clearTail_accv (s : State) :
    (s.clearTail).accv = s.accv := rfl
@[simp] theorem State.clearTail_accn (s : State) :
    (s.clearTail).accn = s.accn := rfl
@[simp] theorem State.clearTail_csBase (s : State) :
    (s.clearTail).csBase = s.csBase := rfl
@[simp] theorem State.clearTail_csLen (s : State) :
    (s.clearTail).csLen = s.csLen := rfl
@[simp] theorem State.clearTail_csCap (s : State) :
    (s.clearTail).csCap = s.csCap := rfl
@[simp] theorem State.clearTail_csCnt (s : State) :
    (s.clearTail).csCnt = s.csCnt := rfl
@[simp] theorem State.clearTail_pri (s : State) :
    (s.clearTail).pri = s.pri := rfl
@[simp] theorem State.clearTail_tail (s : State) :
    (s.clearTail).tail = Vector.replicate 64 none := rfl
@[simp] theorem State.clearTail_mem (s : State) :
    (s.clearTail).mem = s.mem := rfl
@[simp] theorem State.clearTail_touched (s : State) :
    (s.clearTail).touched = s.touched := rfl
@[simp] theorem State.clearTail_inputs (s : State) :
    (s.clearTail).inputs = s.inputs := rfl
@[simp] theorem State.clearTail_resp (s : State) :
    (s.clearTail).resp = s.resp := rfl
@[simp] theorem State.clearTail_draws (s : State) :
    (s.clearTail).draws = s.draws := rfl

/-! ### `State.portStore` -/

@[simp] theorem State.portStore_params (s : State) (base : Nat) (bs : List Byte) :
    (s.portStore base bs).params = s.params := rfl
@[simp] theorem State.portStore_ie (s : State) (base : Nat) (bs : List Byte) :
    (s.portStore base bs).ie = s.ie := rfl
@[simp] theorem State.portStore_status (s : State) (base : Nat) (bs : List Byte) :
    (s.portStore base bs).status = s.status := rfl
@[simp] theorem State.portStore_errCode (s : State) (base : Nat) (bs : List Byte) :
    (s.portStore base bs).errCode = s.errCode := rfl
@[simp] theorem State.portStore_errInfo (s : State) (base : Nat) (bs : List Byte) :
    (s.portStore base bs).errInfo = s.errInfo := rfl
@[simp] theorem State.portStore_lastCmd (s : State) (base : Nat) (bs : List Byte) :
    (s.portStore base bs).lastCmd = s.lastCmd := rfl
@[simp] theorem State.portStore_val (s : State) (base : Nat) (bs : List Byte) :
    (s.portStore base bs).val = s.val := rfl
@[simp] theorem State.portStore_res (s : State) (base : Nat) (bs : List Byte) :
    (s.portStore base bs).res = s.res := rfl
@[simp] theorem State.portStore_tok0 (s : State) (base : Nat) (bs : List Byte) :
    (s.portStore base bs).tok0 = s.tok0 := rfl
@[simp] theorem State.portStore_tok1 (s : State) (base : Nat) (bs : List Byte) :
    (s.portStore base bs).tok1 = s.tok1 := rfl
@[simp] theorem State.portStore_brBase (s : State) (base : Nat) (bs : List Byte) :
    (s.portStore base bs).brBase = s.brBase := rfl
@[simp] theorem State.portStore_brLen (s : State) (base : Nat) (bs : List Byte) :
    (s.portStore base bs).brLen = s.brLen := rfl
@[simp] theorem State.portStore_brPos (s : State) (base : Nat) (bs : List Byte) :
    (s.portStore base bs).brPos = s.brPos := rfl
@[simp] theorem State.portStore_bwBase (s : State) (base : Nat) (bs : List Byte) :
    (s.portStore base bs).bwBase = s.bwBase := rfl
@[simp] theorem State.portStore_bwCap (s : State) (base : Nat) (bs : List Byte) :
    (s.portStore base bs).bwCap = s.bwCap := rfl
@[simp] theorem State.portStore_bwCnt (s : State) (base : Nat) (bs : List Byte) :
    (s.portStore base bs).bwCnt = s.bwCnt := rfl
@[simp] theorem State.portStore_accv (s : State) (base : Nat) (bs : List Byte) :
    (s.portStore base bs).accv = s.accv := rfl
@[simp] theorem State.portStore_accn (s : State) (base : Nat) (bs : List Byte) :
    (s.portStore base bs).accn = s.accn := rfl
@[simp] theorem State.portStore_csBase (s : State) (base : Nat) (bs : List Byte) :
    (s.portStore base bs).csBase = s.csBase := rfl
@[simp] theorem State.portStore_csLen (s : State) (base : Nat) (bs : List Byte) :
    (s.portStore base bs).csLen = s.csLen := rfl
@[simp] theorem State.portStore_csCap (s : State) (base : Nat) (bs : List Byte) :
    (s.portStore base bs).csCap = s.csCap := rfl
@[simp] theorem State.portStore_csCnt (s : State) (base : Nat) (bs : List Byte) :
    (s.portStore base bs).csCnt = s.csCnt := rfl
@[simp] theorem State.portStore_pri (s : State) (base : Nat) (bs : List Byte) :
    (s.portStore base bs).pri = s.pri := rfl
@[simp] theorem State.portStore_tail (s : State) (base : Nat) (bs : List Byte) :
    (s.portStore base bs).tail = s.tail := rfl
@[simp] theorem State.portStore_mem (s : State) (base : Nat) (bs : List Byte) :
    (s.portStore base bs).mem = s.mem.writeBytes base (s.portWrittenFrom base bs) := rfl
@[simp] theorem State.portStore_touched (s : State) (base : Nat) (bs : List Byte) :
    (s.portStore base bs).touched = s.touched := rfl
@[simp] theorem State.portStore_inputs (s : State) (base : Nat) (bs : List Byte) :
    (s.portStore base bs).inputs = s.inputs := rfl
@[simp] theorem State.portStore_resp (s : State) (base : Nat) (bs : List Byte) :
    (s.portStore base bs).resp = s.resp := rfl
@[simp] theorem State.portStore_draws (s : State) (base : Nat) (bs : List Byte) :
    (s.portStore base bs).draws = s.draws := rfl

/-! ### `State.scramble` -/

@[simp] theorem State.scramble_params (s : State) (base size : Nat) :
    (s.scramble base size).params = s.params := rfl
@[simp] theorem State.scramble_ie (s : State) (base size : Nat) :
    (s.scramble base size).ie = s.ie := rfl
@[simp] theorem State.scramble_status (s : State) (base size : Nat) :
    (s.scramble base size).status = s.status := rfl
@[simp] theorem State.scramble_errCode (s : State) (base size : Nat) :
    (s.scramble base size).errCode = s.errCode := rfl
@[simp] theorem State.scramble_errInfo (s : State) (base size : Nat) :
    (s.scramble base size).errInfo = s.errInfo := rfl
@[simp] theorem State.scramble_lastCmd (s : State) (base size : Nat) :
    (s.scramble base size).lastCmd = s.lastCmd := rfl
@[simp] theorem State.scramble_val (s : State) (base size : Nat) :
    (s.scramble base size).val = s.val := rfl
@[simp] theorem State.scramble_res (s : State) (base size : Nat) :
    (s.scramble base size).res = s.res := rfl
@[simp] theorem State.scramble_tok0 (s : State) (base size : Nat) :
    (s.scramble base size).tok0 = s.tok0 := rfl
@[simp] theorem State.scramble_tok1 (s : State) (base size : Nat) :
    (s.scramble base size).tok1 = s.tok1 := rfl
@[simp] theorem State.scramble_brBase (s : State) (base size : Nat) :
    (s.scramble base size).brBase = s.brBase := rfl
@[simp] theorem State.scramble_brLen (s : State) (base size : Nat) :
    (s.scramble base size).brLen = s.brLen := rfl
@[simp] theorem State.scramble_brPos (s : State) (base size : Nat) :
    (s.scramble base size).brPos = s.brPos := rfl
@[simp] theorem State.scramble_bwBase (s : State) (base size : Nat) :
    (s.scramble base size).bwBase = s.bwBase := rfl
@[simp] theorem State.scramble_bwCap (s : State) (base size : Nat) :
    (s.scramble base size).bwCap = s.bwCap := rfl
@[simp] theorem State.scramble_bwCnt (s : State) (base size : Nat) :
    (s.scramble base size).bwCnt = s.bwCnt := rfl
@[simp] theorem State.scramble_accv (s : State) (base size : Nat) :
    (s.scramble base size).accv = s.accv := rfl
@[simp] theorem State.scramble_accn (s : State) (base size : Nat) :
    (s.scramble base size).accn = s.accn := rfl
@[simp] theorem State.scramble_csBase (s : State) (base size : Nat) :
    (s.scramble base size).csBase = s.csBase := rfl
@[simp] theorem State.scramble_csLen (s : State) (base size : Nat) :
    (s.scramble base size).csLen = s.csLen := rfl
@[simp] theorem State.scramble_csCap (s : State) (base size : Nat) :
    (s.scramble base size).csCap = s.csCap := rfl
@[simp] theorem State.scramble_csCnt (s : State) (base size : Nat) :
    (s.scramble base size).csCnt = s.csCnt := rfl
@[simp] theorem State.scramble_pri (s : State) (base size : Nat) :
    (s.scramble base size).pri = s.pri := rfl
@[simp] theorem State.scramble_tail (s : State) (base size : Nat) :
    (s.scramble base size).tail = s.tail := rfl
@[simp] theorem State.scramble_mem (s : State) (base size : Nat) :
    (s.scramble base size).mem = s.mem.writeBytes base (scrambledBytes s.draws base size) := rfl
@[simp] theorem State.scramble_touched (s : State) (base size : Nat) :
    (s.scramble base size).touched = s.touched := rfl
@[simp] theorem State.scramble_inputs (s : State) (base size : Nat) :
    (s.scramble base size).inputs = s.inputs := rfl
@[simp] theorem State.scramble_resp (s : State) (base size : Nat) :
    (s.scramble base size).resp = s.resp := rfl
@[simp] theorem State.scramble_draws (s : State) (base size : Nat) :
    (s.scramble base size).draws = s.draws := rfl

/-! ### `State.nextDraw` -/

@[simp] theorem State.nextDraw_params (s : State) :
    (s.nextDraw).params = s.params := rfl
@[simp] theorem State.nextDraw_ie (s : State) :
    (s.nextDraw).ie = s.ie := rfl
@[simp] theorem State.nextDraw_status (s : State) :
    (s.nextDraw).status = s.status := rfl
@[simp] theorem State.nextDraw_errCode (s : State) :
    (s.nextDraw).errCode = s.errCode := rfl
@[simp] theorem State.nextDraw_errInfo (s : State) :
    (s.nextDraw).errInfo = s.errInfo := rfl
@[simp] theorem State.nextDraw_lastCmd (s : State) :
    (s.nextDraw).lastCmd = s.lastCmd := rfl
@[simp] theorem State.nextDraw_val (s : State) :
    (s.nextDraw).val = s.val := rfl
@[simp] theorem State.nextDraw_res (s : State) :
    (s.nextDraw).res = s.res := rfl
@[simp] theorem State.nextDraw_tok0 (s : State) :
    (s.nextDraw).tok0 = s.tok0 := rfl
@[simp] theorem State.nextDraw_tok1 (s : State) :
    (s.nextDraw).tok1 = s.tok1 := rfl
@[simp] theorem State.nextDraw_brBase (s : State) :
    (s.nextDraw).brBase = s.brBase := rfl
@[simp] theorem State.nextDraw_brLen (s : State) :
    (s.nextDraw).brLen = s.brLen := rfl
@[simp] theorem State.nextDraw_brPos (s : State) :
    (s.nextDraw).brPos = s.brPos := rfl
@[simp] theorem State.nextDraw_bwBase (s : State) :
    (s.nextDraw).bwBase = s.bwBase := rfl
@[simp] theorem State.nextDraw_bwCap (s : State) :
    (s.nextDraw).bwCap = s.bwCap := rfl
@[simp] theorem State.nextDraw_bwCnt (s : State) :
    (s.nextDraw).bwCnt = s.bwCnt := rfl
@[simp] theorem State.nextDraw_accv (s : State) :
    (s.nextDraw).accv = s.accv := rfl
@[simp] theorem State.nextDraw_accn (s : State) :
    (s.nextDraw).accn = s.accn := rfl
@[simp] theorem State.nextDraw_csBase (s : State) :
    (s.nextDraw).csBase = s.csBase := rfl
@[simp] theorem State.nextDraw_csLen (s : State) :
    (s.nextDraw).csLen = s.csLen := rfl
@[simp] theorem State.nextDraw_csCap (s : State) :
    (s.nextDraw).csCap = s.csCap := rfl
@[simp] theorem State.nextDraw_csCnt (s : State) :
    (s.nextDraw).csCnt = s.csCnt := rfl
@[simp] theorem State.nextDraw_pri (s : State) :
    (s.nextDraw).pri = s.pri := rfl
@[simp] theorem State.nextDraw_tail (s : State) :
    (s.nextDraw).tail = s.tail := rfl
@[simp] theorem State.nextDraw_mem (s : State) :
    (s.nextDraw).mem = s.mem := rfl
@[simp] theorem State.nextDraw_touched (s : State) :
    (s.nextDraw).touched = s.touched := rfl
@[simp] theorem State.nextDraw_inputs (s : State) :
    (s.nextDraw).inputs = s.inputs := rfl
@[simp] theorem State.nextDraw_resp (s : State) :
    (s.nextDraw).resp = s.resp := rfl
@[simp] theorem State.nextDraw_draws (s : State) :
    (s.nextDraw).draws = s.draws + 1 := rfl

/-! ### `State.raiseBus` -/

@[simp] theorem State.raiseBus_params (s : State) (addr base size : Nat) :
    (s.raiseBus addr base size).params = s.params := rfl
@[simp] theorem State.raiseBus_ie (s : State) (addr base size : Nat) :
    (s.raiseBus addr base size).ie = s.ie := rfl
@[simp] theorem State.raiseBus_status (s : State) (addr base size : Nat) :
    (s.raiseBus addr base size).status = s.status.failed := rfl
@[simp] theorem State.raiseBus_errCode (s : State) (addr base size : Nat) :
    (s.raiseBus addr base size).errCode = 0x0C := rfl
@[simp] theorem State.raiseBus_errInfo (s : State) (addr base size : Nat) :
    (s.raiseBus addr base size).errInfo = BitVec.ofNat 32 addr := rfl
@[simp] theorem State.raiseBus_lastCmd (s : State) (addr base size : Nat) :
    (s.raiseBus addr base size).lastCmd = s.lastCmd := rfl
@[simp] theorem State.raiseBus_val (s : State) (addr base size : Nat) :
    (s.raiseBus addr base size).val = s.val := rfl
@[simp] theorem State.raiseBus_res (s : State) (addr base size : Nat) :
    (s.raiseBus addr base size).res = s.res := rfl
@[simp] theorem State.raiseBus_tok0 (s : State) (addr base size : Nat) :
    (s.raiseBus addr base size).tok0 = s.tok0 := rfl
@[simp] theorem State.raiseBus_tok1 (s : State) (addr base size : Nat) :
    (s.raiseBus addr base size).tok1 = s.tok1 := rfl
@[simp] theorem State.raiseBus_brBase (s : State) (addr base size : Nat) :
    (s.raiseBus addr base size).brBase = s.brBase := rfl
@[simp] theorem State.raiseBus_brLen (s : State) (addr base size : Nat) :
    (s.raiseBus addr base size).brLen = s.brLen := rfl
@[simp] theorem State.raiseBus_brPos (s : State) (addr base size : Nat) :
    (s.raiseBus addr base size).brPos = s.brPos := rfl
@[simp] theorem State.raiseBus_bwBase (s : State) (addr base size : Nat) :
    (s.raiseBus addr base size).bwBase = s.bwBase := rfl
@[simp] theorem State.raiseBus_bwCap (s : State) (addr base size : Nat) :
    (s.raiseBus addr base size).bwCap = s.bwCap := rfl
@[simp] theorem State.raiseBus_bwCnt (s : State) (addr base size : Nat) :
    (s.raiseBus addr base size).bwCnt = s.bwCnt := rfl
@[simp] theorem State.raiseBus_accv (s : State) (addr base size : Nat) :
    (s.raiseBus addr base size).accv = s.accv := rfl
@[simp] theorem State.raiseBus_accn (s : State) (addr base size : Nat) :
    (s.raiseBus addr base size).accn = s.accn := rfl
@[simp] theorem State.raiseBus_csBase (s : State) (addr base size : Nat) :
    (s.raiseBus addr base size).csBase = s.csBase := rfl
@[simp] theorem State.raiseBus_csLen (s : State) (addr base size : Nat) :
    (s.raiseBus addr base size).csLen = s.csLen := rfl
@[simp] theorem State.raiseBus_csCap (s : State) (addr base size : Nat) :
    (s.raiseBus addr base size).csCap = s.csCap := rfl
@[simp] theorem State.raiseBus_csCnt (s : State) (addr base size : Nat) :
    (s.raiseBus addr base size).csCnt = s.csCnt := rfl
@[simp] theorem State.raiseBus_pri (s : State) (addr base size : Nat) :
    (s.raiseBus addr base size).pri = s.pri := rfl
@[simp] theorem State.raiseBus_tail (s : State) (addr base size : Nat) :
    (s.raiseBus addr base size).tail = s.tail := rfl
@[simp] theorem State.raiseBus_mem (s : State) (addr base size : Nat) :
    (s.raiseBus addr base size).mem = (s.scramble base size).mem := rfl
@[simp] theorem State.raiseBus_touched (s : State) (addr base size : Nat) :
    (s.raiseBus addr base size).touched = [] := rfl
@[simp] theorem State.raiseBus_inputs (s : State) (addr base size : Nat) :
    (s.raiseBus addr base size).inputs = s.inputs := rfl
@[simp] theorem State.raiseBus_resp (s : State) (addr base size : Nat) :
    (s.raiseBus addr base size).resp = s.resp := rfl
@[simp] theorem State.raiseBus_draws (s : State) (addr base size : Nat) :
    (s.raiseBus addr base size).draws = s.draws := rfl

/-! ### `State.toReset` -/

@[simp] theorem State.toReset_params (s : State) :
    (s.toReset).params = s.params := rfl
@[simp] theorem State.toReset_ie (s : State) :
    (s.toReset).ie = false := rfl
@[simp] theorem State.toReset_status (s : State) :
    (s.toReset).status = Status.reset := rfl
@[simp] theorem State.toReset_errCode (s : State) :
    (s.toReset).errCode = 0 := rfl
@[simp] theorem State.toReset_errInfo (s : State) :
    (s.toReset).errInfo = 0 := rfl
@[simp] theorem State.toReset_lastCmd (s : State) :
    (s.toReset).lastCmd = 0 := rfl
@[simp] theorem State.toReset_val (s : State) :
    (s.toReset).val = 0 := rfl
@[simp] theorem State.toReset_res (s : State) :
    (s.toReset).res = 0 := rfl
@[simp] theorem State.toReset_tok0 (s : State) :
    (s.toReset).tok0 = 0 := rfl
@[simp] theorem State.toReset_tok1 (s : State) :
    (s.toReset).tok1 = 0 := rfl
@[simp] theorem State.toReset_brBase (s : State) :
    (s.toReset).brBase = 0 := rfl
@[simp] theorem State.toReset_brLen (s : State) :
    (s.toReset).brLen = 0 := rfl
@[simp] theorem State.toReset_brPos (s : State) :
    (s.toReset).brPos = 0 := rfl
@[simp] theorem State.toReset_bwBase (s : State) :
    (s.toReset).bwBase = 0 := rfl
@[simp] theorem State.toReset_bwCap (s : State) :
    (s.toReset).bwCap = 0 := rfl
@[simp] theorem State.toReset_bwCnt (s : State) :
    (s.toReset).bwCnt = 0 := rfl
@[simp] theorem State.toReset_accv (s : State) :
    (s.toReset).accv = 0 := rfl
@[simp] theorem State.toReset_accn (s : State) :
    (s.toReset).accn = 0 := rfl
@[simp] theorem State.toReset_csBase (s : State) :
    (s.toReset).csBase = 0 := rfl
@[simp] theorem State.toReset_csLen (s : State) :
    (s.toReset).csLen = 0 := rfl
@[simp] theorem State.toReset_csCap (s : State) :
    (s.toReset).csCap = 0 := rfl
@[simp] theorem State.toReset_csCnt (s : State) :
    (s.toReset).csCnt = 0 := rfl
@[simp] theorem State.toReset_pri (s : State) :
    (s.toReset).pri = Vector.replicate 2048 none := rfl
@[simp] theorem State.toReset_tail (s : State) :
    (s.toReset).tail = Vector.replicate 64 none := rfl
@[simp] theorem State.toReset_mem (s : State) :
    (s.toReset).mem = s.abort.mem := rfl
@[simp] theorem State.toReset_touched (s : State) :
    (s.toReset).touched = [] := rfl
@[simp] theorem State.toReset_inputs (s : State) :
    (s.toReset).inputs = s.inputs := rfl
@[simp] theorem State.toReset_resp (s : State) :
    (s.toReset).resp = s.resp := rfl
@[simp] theorem State.toReset_draws (s : State) :
    (s.toReset).draws = s.draws := rfl

end Sys2Proof.Machine
end

