-- ==== Sys2Proof/Laws/Streams.lean ====
section
/-! SUPPORT. The laws of bit streams (spec/00_scope.md R11, spec/43_bitwriter.md R95): what a group of bits is worth, and how
bytes, bits and groups agree. -/

namespace Sys2Proof.Machine

/-- A group of `n` bits is below `2^n`. -/
theorem groupValue_lt (bit : Nat → Bool) (p n : Nat) : groupValue bit p n < 2 ^ n := by
  induction n with
  | zero => simp [groupValue]
  | succ n ih =>
    have : (bit (p + n)).toNat ≤ 1 := Bool.toNat_le _
    rw [groupValue, Nat.pow_succ]
    omega

/-- Two streams that agree on a group give it one value. -/
theorem groupValue_congr {bit bit' : Nat → Bool} {p p' n : Nat} (h : ∀ k, k < n → bit (p + k) = bit' (p' + k)) :
    groupValue bit p n = groupValue bit' p' n := by
  induction n with
  | zero => rfl
  | succ n ih =>
    rw [groupValue, groupValue, ih fun k hk => h k (by omega), h n (by omega)]

/-- A group is its first bits followed by its last bits. -/
theorem groupValue_add (bit : Nat → Bool) (p m n : Nat) :
    groupValue bit p (m + n) = groupValue bit p m * 2 ^ n + groupValue bit (p + m) n := by
  induction n with
  | zero => simp [groupValue]
  | succ n ih =>
    rw [← Nat.add_assoc, groupValue, ih, groupValue, Nat.pow_succ, Nat.add_assoc p m n]
    ring

/-- The bits of a group: the first is the most significant (R11). -/
theorem testBit_groupValue (bit : Nat → Bool) (p n k : Nat) (hk : k < n) :
    (groupValue bit p n).testBit k = bit (p + (n - 1 - k)) := by
  induction n generalizing k with
  | zero => omega
  | succ n ih =>
    cases k with
    | zero =>
      rw [Nat.testBit_zero, groupValue, show n + 1 - 1 - 0 = n by omega]
      cases bit (p + n) <;> simp
    | succ k =>
      have h2 : (2 * groupValue bit p n + (bit (p + n)).toNat) / 2 = groupValue bit p n := by
        have : (bit (p + n)).toNat ≤ 1 := Bool.toNat_le _
        omega
      rw [groupValue, Nat.testBit_succ, h2, ih k (by omega)]
      congr 1
      omega

@[simp] theorem bitsOf_length (v n : Nat) : (bitsOf v n).length = n := by
  induction n with
  | zero => rfl
  | succ n ih => simp [bitsOf, ih]

/-- Bit `k` of `Bits(v, n)` (R95). -/
theorem bitsOf_getElem? (v n k : Nat) (hk : k < n) : (bitsOf v n)[k]? = some (v.testBit (n - 1 - k)) := by
  induction n generalizing k with
  | zero => omega
  | succ n ih =>
    cases k with
    | zero => simp [bitsOf]
    | succ k =>
      rw [bitsOf, List.getElem?_cons_succ, ih k (by omega)]
      congr 2
      omega

/-- `Bits` depends only on the low `n` bits. -/
theorem bitsOf_mod (v n : Nat) : bitsOf (v % 2 ^ n) n = bitsOf v n := by
  apply List.ext_getElem? fun k => ?_
  by_cases hk : k < n
  · rw [bitsOf_getElem? _ _ _ hk, bitsOf_getElem? _ _ _ hk, Nat.testBit_mod_two_pow]
    simp [show n - 1 - k < n by omega]
  · rw [List.getElem?_eq_none (by simp; omega), List.getElem?_eq_none (by simp; omega)]

/-- `Bits` of a value that is two fields side by side (R95, R100). -/
theorem bitsOf_append (u v m n : Nat) (hv : v < 2 ^ n) : bitsOf (u * 2 ^ n + v) (m + n) = bitsOf u m ++ bitsOf v n := by
  apply List.ext_getElem? fun k => ?_
  by_cases hm : k < m
  · rw [List.getElem?_append_left (by simpa using hm), bitsOf_getElem? _ _ _ (by omega), bitsOf_getElem? _ _ _ hm]
    rw [Nat.mul_comm, Nat.testBit_two_pow_mul_add _ hv, if_neg (by omega)]
    congr 2
    omega
  · by_cases hk : k < m + n
    · rw [List.getElem?_append_right (by simpa using hm), bitsOf_getElem? _ _ _ hk, bitsOf_length,
        bitsOf_getElem? _ _ _ (by omega), Nat.mul_comm, Nat.testBit_two_pow_mul_add _ hv, if_pos (by omega)]
      congr 2
      omega
    · rw [List.getElem?_eq_none (by simp; omega), List.getElem?_eq_none (by simp; omega)]

/-- The bits of a group are the stream's (R11, R95). -/
theorem bitsOf_groupValue (bit : Nat → Bool) (p n : Nat) :
    bitsOf (groupValue bit p n) n = (List.range n).map fun k => bit (p + k) := by
  apply List.ext_getElem? fun k => ?_
  by_cases hk : k < n
  · rw [bitsOf_getElem? _ _ _ hk, testBit_groupValue _ _ _ _ (by omega)]
    simp only [List.getElem?_map, List.getElem?_range hk, Option.map_some]
    congr 2
    omega
  · rw [List.getElem?_eq_none (by simp; omega), List.getElem?_eq_none (by simp; omega)]

/-- A group of the bits of a value is the value, where they are `Bits(v, n)` (R95). -/
theorem groupValue_bitsOf (v n : Nat) (hv : v < 2 ^ n) : groupValue (fun i => (bitsOf v n).getD i false) 0 n = v := by
  apply Nat.eq_of_testBit_eq fun k => ?_
  by_cases hk : k < n
  · rw [testBit_groupValue _ _ _ _ hk, List.getD_eq_getElem?_getD, bitsOf_getElem? _ _ _ (by omega)]
    rw [Option.getD_some]
    congr 1
    omega
  · rw [Nat.testBit_lt_two_pow (lt_of_lt_of_le (groupValue_lt _ _ _) (Nat.pow_le_pow_right (by omega) (by omega))),
      Nat.testBit_lt_two_pow (lt_of_lt_of_le hv (Nat.pow_le_pow_right (by omega) (by omega)))]

@[simp] theorem bitsToBytes_length (w : List Bool) : (bitsToBytes w).length = w.length / 8 := by
  simp [bitsToBytes]

@[simp] theorem bytesBits_length (b : List Byte) : (bytesBits b).length = 8 * b.length := by
  induction b with
  | nil => rfl
  | cons x xs ih =>
    rw [bytesBits, List.flatMap_cons, List.length_append, bitsOf_length, ← bytesBits, ih, List.length_cons]
    ring

theorem bytesBits_append (a b : List Byte) : bytesBits (a ++ b) = bytesBits a ++ bytesBits b := by
  simp [bytesBits]

/-- The bits of a byte sequence are its stream (R11, R95). -/
theorem bytesBits_getElem? (b : List Byte) (i : Nat) (hi : i < 8 * b.length) :
    (bytesBits b)[i]? = some (streamBit b i) := by
  induction b generalizing i with
  | nil => simp at hi
  | cons x xs ih =>
    rw [List.length_cons] at hi
    rw [bytesBits, List.flatMap_cons, ← bytesBits]
    by_cases h8 : i < 8
    · rw [List.getElem?_append_left (by simpa using h8), bitsOf_getElem? _ _ _ h8, streamBit,
        show i / 8 = 0 by omega, show i % 8 = i by omega]
      rfl
    · rw [List.getElem?_append_right (by simpa using h8), bitsOf_length, ih (i - 8) (by omega), streamBit, streamBit,
        show i / 8 = (i - 8) / 8 + 1 by omega, List.getD_cons_succ, show i % 8 = (i - 8) % 8 by omega]

/-- Packing the bits of bytes gives the bytes, whatever partial byte follows (R95, R112). -/
theorem bitsToBytes_bytesBits (b : List Byte) (z : List Bool) (hz : z.length < 8) :
    bitsToBytes (bytesBits b ++ z) = b := by
  apply List.ext_getElem? fun j => ?_
  by_cases hj : j < b.length
  · have hlen : j < (bytesBits b ++ z).length / 8 := by
      rw [List.length_append, bytesBits_length]
      omega
    rw [bitsToBytes, List.getElem?_map, List.getElem?_range hlen, Option.map_some, List.getElem?_eq_getElem hj]
    congr 1
    have hg : groupValue (fun i => (bytesBits b ++ z).getD i false) (8 * j) 8 = b[j].toNat := by
      rw [← groupValue_bitsOf b[j].toNat 8 b[j].isLt]
      apply groupValue_congr fun k hk => ?_
      rw [List.getD_eq_getElem?_getD, List.getElem?_append_left (by simp; omega),
        bytesBits_getElem? _ _ (by omega), Option.getD_some, Nat.zero_add, List.getD_eq_getElem?_getD,
        bitsOf_getElem? _ _ _ hk, Option.getD_some, streamBit, show (8 * j + k) / 8 = j by omega,
        show (8 * j + k) % 8 = k by omega, List.getD_eq_getElem?_getD, List.getElem?_eq_getElem hj, Option.getD_some]
      rfl
    rw [hg]
    simp
  · rw [List.getElem?_eq_none (by simp; omega), List.getElem?_eq_none (by omega)]

end Sys2Proof.Machine
end

