-- ==== Sys2Proof/Laws/Ops.lean ====
section
/-! SUPPORT. What each shared operation can do, said once: the port's refusals, reads and stores, the emission of the writer's
bytes, the table lookups, and the lengths of what is stored. -/

namespace Sys2Proof.Machine

open Sys2Proof.Config

/-- No refused address is found exactly where every access is allowed (R46). -/
theorem State.firstRefused_none {s : State} {kind : AccessKind} {base n : Nat} :
    s.firstRefused kind base n = none ↔ s.allows kind base n := by
  induction n with
  | zero => simp [State.firstRefused, State.allows]
  | succ n ih =>
    rw [State.firstRefused]
    cases h : s.firstRefused kind base n with
    | some a =>
      have hne : ¬s.allows kind base n := fun hall => by rw [ih.2 hall] at h; cases h
      simp only [reduceCtorEq, false_iff]
      exact fun hall => hne fun k hk => hall k (by omega)
    | none =>
      have hall := ih.1 h
      constructor
      · intro hn k hk
        by_cases hkn : k = n
        · subst hkn
          cases hm : s.memOK kind (base + k) with
          | true => rfl
          | false => simp [hm] at hn
        · exact hall k (by omega)
      · intro hn
        simp [hn n (by omega)]

/-- The refused address found is a refused one of the range. -/
theorem State.firstRefused_some' {s : State} {kind : AccessKind} {base n b : Nat}
    (h : s.firstRefused kind base n = some b) : base ≤ b ∧ b < base + n ∧ s.memOK kind b = false := by
  induction n with
  | zero => cases h
  | succ n ih =>
    rw [State.firstRefused] at h
    cases hf : s.firstRefused kind base n with
    | some c =>
      rw [hf] at h ih
      have := ih h
      exact ⟨this.1, by omega, this.2.2⟩
    | none =>
      rw [hf] at h
      cases hm : s.memOK kind (base + n) with
      | true => simp [hm] at h
      | false =>
        simp only [hm, Bool.false_eq_true, if_false, Option.some.injEq] at h
        exact ⟨by omega, by omega, h ▸ hm⟩

/-- The refused address found is the lowest one (R46, R55). -/
theorem State.firstRefused_some {s : State} {kind : AccessKind} {base n a : Nat} :
    s.firstRefused kind base n = some a ↔ s.RefusedFirst kind base n a := by
  unfold State.RefusedFirst
  induction n with
  | zero =>
    simp only [State.firstRefused, reduceCtorEq, false_iff]
    omega
  | succ n ih =>
    rw [State.firstRefused]
    cases h : s.firstRefused kind base n with
    | some b =>
      rw [h] at ih
      simp only [Option.some.injEq] at ih ⊢
      constructor
      · intro hab
        have := ih.1 hab
        exact ⟨this.1, by omega, this.2.2⟩
      · intro ⟨h1, h2, h3, h4⟩
        by_cases han : a < base + n
        · exact ih.2 ⟨h1, han, h3, h4⟩
        · have hb := (State.firstRefused_some' h)
          have := h4 b hb.1 (by omega)
          rw [hb.2.2] at this
          cases this
    | none =>
      have hall := State.firstRefused_none.1 h
      cases hm : s.memOK kind (base + n) with
      | true =>
        simp only [if_true, reduceCtorEq, false_iff]
        rintro ⟨h1, h2, h3, -⟩
        by_cases han : a = base + n
        · rw [han, hm] at h3
          cases h3
        · have := hall (a - base) (by omega)
          rw [show base + (a - base) = a by omega, h3] at this
          cases this
      | false =>
        simp only [Bool.false_eq_true, if_false, Option.some.injEq]
        constructor
        · rintro rfl
          refine ⟨by omega, by omega, hm, fun k hk hk' => ?_⟩
          have := hall (k - base) (by omega)
          rwa [show base + (k - base) = k by omega] at this
        · rintro ⟨h1, h2, h3, -⟩
          by_contra hne
          have := hall (a - base) (by omega)
          rw [show base + (a - base) = a by omega, h3] at this
          cases this

@[simp] theorem State.portBytes_length (s : State) (base n : Nat) : (s.portBytes base n).length = n := by
  simp [State.portBytes]

@[simp] theorem State.memBytes_length (s : State) (base n : Nat) : (s.memBytes base n).length = n := by
  simp [State.memBytes]

theorem State.portRead_stable {s : State} {base n k : Nat} (h : s.stable base n) (hk : k < n) :
    s.portRead (base + k) = s.mem.read (base + k) := by
  obtain ⟨h1, h2⟩ := h k hk
  simp only [State.portRead, h1, h2, Bool.or_self, Bool.false_eq_true, if_false]

/-- Where reads have one value, the engine reads what memory holds (R46). -/
theorem State.portBytes_stable {s : State} {base n : Nat} (h : s.stable base n) : s.portBytes base n = s.memBytes base n := by
  apply List.map_congr_left fun k hk => ?_
  exact State.portRead_stable h (List.mem_range.1 hk)

/-- A part of a stable range is stable. -/
theorem State.stable_sub {s : State} {base n a m : Nat} (h : s.stable base n) (h1 : base ≤ a) (h2 : a + m ≤ base + n) :
    s.stable a m := by
  intro k hk
  have := h (a - base + k) (by omega)
  rwa [show base + (a - base + k) = a + k by omega] at this

/-- The engine's store keeps memory canonical. -/
theorem State.portStore_wf {s : State} (h : s.mem.wf = true) {base : Nat} {bs : List Byte}
    (hb : base + bs.length ≤ 2 ^ 32) : (s.portStore base bs).mem.wf = true := by
  rw [State.portStore_mem]
  exact Memory.writeBytes_wf h (by simpa [memSize] using hb)

/-- The engine's store leaves memory outside the stored bytes alone. -/
theorem State.portStore_outside {s : State} (h : s.mem.wf = true) {base : Nat} {bs : List Byte}
    (hb : base + bs.length ≤ 2 ^ 32) : SameOutside s.mem (s.portStore base bs).mem base bs.length := by
  intro a ha
  rw [State.portStore_mem]
  exact Memory.read_writeBytes_outside h (by simpa [memSize] using hb) (by simpa using ha)

/-- Where the host has not raced, the engine's store leaves the stored bytes in memory. -/
theorem State.portStore_holds {s : State} (h : s.mem.wf = true) (ht : s.touched = []) {base : Nat} {bs : List Byte}
    (hb : base + bs.length ≤ 2 ^ 32) : HoldsBytes (s.portStore base bs).mem base bs := by
  intro k hk
  rw [State.portStore_mem, State.portWrittenFrom_untouched ht, Memory.read_writeBytes h (by simpa [memSize] using hb),
    if_pos (by omega), show base + k - base = k by omega]

theorem State.scramble_wf {s : State} (h : s.mem.wf = true) {base size : Nat} (hb : base + size ≤ 2 ^ 32) :
    (s.scramble base size).mem.wf = true := by
  rw [State.scramble_mem]
  exact Memory.writeBytes_wf h (by simpa [memSize] using hb)

/-- Scrambling a range leaves memory outside it alone. -/
theorem State.scramble_outside {s : State} (h : s.mem.wf = true) {base size : Nat} (hb : base + size ≤ 2 ^ 32) :
    SameOutside s.mem (s.scramble base size).mem base size := by
  intro a ha
  rw [State.scramble_mem]
  exact Memory.read_writeBytes_outside h (by simpa [memSize] using hb) (by simpa using ha)

theorem addrOK_iff {base : Word} {size : Nat} : addrOK base size = true ↔ base.toNat + size ≤ 2 ^ 32 := by
  rw [addrOK, decide_eq_true_iff, memSize]

theorem addrOK_false {base : Word} {size : Nat} : addrOK base size = false ↔ 2 ^ 32 < base.toNat + size := by
  rw [← Bool.not_eq_true, addrOK_iff, not_le]

theorem overlap_false {a m b n : Nat} : overlap a m b n = false ↔ m = 0 ∨ n = 0 ∨ a + m ≤ b ∨ b + n ≤ a := by
  simp only [overlap, Bool.and_eq_false_iff, decide_eq_false_iff_not]
  omega

theorem State.csAligned_iff {s : State} : s.csAligned = true ↔ s.csBase.toNat % 4 = 0 := by
  simp only [State.csAligned, beq_iff_eq, ← BitVec.toNat_inj]
  simp

theorem State.csAligned_false {s : State} : s.csAligned = false ↔ s.csBase.toNat % 4 ≠ 0 := by
  rw [← Bool.not_eq_true, State.csAligned_iff]

theorem State.missingTables_none {s : State} : s.missingTables = (false, false) ↔ s.tablesReady := by
  unfold State.missingTables State.tablesReady
  cases s.status.priValid <;> cases s.status.tailValid <;> cases s.params.policy <;> simp

/-- The checks of `ENCODE` find nothing exactly where it is ready (R109). -/
theorem State.encodeError_none {s : State} : s.encodeError = none ↔ s.EncodeReady s.brLen.toNat s.encodeLen := by
  constructor
  · intro h
    unfold State.encodeError at h
    split_ifs at h with h1 h2 h3 h4 h5 h6
    exact ⟨State.missingTables_none.1 (not_not.1 h1), State.csAligned_iff.1 (by simpa using h2), by omega,
      addrOK_iff.1 (by simpa using h4), addrOK_iff.1 (by simpa using h5), by
        have := overlap_false.1 (by simpa using h6 : overlap _ _ _ _ = false)
        omega⟩
  · intro h
    unfold State.encodeError
    rw [if_neg (not_not.2 (State.missingTables_none.2 h.tables)),
      if_neg (by simpa using State.csAligned_iff.2 h.aligned), if_neg (by have := h.capacity; omega),
      if_neg (by simpa using addrOK_iff.2 h.input), if_neg (by simpa using addrOK_iff.2 h.output),
      if_neg (by simpa using overlap_false.2 (by have := h.apart; omega))]

/-- The checks 2 to 6 of `DECODE` find nothing exactly where it is ready (R117). -/
theorem State.decodeError_none {s : State} : s.decodeError = none ↔ s.DecodeReady s.csLen.toNat s.decodeLen := by
  constructor
  · intro h
    unfold State.decodeError at h
    split_ifs at h with h1 h2 h3 h4 h5 h6
    exact ⟨State.missingTables_none.1 (not_not.1 h1), State.csAligned_iff.1 (by simpa using h2), by omega,
      addrOK_iff.1 (by simpa using h4), addrOK_iff.1 (by simpa using h5), by
        have := overlap_false.1 (by simpa using h6 : overlap _ _ _ _ = false)
        omega⟩
  · intro h
    unfold State.decodeError
    rw [if_neg (not_not.2 (State.missingTables_none.2 h.tables)),
      if_neg (by simpa using State.csAligned_iff.2 h.aligned), if_neg (by have := h.capacity; omega),
      if_neg (by simpa using addrOK_iff.2 h.input), if_neg (by simpa using addrOK_iff.2 h.output),
      if_neg (by simpa using overlap_false.2 (by have := h.apart; omega))]

/-- The emission of no byte changes nothing (R97). -/
theorem State.emit_nil (s : State) : s.emit [] = .ok s := rfl

/-- What an emission can do (R97). -/
theorem State.emit_cases (s : State) (bs : List Byte) :
    (bs = [] ∧ s.emit bs = .ok s) ∨
    (bs ≠ [] ∧ ∃ e, s.emitError bs.length = some e ∧ s.emit bs = .error (s.raise e)) ∨
    (bs ≠ [] ∧ s.emitError bs.length = none ∧ ∃ a, s.firstRefused .write s.emitAddr bs.length = some a ∧
      s.emit bs = .error (s.raiseBus a s.emitAddr bs.length)) ∨
    (bs ≠ [] ∧ s.emitError bs.length = none ∧ s.firstRefused .write s.emitAddr bs.length = none ∧
      s.emit bs = .ok { s.portStore s.emitAddr bs with bwCnt := BitVec.ofNat 29 (s.bwCnt.toNat + bs.length) }) := by
  cases bs with
  | nil => exact .inl ⟨rfl, rfl⟩
  | cons b bs =>
    refine .inr ?_
    simp only [State.emit, List.isEmpty_cons, Bool.false_eq_true, if_false]
    cases h : s.emitError (b :: bs).length with
    | some e => exact .inl ⟨List.cons_ne_nil _ _, e, rfl, rfl⟩
    | none =>
      refine .inr ?_
      cases hr : s.firstRefused .write s.emitAddr (b :: bs).length with
      | some a => exact .inl ⟨List.cons_ne_nil _ _, rfl, a, rfl, rfl⟩
      | none => exact .inr ⟨List.cons_ne_nil _ _, rfl, rfl, rfl⟩

/-- The checks of an emission find nothing exactly where the bytes fit (R97). -/
theorem State.emitError_none {s : State} {e : Nat} :
    s.emitError e = none ↔ s.bwCnt.toNat + e ≤ s.bwCap.toNat ∧ s.emitAddr + e ≤ 2 ^ 32 := by
  unfold State.emitError State.emitAddr
  split_ifs with h1 h2
  · simp; omega
  · rw [addrOK_false] at h2
    simp; omega
  · rw [Bool.not_eq_false, addrOK_iff] at h2
    simp; omega

@[simp] theorem chrBytes_length (c : Chr) : (chrBytes c).length = 4 := rfl

@[simp] theorem stringBytes_length (str : List Chr) : (stringBytes str).length = 4 * str.length := by
  induction str with
  | nil => rfl
  | cons c cs ih =>
    rw [stringBytes, List.flatMap_cons, List.length_append, ← stringBytes, ih, chrBytes_length, List.length_cons]
    ring

/-- Byte `j` of character `k` of a string's bytes (R46, R50). -/
theorem stringBytes_getD (str : List Chr) (k j : Nat) (hk : k < str.length) (hj : j < 4) :
    (stringBytes str).getD (4 * k + j) 0 = str[k].extractLsb' (8 * j) 8 := by
  induction str generalizing k with
  | nil => simp at hk
  | cons c cs ih =>
    rw [stringBytes, List.flatMap_cons, ← stringBytes]
    cases k with
    | zero =>
      rw [List.getD_eq_getElem?_getD, List.getElem?_append_left (by simp; omega)]
      interval_cases j <;> rfl
    | succ k =>
      rw [List.getD_eq_getElem?_getD, List.getElem?_append_right (by simp; omega), chrBytes_length,
        show 4 * (k + 1) + j - 4 = 4 * k + j by omega, ← List.getD_eq_getElem?_getD,
        ih k (by simpa using hk)]
      rfl

/-- The value of a character word is that of its four bytes, the lowest address's least significant (R46). -/
theorem chrOfBytes_toNat (b0 b1 b2 b3 : Byte) :
    (chrOfBytes b0 b1 b2 b3).toNat = b0.toNat + 2 ^ 8 * b1.toNat + 2 ^ 16 * b2.toNat + 2 ^ 24 * b3.toNat := by
  have := b0.isLt
  have := b1.isLt
  have := b2.isLt
  have := b3.isLt
  simp only [chrOfBytes, BitVec.toNat_append]
  rw [← Nat.shiftLeft_add_eq_or_of_lt (by omega), ← Nat.shiftLeft_add_eq_or_of_lt (by omega),
    ← Nat.shiftLeft_add_eq_or_of_lt (by omega)]
  simp only [Nat.shiftLeft_eq]
  omega

/-- The index of a token is that of the first entry that holds it (R80). -/
theorem entryIndex_some {α : Type} [DecidableEq α] {t : α} {l : List (Option α)} {i : Nat} :
    entryIndex t l = some i ↔ l[i]? = some (some t) ∧ ∀ j, j < i → l[j]? ≠ some (some t) := by
  induction l generalizing i with
  | nil => simp [entryIndex]
  | cons e es ih =>
    rw [entryIndex]
    by_cases he : e = some t
    · rw [if_pos he]
      cases i with
      | zero => simp [he]
      | succ i =>
        simp only [Option.some.injEq, Nat.zero_ne_add_one, false_iff, not_and, not_forall, not_not]
        exact fun _ => ⟨0, by omega, by simp [he]⟩
    · rw [if_neg he]
      cases i with
      | zero => simp [he]
      | succ i =>
        rw [List.getElem?_cons_succ]
        simp only [Option.map_eq_some_iff, Nat.add_right_cancel_iff, exists_eq_right, ih]
        constructor
        · rintro ⟨h1, h2⟩
          refine ⟨h1, fun j hj => ?_⟩
          cases j with
          | zero => simpa using he
          | succ j => simpa using h2 j (by omega)
        · rintro ⟨h1, h2⟩
          exact ⟨h1, fun j hj => by simpa using h2 (j + 1) (by omega)⟩

/-- A token has no index exactly where no entry holds it (R80). -/
theorem entryIndex_none {α : Type} [DecidableEq α] {t : α} {l : List (Option α)} :
    entryIndex t l = none ↔ ∀ j : Nat, l[j]? ≠ some (some t) := by
  induction l with
  | nil => simp [entryIndex]
  | cons e es ih =>
    rw [entryIndex]
    by_cases he : e = some t
    · rw [if_pos he]
      simp only [reduceCtorEq, false_iff, not_forall, not_not]
      exact ⟨0, by simp [he]⟩
    · rw [if_neg he, Option.map_eq_none_iff, ih]
      constructor
      · intro h j
        cases j with
        | zero => simpa using he
        | succ j => simpa using h j
      · intro h j
        simpa using h (j + 1)

theorem priToken_some {pri : Vector (Option PriToken) 2048} {i : Nat} {t : PriToken} :
    priToken pri i = some t ↔ pri.toList[i]? = some (some t) := by
  rw [priToken, Option.join_eq_some_iff, ← Vector.getElem?_toList]

theorem tailToken_some {tail : Vector (Option Chr) 64} {j : Nat} {c : Chr} :
    tailToken tail j = some c ↔ tail.toList[j]? = some (some c) := by
  rw [tailToken, Option.join_eq_some_iff, ← Vector.getElem?_toList]

/-- `PriInv` finds the first index whose token it is (R80). -/
theorem priInv_some {pri : Vector (Option PriToken) 2048} {t : PriToken} {i : Nat} :
    priInv pri t = some i ↔ priToken pri i = some t ∧ ∀ j, j < i → priToken pri j ≠ some t := by
  simp only [priInv, entryIndex_some, priToken_some, ne_eq]

theorem priInv_none {pri : Vector (Option PriToken) 2048} {t : PriToken} :
    priInv pri t = none ↔ ∀ j, priToken pri j ≠ some t := by
  simp only [priInv, entryIndex_none, priToken_some, ne_eq]

/-- `TailInv` finds the first index whose character it is (R80). -/
theorem tailInv_some {tail : Vector (Option Chr) 64} {c : Chr} {j : Nat} :
    tailInv tail c = some j ↔ tailToken tail j = some c ∧ ∀ i, i < j → tailToken tail i ≠ some c := by
  simp only [tailInv, entryIndex_some, tailToken_some, ne_eq]

theorem tailInv_none {tail : Vector (Option Chr) 64} {c : Chr} :
    tailInv tail c = none ↔ ∀ j, tailToken tail j ≠ some c := by
  simp only [tailInv, entryIndex_none, tailToken_some, ne_eq]

theorem priToken_lt {pri : Vector (Option PriToken) 2048} {i : Nat} {t : PriToken} (h : priToken pri i = some t) :
    i < 2048 := by
  rw [priToken_some] at h
  have := (List.getElem?_eq_some_iff.1 h).1
  simpa using this

theorem tailToken_lt {tail : Vector (Option Chr) 64} {j : Nat} {c : Chr} (h : tailToken tail j = some c) : j < 64 := by
  rw [tailToken_some] at h
  have := (List.getElem?_eq_some_iff.1 h).1
  simpa using this

end Sys2Proof.Machine
end

