-- ==== Sys2Proof/Laws/Tables.lean ====
section
/-! SUPPORT. The laws of the Alphabet Tables: what the check of a commit finds, and what the lookups of a complete table
give. -/

namespace Sys2Proof.Machine

open Sys2Proof.Config

/-- No unwritten entry is found exactly where every entry is written (R86). -/
theorem firstUnwritten_none {α : Type} {l : List (Option α)} :
    firstUnwritten l = none ↔ ∀ i (h : i < l.length), l[i].isSome := by
  induction l with
  | nil => simp [firstUnwritten]
  | cons e es ih =>
    cases e with
    | none =>
      simp only [firstUnwritten, reduceCtorEq, false_iff]
      intro h
      have := h 0 (by simp)
      simp at this
    | some a =>
      simp only [firstUnwritten, Option.map_eq_none_iff, ih]
      constructor
      · intro h i hi
        cases i with
        | zero => rfl
        | succ i => exact h i (by simpa using hi)
      · intro h i hi
        exact h (i + 1) (by simpa using hi)

/-- The unwritten entry found is the first one (R86). -/
theorem firstUnwritten_some {α : Type} {l : List (Option α)} {i : Nat} (h : l[i]? = some none)
    (h' : ∀ j, j < i → ∃ a, l[j]? = some (some a)) : firstUnwritten l = some i := by
  induction l generalizing i with
  | nil => simp at h
  | cons e es ih =>
    cases i with
    | zero =>
      simp only [List.getElem?_cons_zero, Option.some.injEq] at h
      subst h
      rfl
    | succ i =>
      obtain ⟨a, ha⟩ := h' 0 (by omega)
      simp only [List.getElem?_cons_zero, Option.some.injEq] at ha
      subst ha
      simp only [firstUnwritten]
      rw [ih (i := i) (by simpa using h) fun j hj => by simpa using h' (j + 1) (by omega)]
      rfl

/-- No duplicate is found exactly where the entries are distinct, and new (R86). -/
theorem firstDuplicate_none {α : Type} [DecidableEq α] {l seen : List (Option α)} :
    firstDuplicate seen l = none ↔ l.Nodup ∧ ∀ e ∈ l, e ∉ seen := by
  induction l generalizing seen with
  | nil => simp [firstDuplicate]
  | cons e es ih =>
    rw [firstDuplicate]
    by_cases h : seen.contains e
    · rw [if_pos h]
      simp only [List.contains_eq_mem, decide_eq_true_eq] at h
      simp [h]
    · rw [if_neg h, ih]
      simp only [List.contains_eq_mem, decide_eq_true_eq] at h
      simp only [List.mem_cons, not_or, List.nodup_cons, forall_eq_or_imp]
      exact ⟨fun ⟨h1, h2⟩ => ⟨⟨fun he => (h2 e he).1 rfl, h1⟩, h, fun a ha => (h2 a ha).2⟩,
        fun ⟨⟨h1, h2⟩, _, h3⟩ => ⟨h2, fun a ha => ⟨fun he => h1 (he ▸ ha), h3 a ha⟩⟩⟩

/-- The duplicate found is the first index whose entry an earlier one has (R86). -/
theorem firstDuplicate_some {α : Type} [DecidableEq α] (l : List (Option α)) :
    ∀ (seen : List (Option α)) (i : Nat) (hi : i < l.length), (l[i] ∈ seen ∨ ∃ j, ∃ _ : j < i, l[j] = l[i]) →
      (∀ k, ∀ _ : k < i, l[k] ∉ seen ∧ ∀ j, ∀ _ : j < k, l[j] ≠ l[k]) →
      firstDuplicate seen l = some (seen.length + i) := by
  induction l with
  | nil =>
    intro _ i hi
    simp at hi
  | cons e es ih =>
    intro seen i hi h1 h2
    rw [firstDuplicate]
    cases i with
    | zero =>
      rcases h1 with h1 | ⟨j, h, -⟩
      · simp only [List.getElem_cons_zero] at h1
        simp [h1]
      · omega
    | succ i =>
      have h0 := (h2 0 (by omega)).1
      simp only [List.getElem_cons_zero] at h0
      rw [if_neg (by simpa using h0), ih (e :: seen) i (by simpa using hi) ?_ ?_]
      · simp only [List.length_cons, Option.some.injEq]
        omega
      · rcases h1 with h1 | ⟨j, h, hj⟩
        · simp only [List.getElem_cons_succ] at h1
          exact .inl (by simp [h1])
        · cases j with
          | zero =>
            simp only [List.getElem_cons_zero, List.getElem_cons_succ] at hj
            exact .inl (by simp [hj])
          | succ j => exact .inr ⟨j, by omega, by simpa using hj⟩
      · intro k hk
        have := h2 (k + 1) (by omega)
        refine ⟨?_, fun j hj => by simpa using this.2 (j + 1) (by omega)⟩
        simp only [List.mem_cons, not_or]
        exact ⟨fun he => this.2 0 (by omega) (by simpa using he.symm), by simpa using this.1⟩

/-- The check of a table finds nothing exactly where every entry is written and no two are equal (R86). -/
theorem checkTable_none {α : Type} [DecidableEq α] {b : Bool} {l : List (Option α)} :
    checkTable b l = none ↔ (∀ i (h : i < l.length), l[i].isSome) ∧ l.Nodup := by
  unfold checkTable
  rw [← firstUnwritten_none]
  cases h : firstUnwritten l with
  | some i => simp
  | none =>
    cases h2 : firstDuplicate [] l with
    | some j =>
      simp only [reduceCtorEq, true_and, false_iff]
      intro hn
      rw [firstDuplicate_none.2 ⟨hn, by simp⟩] at h2
      cases h2
    | none => simpa using (firstDuplicate_none.1 h2).1

/-- Every failure of the check is a `MalformedTable` (R86). -/
theorem checkTable_malformed {α : Type} [DecidableEq α] {b : Bool} {l : List (Option α)} {e : Err}
    (h : checkTable b l = some e) : ∃ i d, e = .malformedTable i d b := by
  unfold checkTable at h
  split at h
  · cases h
    exact ⟨_, _, rfl⟩
  · split at h
    · cases h
      exact ⟨_, _, rfl⟩
    · cases h

theorem priToken_getElem (pri : Vector (Option PriToken) 2048) {i : Nat} (h : i < 2048) :
    priToken pri i = pri.toList[i]'(by simpa using h) := by
  rw [priToken, Vector.getElem?_eq_getElem h]
  rfl

theorem tailToken_getElem (tail : Vector (Option Chr) 64) {j : Nat} (h : j < 64) :
    tailToken tail j = tail.toList[j]'(by simpa using h) := by
  rw [tailToken, Vector.getElem?_eq_getElem h]
  rfl

/-- The check of the primary table finds nothing exactly where it is complete (R41, R86). -/
theorem checkTable_pri (b : Bool) (pri : Vector (Option PriToken) 2048) :
    checkTable b pri.toList = none ↔ PriComplete pri := by
  rw [checkTable_none]
  constructor
  · rintro ⟨h1, h2⟩
    refine ⟨fun i hi => ?_, fun i j hi hj he => ?_⟩
    · rw [priToken_getElem _ hi]
      exact h1 i (by simpa using hi)
    · rw [priToken_getElem _ hi, priToken_getElem _ hj] at he
      exact (List.Nodup.getElem_inj_iff h2).1 he
  · rintro ⟨h1, h2⟩
    refine ⟨fun i hi => ?_, ?_⟩
    · rw [← priToken_getElem _ (by simpa using hi)]
      exact h1 i (by simpa using hi)
    · rw [List.nodup_iff_injective_get]
      intro ⟨i, hi⟩ ⟨j, hj⟩ he
      have hi' : i < 2048 := by simpa using hi
      have hj' : j < 2048 := by simpa using hj
      have := h2 i j hi' hj' (by
        rw [priToken_getElem _ hi', priToken_getElem _ hj']
        exact he)
      simpa using this

/-- The check of the tail table finds nothing exactly where it is complete (R41, R86). -/
theorem checkTable_tail (b : Bool) (tail : Vector (Option Chr) 64) :
    checkTable b tail.toList = none ↔ TailComplete tail := by
  rw [checkTable_none]
  constructor
  · rintro ⟨h1, h2⟩
    refine ⟨fun i hi => ?_, fun i j hi hj he => ?_⟩
    · rw [tailToken_getElem _ hi]
      exact h1 i (by simpa using hi)
    · rw [tailToken_getElem _ hi, tailToken_getElem _ hj] at he
      exact (List.Nodup.getElem_inj_iff h2).1 he
  · rintro ⟨h1, h2⟩
    refine ⟨fun i hi => ?_, ?_⟩
    · rw [← tailToken_getElem _ (by simpa using hi)]
      exact h1 i (by simpa using hi)
    · rw [List.nodup_iff_injective_get]
      intro ⟨i, hi⟩ ⟨j, hj⟩ he
      have hi' : i < 64 := by simpa using hi
      have hj' : j < 64 := by simpa using hj
      have := h2 i j hi' hj' (by
        rw [tailToken_getElem _ hi', tailToken_getElem _ hj']
        exact he)
      simpa using this

/-- The checks of `TBL_COMMIT` find nothing exactly where each selected table is committed or complete (R86). -/
theorem State.commitError_none {s : State} {sel : BitVec 2} :
    s.commitError sel = none ↔
      (selPri sel = true → s.status.priValid = true ∨ PriComplete s.pri) ∧
      (selTail sel = true → s.status.tailValid = true ∨ TailComplete s.tail) := by
  have h1 := checkTable_pri false s.pri
  have h2 := checkTable_tail true s.tail
  unfold State.commitError
  cases selPri sel <;> cases s.status.priValid <;> cases selTail sel <;> cases s.status.tailValid <;>
    simp <;> (try rw [← h1]) <;> (try rw [← h2]) <;> (try cases checkTable false s.pri.toList) <;> simp

/-- In a complete table, the index found of a token is the one that holds it (R80). -/
theorem PriComplete.priInv_eq {pri : Vector (Option PriToken) 2048} (hp : PriComplete pri) {i : Nat} {t : PriToken}
    (h : priToken pri i = some t) : priInv pri t = some i := by
  rw [priInv_some]
  refine ⟨h, fun j hj hc => ?_⟩
  have := hp.distinct j i (priToken_lt hc) (priToken_lt h) (hc.trans h.symm)
  omega

/-- In a complete table, the index found of a character is the one that holds it (R80). -/
theorem TailComplete.tailInv_eq {tail : Vector (Option Chr) 64} (ht : TailComplete tail) {j : Nat} {c : Chr}
    (h : tailToken tail j = some c) : tailInv tail c = some j := by
  rw [tailInv_some]
  refine ⟨h, fun i hi hc => ?_⟩
  have := ht.distinct i j (tailToken_lt hc) (tailToken_lt h) (hc.trans h.symm)
  omega

end Sys2Proof.Machine
end

