-- ==== Sys2Proof/Laws/Codec.lean ====
section
/-! SUPPORT. The laws of the pure codec and of the writer's packing: the full groups of a stream, their symbols' tokens and
how they decode, and the bits of a value cut into bytes. -/

namespace Sys2Proof.Machine

open Sys2Proof.Config

/-- `11g + t = 8L` (R103). -/
theorem fullGroups_tailBits (len : Nat) : 11 * fullGroups len + tailBits len = 8 * len := by
  unfold fullGroups tailBits
  omega

/-- `t <= 10` (R103). -/
theorem tailBits_lt (len : Nat) : tailBits len < 11 := Nat.mod_lt _ (by norm_num)

/-- A value left-justified in `w` bits fits them (R104). -/
theorem shifted_lt {v t w : Nat} (hv : v < 2 ^ t) (hw : t ≤ w) : v * 2 ^ (w - t) < 2 ^ w := by
  calc v * 2 ^ (w - t) < 2 ^ t * 2 ^ (w - t) := Nat.mul_lt_mul_of_pos_right hv (by positivity)
    _ = 2 ^ w := by
      rw [← Nat.pow_add]
      congr 1
      omega

theorem bitsOf_zero (n : Nat) : bitsOf 0 n = List.replicate n false := by
  induction n with
  | zero => rfl
  | succ n ih => simp [bitsOf, ih, List.replicate_succ]

/-- A value left-justified in `w` bits is its own bits, then zeros (R104). -/
theorem bitsOf_shifted (v : Nat) {t w : Nat} (hw : t ≤ w) :
    bitsOf (v * 2 ^ (w - t)) w = bitsOf v t ++ List.replicate (w - t) false := by
  have := bitsOf_append v 0 t (w - t) (by positivity)
  rwa [Nat.add_zero, show t + (w - t) = w by omega, bitsOf_zero] at this

/-- A byte sequence's bits, as its stream (R11). -/
theorem bytesBits_eq (b : List Byte) : bytesBits b = (List.range (8 * b.length)).map (streamBit b) := by
  apply List.ext_getElem? fun k => ?_
  by_cases hk : k < 8 * b.length
  · rw [bytesBits_getElem? _ _ hk]
    simp [hk]
  · rw [List.getElem?_eq_none (by simp; omega), List.getElem?_eq_none (by simp; omega)]

/-- The 11-bit groups of a stream, written out, are its first bits (R104, R112). -/
theorem groups_bits (b : List Byte) (g : Nat) :
    ((List.range g).map fun k => readBits b (11 * k) 11).flatMap (bitsOf · 11) =
      (List.range (11 * g)).map (streamBit b) := by
  induction g with
  | zero => rfl
  | succ g ih =>
    rw [List.range_succ, List.map_append, List.flatMap_append, ih, Nat.mul_succ, List.range_add, List.map_append]
    congr 1
    simp [readBits, bitsOf_groupValue]

/-- The groups of 11 bits and the left-justified rest, written out, are the stream and zeros (R104, R114). -/
theorem groups_rest_bits (b : List Byte) {g t w : Nat} (hg : 11 * g + t = 8 * b.length) (hw : t ≤ w) :
    ((List.range g).map fun k => readBits b (11 * k) 11).flatMap (bitsOf · 11) ++
        bitsOf (readBits b (11 * g) t * 2 ^ (w - t)) w =
      bytesBits b ++ List.replicate (w - t) false := by
  rw [bitsOf_shifted _ hw, ← List.append_assoc, groups_bits, readBits, bitsOf_groupValue, bytesBits_eq, ← hg,
    List.range_add, List.map_append]
  simp [Function.comp_def]

/-- The tokens of primary symbols, over a complete table: two characters each, and what they decode to (R105, R111,
R112). -/
theorem primary_tokens {pri : Vector (Option PriToken) 2048} {tail : Vector (Option Chr) 64} (hp : PriComplete pri)
    (us : List Nat) (hu : ∀ u ∈ us, u < 2048) :
    ∃ cs, cs.length = 2 * us.length ∧
      (∀ rest, symsChars pri tail (us.map .p11 ++ rest) = (symsChars pri tail rest).map (cs ++ ·)) ∧
      ∀ policy pos str, decodeBits policy pri tail pos (cs ++ str) =
        match decodeBits policy pri tail (pos + 2 * us.length) str with
        | .error p => .error p
        | .ok w => .ok (us.flatMap (bitsOf · 11) ++ w) := by
  induction us with
  | nil =>
    refine ⟨[], rfl, fun rest => ?_, fun policy pos str => ?_⟩
    · show symsChars pri tail rest = _
      cases symsChars pri tail rest <;> rfl
    · simp only [List.nil_append, List.length_nil, Nat.mul_zero, Nat.add_zero, List.flatMap_nil]
      cases decodeBits policy pri tail pos str <;> rfl
  | cons u us ih =>
    obtain ⟨cs, h1, h2, h3⟩ := ih fun v hv => hu v (by simp [hv])
    obtain ⟨⟨c0, c1⟩, ht⟩ := Option.isSome_iff_exists.1 (hp.written u (hu u (by simp)))
    refine ⟨c0 :: c1 :: cs, ?_, fun rest => ?_, fun policy pos str => ?_⟩
    · simp only [List.length_cons, h1]
      ring
    · rw [List.map_cons, List.cons_append, symsChars, h2]
      simp only [symToken, ht, Option.map_some]
      cases symsChars pri tail rest <;> rfl
    · rw [List.cons_append, List.cons_append, decodeBits.eq_def]
      simp only [hp.priInv_eq ht, h3]
      rw [show pos + 2 + 2 * us.length = pos + 2 * (u :: us).length by
        simp only [List.length_cons]
        ring]
      cases decodeBits policy pri tail (pos + 2 * (u :: us).length) str with
      | error => rfl
      | ok w => simp

/-- The encoder's symbols: the full groups as primary symbols, then the tail (R104). -/
theorem encodeSyms_eq (policy : TailPolicy) (b : List Byte) :
    encodeSyms policy b =
      ((List.range (fullGroups b.length)).map fun k => readBits b (11 * k) 11).map .p11 ++
        tailSyms policy (tailBits b.length) (readBits b (11 * fullGroups b.length) (tailBits b.length)) := by
  simp [encodeSyms]

/-- The bits of a value, cut into whole bytes from the front and a rest (R95, R100). -/
theorem bitsOf_bytes (v r m : Nat) :
    bitsOf v (8 * m + r) =
      (List.range m).flatMap (fun k => bitsOf (v / 2 ^ (8 * m + r - 8 * (k + 1)) % 256) 8) ++ bitsOf (v % 2 ^ r) r := by
  induction m generalizing r with
  | zero => simp [bitsOf_mod]
  | succ m ih =>
    have := ih (r + 8)
    rw [show 8 * m + (r + 8) = 8 * (m + 1) + r by ring] at this
    rw [this, List.range_succ, List.flatMap_append, List.append_assoc]
    congr 1
    simp only [List.flatMap_cons, List.flatMap_nil, List.append_nil]
    rw [show 8 * (m + 1) + r - 8 * (m + 1) = r by omega, Nat.add_comm r 8,
      ← bitsOf_append _ _ _ _ (Nat.mod_lt _ (by positivity))]
    congr 1
    rw [Nat.add_comm 8 r, Nat.pow_add, Nat.mod_mul]
    ring

/-- How many bytes a `BW_WRITE` completes (R100). -/
theorem State.completedBytes_length (s : State) (n : Nat) : (s.completedBytes n).length = (s.accn.toNat + n) / 8 := by
  simp [State.completedBytes, State.pendingWidth]

/-- Consecutive bytes of memory, cut in two. -/
theorem State.memBytes_add (s : State) (base n m : Nat) :
    s.memBytes base (n + m) = s.memBytes base n ++ s.memBytes (base + n) m := by
  unfold State.memBytes
  rw [List.range_add, List.map_append, List.map_map]
  congr 1
  apply List.map_congr_left fun k _ => ?_
  simp [Nat.add_assoc]

end Sys2Proof.Machine
end

