-- ==== Sys2Proof/Laws/Commands.lean ====
section
/-! SUPPORT. What a command can do, said once: `Completes` gives the state of each command's effect with its guards, and
`exec_cases` says that a next state is that effect completed, an error, or a `BusError` over the command's output range. -/

namespace Sys2Proof.Machine

open Sys2Proof.Config

/-- `ENCODE` meets no refused access exactly where the port allows all of them (R46, R110). -/
theorem State.encodeRefused_none {s : State} :
    s.encodeRefused = none ↔
      s.allows .read s.brBase.toNat s.brLen.toNat ∧ s.allows .write s.csBase.toNat (4 * s.encodeLen) := by
  rw [← State.firstRefused_none, ← State.firstRefused_none, State.encodeRefused]
  split
  · simp_all
  · simp_all
  · simp_all
  · split_ifs <;> simp_all

/-- The refused access that `ENCODE` reports is the first refused read or the first refused write (R55, R110). -/
theorem State.encodeRefused_some {s : State} {a : Nat} (h : s.encodeRefused = some a) :
    s.RefusedFirst .read s.brBase.toNat s.brLen.toNat a ∨
      s.RefusedFirst .write s.csBase.toNat (4 * s.encodeLen) a := by
  rw [← State.firstRefused_some, ← State.firstRefused_some]
  rw [State.encodeRefused] at h
  split at h
  · cases h
  · exact .inl (by simp_all)
  · exact .inr (by simp_all)
  · split_ifs at h <;> simp_all

/-- Where `ENCODE` meets a refused read and a refused write, the read comes first if the refused character depends on its
byte or on a later one (R110). -/
theorem State.encodeRefused_read {s : State} {r w : Nat} (hr : s.RefusedFirst .read s.brBase.toNat s.brLen.toNat r)
    (hw : s.RefusedFirst .write s.csBase.toNat (4 * s.encodeLen) w)
    (h : r - s.brBase.toNat ≤ lastByteOf s.brLen.toNat ((w - s.csBase.toNat) / 4)) : s.encodeRefused = some r := by
  simp only [State.encodeRefused, State.firstRefused_some.2 hr, State.firstRefused_some.2 hw, if_pos h]

/-- An emission that succeeds (R97). -/
theorem State.emit_ok {s t : State} {bs : List Byte} (h : s.emit bs = .ok t) :
    (bs = [] ∧ t = s) ∨
    (bs ≠ [] ∧ s.emitError bs.length = none ∧ s.firstRefused .write s.emitAddr bs.length = none ∧
      t = { s.portStore s.emitAddr bs with bwCnt := BitVec.ofNat 29 (s.bwCnt.toNat + bs.length) }) := by
  rcases State.emit_cases s bs with ⟨h1, h2⟩ | ⟨h1, e, h2, h3⟩ | ⟨h1, h2, a, h3, h4⟩ | ⟨h1, h2, h3, h4⟩
  · rw [h2] at h
    cases h
    exact .inl ⟨h1, rfl⟩
  · rw [h3] at h
    cases h
  · rw [h4] at h
    cases h
  · rw [h4] at h
    cases h
    exact .inr ⟨h1, h2, h3, rfl⟩

/-- An emission that fails (R97). -/
theorem State.emit_error {s t : State} {bs : List Byte} (h : s.emit bs = .error t) :
    bs ≠ [] ∧ ((∃ e, s.emitError bs.length = some e ∧ t = s.raise e) ∨
      (s.emitError bs.length = none ∧ ∃ a, s.firstRefused .write s.emitAddr bs.length = some a ∧
        t = s.raiseBus a s.emitAddr bs.length)) := by
  rcases State.emit_cases s bs with ⟨h1, h2⟩ | ⟨h1, e, h2, h3⟩ | ⟨h1, h2, a, h3, h4⟩ | ⟨h1, h2, h3, h4⟩
  · rw [h2] at h
    cases h
  · rw [h3] at h
    cases h
    exact ⟨h1, .inl ⟨e, h2, rfl⟩⟩
  · rw [h4] at h
    cases h
    exact ⟨h1, .inr ⟨h2, a, h3, rfl⟩⟩
  · rw [h4] at h
    cases h

/-- `Completes s i u`: the checks of `i` pass at `s`, and its effect, before completion, leaves `u`. -/
inductive Completes (s : State) : Instr → State → Prop where
  | nop : Completes s .nop s
  | brInit : Completes s .brInit s.newReader
  | brRead (n : BitVec 5) (hn : legalCount n = true) (ha : addrOK s.brBase s.brLen.toNat = true)
      (hr : n.toNat ≤ s.brRemaining)
      (hp : s.firstRefused .read (s.brBase.toNat + s.readFirst) (s.readSpan n.toNat) = none) :
      Completes s (.brRead n) { s with
        res := BitVec.ofNat 32 (s.nextBits n.toNat), brPos := BitVec.ofNat 32 (s.brPos.toNat + n.toNat) }
  | bwInit : Completes s .bwInit s.newWriter
  | bwWrite (n : BitVec 5) (hn : legalCount n = true) (hc : s.status.bwClosed = false) (u : State)
      (hu : s.emit (s.completedBytes n.toNat) = .ok u) :
      Completes s (.bwWrite n) { u with
        accn := BitVec.ofNat 3 (s.pendingWidth n.toNat % 8)
        accv := BitVec.ofNat 7 (s.pendingBits n.toNat % 2 ^ (s.pendingWidth n.toNat % 8)) }
  | bwFinal (p : FinalMode) (hc : s.status.bwClosed = false) (u : State) (hu : s.emit (s.flushedBytes p) = .ok u) :
      Completes s (.bwFinal p) { u with accv := 0, accn := 0, status := { u.status with bwClosed := true } }
  | tblClear (sel : BitVec 2) (hs : legalSel sel = true) :
      Completes s (.tblClear sel)
        (if selTail sel then (if selPri sel then s.clearPri else s).clearTail else if selPri sel then s.clearPri else s)
  | tblCommit (sel : BitVec 2) (hs : legalSel sel = true) (hc : s.commitError sel = none) :
      Completes s (.tblCommit sel) { s with status := { s.status with
        priValid := s.status.priValid || selPri sel
        tailValid := s.status.tailValid || selTail sel } }
  | tblWrPri (idx : BitVec 11) (hv : s.status.priValid = false) :
      Completes s (.tblWrPri idx) { s with pri := s.pri.set idx.toNat (some (s.tok0, s.tok1)) idx.isLt }
  | tblWrTail (idx : BitVec 6) (hv : s.status.tailValid = false) :
      Completes s (.tblWrTail idx) { s with tail := s.tail.set idx.toNat (some s.tok0) idx.isLt }
  | tblEncPri (c0 c1 : Chr) (hv : s.status.priValid = true) (ht : priToken s.pri s.val.toNat = some (c0, c1)) :
      Completes s .tblEncPri { s with tok0 := c0, tok1 := c1 }
  | tblEncTail (c : Chr) (hv : s.status.tailValid = true) (ht : tailToken s.tail s.val.toNat = some c) :
      Completes s .tblEncTail { s with tok0 := c }
  | tblDecPri (i : Nat) (hv : s.status.priValid = true) (hi : priInv s.pri (s.tok0, s.tok1) = some i) :
      Completes s .tblDecPri { s with res := BitVec.ofNat 32 i }
  | tblDecTail (j : Nat) (hv : s.status.tailValid = true) (hj : tailInv s.tail s.tok0 = some j) :
      Completes s .tblDecTail { s with res := BitVec.ofNat 32 j }
  | encode (str : List Chr) (hr : s.EncodeReady s.brLen.toNat s.encodeLen)
      (hs : encodeChars s.params.policy s.pri s.tail s.encodeInput = some str) :
      Completes s .encode { s.portStore s.csBase.toNat (stringBytes str) with
        brPos := BitVec.ofNat 32 (8 * s.brLen.toNat), csCnt := BitVec.ofNat 30 str.length }
  | decode (out : List Byte) (hr : s.DecodeReady s.csLen.toNat s.decodeLen)
      (hs : decodeChars s.params.policy s.pri s.tail s.decodeInput = .ok out) :
      Completes s .decode { s.portStore s.bwBase.toNat out with
        bwCnt := BitVec.ofNat 29 out.length, accv := 0, accn := 0, status := { s.status with bwClosed := true } }

/-- The registers an effect can change; all the rest stays as at acceptance (R73). -/
theorem Completes.frame {s u : State} {i : Instr} (h : Completes s i u) :
    u = { s with
      res := u.res, tok0 := u.tok0, tok1 := u.tok1, brPos := u.brPos, bwCnt := u.bwCnt, accv := u.accv, accn := u.accn,
      csCnt := u.csCnt, pri := u.pri, tail := u.tail, mem := u.mem,
      status := { s.status with
        priValid := u.status.priValid, tailValid := u.status.tailValid, bwClosed := u.status.bwClosed } } := by
  cases h with
  | bwWrite n hn hc u hu =>
    rcases State.emit_ok hu with ⟨-, rfl⟩ | ⟨-, -, -, rfl⟩ <;> rfl
  | bwFinal p hc u hu =>
    rcases State.emit_ok hu with ⟨-, rfl⟩ | ⟨-, -, -, rfl⟩ <;> rfl
  | tblClear sel hs => cases selTail sel <;> cases selPri sel <;> rfl
  | _ => rfl

/-- What a command can do: complete its effect, raise an error, or raise `BusError` over its output range (R74, R121,
R122). -/
theorem exec_cases {i : Instr} {s t : State} (h : exec i s = .next t) :
    (∃ u, Completes s i u ∧ t = u.complete) ∨ (∃ e, t = s.raise e) ∨
      (∃ a, t = s.raiseBus a (s.outputRange i).base (s.outputRange i).size) := by
  cases i with
  | nop =>
    cases h
    exact .inl ⟨_, .nop, rfl⟩
  | brInit =>
    cases h
    exact .inl ⟨_, .brInit, rfl⟩
  | bwInit =>
    cases h
    exact .inl ⟨_, .bwInit, rfl⟩
  | brRead n =>
    simp only [exec, execBrRead] at h
    split_ifs at h with h1 h2 h3
    · cases h
      exact .inr (.inl ⟨_, rfl⟩)
    · cases h
      exact .inr (.inl ⟨_, rfl⟩)
    · cases h
      exact .inr (.inl ⟨_, rfl⟩)
    · split at h
      · cases h
        exact .inr (.inl ⟨_, rfl⟩)
      · rename_i hp
        cases h
        exact .inl ⟨_, .brRead n (by simpa using h1) (by simpa using h2) (by omega) hp, rfl⟩
  | bwWrite n =>
    simp only [exec, execBwWrite] at h
    split_ifs at h with h1 h2
    · cases h
      exact .inr (.inl ⟨_, rfl⟩)
    · cases h
      exact .inr (.inl ⟨_, rfl⟩)
    · split at h
      · rename_i u hu
        cases h
        obtain ⟨-, ⟨e, he, rfl⟩ | ⟨he, a, -, rfl⟩⟩ := State.emit_error hu
        · exact .inr (.inl ⟨_, rfl⟩)
        · refine .inr (.inr ⟨a, ?_⟩)
          simp [State.outputRange, rangeUnless, he, h2]
      · rename_i u hu
        cases h
        exact .inl ⟨_, .bwWrite n (by simpa using h1) (by simpa using h2) u hu, rfl⟩
  | bwFinal p =>
    simp only [exec, execBwFinal] at h
    split_ifs at h with h2
    · cases h
      exact .inr (.inl ⟨_, rfl⟩)
    · split at h
      · rename_i u hu
        cases h
        obtain ⟨-, ⟨e, he, rfl⟩ | ⟨he, a, -, rfl⟩⟩ := State.emit_error hu
        · exact .inr (.inl ⟨_, rfl⟩)
        · refine .inr (.inr ⟨a, ?_⟩)
          simp [State.outputRange, rangeUnless, he, h2]
      · rename_i u hu
        cases h
        exact .inl ⟨_, .bwFinal p (by simpa using h2) u hu, rfl⟩
  | tblClear sel =>
    simp only [exec, execTblClear] at h
    by_cases h1 : legalSel sel = false
    · rw [if_pos h1] at h
      cases h
      exact .inr (.inl ⟨_, rfl⟩)
    · rw [if_neg h1] at h
      cases h
      exact .inl ⟨_, .tblClear sel (by simpa using h1), rfl⟩
  | tblCommit sel =>
    simp only [exec, execTblCommit] at h
    split_ifs at h with h1
    · cases h
      exact .inr (.inl ⟨_, rfl⟩)
    · split at h
      · cases h
        exact .inr (.inl ⟨_, rfl⟩)
      · rename_i hc
        cases h
        exact .inl ⟨_, .tblCommit sel (by simpa using h1) hc, rfl⟩
  | tblWrPri idx =>
    simp only [exec, execTblWrPri] at h
    split_ifs at h with h1
    · cases h
      exact .inr (.inl ⟨_, rfl⟩)
    · cases h
      exact .inl ⟨_, .tblWrPri idx (by simpa using h1), rfl⟩
  | tblWrTail idx =>
    simp only [exec, execTblWrTail] at h
    split_ifs at h with h1
    · cases h
      exact .inr (.inl ⟨_, rfl⟩)
    · cases h
      exact .inl ⟨_, .tblWrTail idx (by simpa using h1), rfl⟩
  | tblEncPri =>
    simp only [exec, execTblEncPri] at h
    split_ifs at h with h1 h2
    · cases h
      exact .inr (.inl ⟨_, rfl⟩)
    · cases h
      exact .inr (.inl ⟨_, rfl⟩)
    · split at h
      · rename_i c0 c1 ht
        cases h
        exact .inl ⟨_, .tblEncPri c0 c1 (by simpa using h1) ht, rfl⟩
      · cases h
  | tblEncTail =>
    simp only [exec, execTblEncTail] at h
    split_ifs at h with h1 h2
    · cases h
      exact .inr (.inl ⟨_, rfl⟩)
    · cases h
      exact .inr (.inl ⟨_, rfl⟩)
    · split at h
      · rename_i c ht
        cases h
        exact .inl ⟨_, .tblEncTail c (by simpa using h1) ht, rfl⟩
      · cases h
  | tblDecPri =>
    simp only [exec, execTblDecPri] at h
    split_ifs at h with h1
    · cases h
      exact .inr (.inl ⟨_, rfl⟩)
    · split at h
      · rename_i i hi
        cases h
        exact .inl ⟨_, .tblDecPri i (by simpa using h1) hi, rfl⟩
      · cases h
        exact .inr (.inl ⟨_, rfl⟩)
  | tblDecTail =>
    simp only [exec, execTblDecTail] at h
    split_ifs at h with h1
    · cases h
      exact .inr (.inl ⟨_, rfl⟩)
    · split at h
      · rename_i j hj
        cases h
        exact .inl ⟨_, .tblDecTail j (by simpa using h1) hj, rfl⟩
      · cases h
        exact .inr (.inl ⟨_, rfl⟩)
  | encode =>
    simp only [exec, execEncode] at h
    split at h
    · cases h
      exact .inr (.inl ⟨_, rfl⟩)
    · rename_i he
      split at h
      · rename_i a _
        cases h
        refine .inr (.inr ⟨a, ?_⟩)
        simp only [State.outputRange, rangeUnless, he, Option.isSome_none, Bool.false_eq_true, if_false]
      · split at h
        · cases h
        · rename_i str hs
          cases h
          exact .inl ⟨_, .encode str (State.encodeError_none.1 he) hs, rfl⟩
  | decode =>
    simp only [exec, execDecode] at h
    split at h
    · cases h
      exact .inr (.inl ⟨_, rfl⟩)
    · rename_i he
      split at h
      · cases h
        exact .inr (.inl ⟨_, rfl⟩)
      · split at h
        · cases h
          exact .inr (.inl ⟨_, rfl⟩)
        · rename_i out hs
          split at h
          · rename_i a _
            cases h
            refine .inr (.inr ⟨a, ?_⟩)
            simp only [State.outputRange, rangeUnless, he, Option.isSome_none, Bool.false_eq_true, if_false]
          · cases h
            exact .inl ⟨_, .decode out (State.decodeError_none.1 he) hs, rfl⟩

/-- The output range of a command is empty or lies in the address space (R47). -/
theorem State.outputRange_le (s : State) (i : Instr) :
    (s.outputRange i).size = 0 ∨ (s.outputRange i).base + (s.outputRange i).size ≤ 2 ^ 32 := by
  cases i with
  | bwWrite n =>
    simp only [State.outputRange, rangeUnless]
    split_ifs with h
    · exact .inl rfl
    · simp only [Bool.or_eq_true, not_or, Bool.not_eq_true, Option.isSome_eq_false_iff, Option.isNone_iff_eq_none] at h
      exact .inr (State.emitError_none.1 h.2).2
  | bwFinal p =>
    simp only [State.outputRange, rangeUnless]
    split_ifs with h
    · exact .inl rfl
    · simp only [Bool.or_eq_true, not_or, Bool.not_eq_true, Option.isSome_eq_false_iff, Option.isNone_iff_eq_none] at h
      exact .inr (State.emitError_none.1 h.2).2
  | encode =>
    simp only [State.outputRange, rangeUnless]
    split_ifs with h
    · exact .inl rfl
    · exact .inr (State.encodeError_none.1 (by simpa using h)).output
  | decode =>
    simp only [State.outputRange, rangeUnless]
    split_ifs with h
    · exact .inl rfl
    · exact .inr (State.decodeError_none.1 (by simpa using h)).output
  | _ => exact .inl rfl

/-- A command that stores nothing has an empty output range (R53). -/
theorem State.scramble_zero (s : State) (base : Nat) : s.scramble base 0 = s := rfl

end Sys2Proof.Machine
end

