-- ==== Sys2Proof/Laws/Decode.lean ====
section
/-! SUPPORT. The laws of command words: opcodes and their numbers, the fields' widths and places, the bits of a mask, and what
a decoding says of its word. -/

namespace Sys2Proof

theorem Opcode.ofNumber_number (o : Opcode) : Opcode.ofNumber o.number = some o := by cases o <;> rfl

theorem Opcode.number_of_some {b : BitVec 8} {o : Opcode} (h : Opcode.ofNumber b = some o) : o.number = b := by
  unfold Opcode.ofNumber at h
  split at h <;> cases h <;> (apply BitVec.eq_of_toNat_eq; simp_all [Opcode.number])

theorem Opcode.number_ne_of_none {b : BitVec 8} (h : Opcode.ofNumber b = none) (o : Opcode) : o.number ≠ b := by
  rintro rfl
  rw [Opcode.ofNumber_number] at h
  cases h

/-- How many low bits a format's field takes (R64). -/
def Format.fieldWidth : Format → Nat
  | .Z => 0
  | .N => 5
  | .P => 1
  | .S => 2
  | .I11 => 11
  | .I6 => 6

theorem Format.fieldWidth_le (f : Format) : f.fieldWidth ≤ 11 := by cases f <;> decide

theorem Opcode.matchWord_toNat (o : Opcode) : o.matchWord.toNat = o.number.toNat * 2 ^ 24 := by cases o <;> rfl

theorem Opcode.matchWord_or_toNat (o : Opcode) {x : Word} (hx : x.toNat < 2 ^ 24) :
    (o.matchWord ||| x).toNat = o.number.toNat * 2 ^ 24 + x.toNat := by
  rw [BitVec.toNat_or, Opcode.matchWord_toNat, Nat.mul_comm, ← Nat.two_pow_add_eq_or_of_lt hx]

/-- The opcode of a word made of a match and a field (R64). -/
theorem opcField_or (o : Opcode) {x : Word} (hx : x.toNat < 2 ^ 24) : opcField (o.matchWord ||| x) = o.number := by
  apply BitVec.eq_of_toNat_eq
  rw [opcField, BitVec.extractLsb'_toNat, o.matchWord_or_toNat hx, Nat.shiftRight_eq_div_pow]
  have := o.number.isLt
  omega

/-- A command's field fits the format's width (R64, R65). -/
theorem Instr.operandBits_lt (i : Instr) : i.operandBits.toNat < 2 ^ i.opcode.format.fieldWidth := by
  cases i with
  | bwFinal p => cases p <;> decide
  | brRead n | bwWrite n | tblClear n | tblCommit n | tblWrPri n | tblWrTail n =>
    simp only [Instr.operandBits, Instr.opcode, Opcode.format, Format.fieldWidth, BitVec.toNat_setWidth]
    have := n.isLt
    omega
  | _ => decide

theorem Format.mask_getLsbD (f : Format) {j : Nat} (hj : j < 32) : f.mask.getLsbD j = decide (f.fieldWidth ≤ j) := by
  cases f <;> (interval_cases j <;> rfl)

theorem Format.reserved_getLsbD (f : Format) {j : Nat} (hj : j < 32) :
    f.reserved.getLsbD j = (decide (f.fieldWidth ≤ j) && decide (j < 24)) := by
  cases f <;> (interval_cases j <;> rfl)

/-- Masking the field of a command's word leaves the match, for a field that fits (R66). -/
theorem mask_or {o : Opcode} {x : Word} (hx : x.toNat < 2 ^ o.format.fieldWidth) :
    (o.matchWord ||| x) &&& o.format.mask = o.matchWord := by
  apply BitVec.eq_of_getLsbD_eq
  intro j hj
  rw [BitVec.getLsbD_and, BitVec.getLsbD_or, o.format.mask_getLsbD hj]
  have hw := o.format.fieldWidth_le
  by_cases h : o.format.fieldWidth ≤ j
  · have : x.getLsbD j = false := by
      rw [BitVec.getLsbD]
      exact Nat.testBit_lt_two_pow (lt_of_lt_of_le hx (Nat.pow_le_pow_right (by omega) h))
    simp [this, h]
  · have : o.matchWord.getLsbD j = false := by
      rw [BitVec.getLsbD, Opcode.matchWord_toNat]
      have : j < 24 := by omega
      rw [Nat.mul_comm, Nat.testBit_two_pow_mul]
      simp
      omega
    simp [this, h]

theorem Opcode.build_opcode (w : Word) (o : Opcode) : (o.build w).opcode = o := by cases o <;> rfl

/-- What a decoding says of its word (R67). -/
theorem decode_ok {w : Word} {i : Instr} (h : decode w = .ok i) :
    ∃ o, Opcode.ofNumber (opcField w) = some o ∧ w &&& o.format.reserved = 0 ∧ i = o.build w ∧ i.wellFormed = true := by
  unfold decode at h
  split at h
  · cases h
  · rename_i o ho
    split_ifs at h with h1 h2
    cases h
    exact ⟨o, ho, by simpa using h1, rfl, h2⟩

end Sys2Proof
end

