-- ==== Sys2Proof/Laws/Host.lean ====
section
/-! SUPPORT. What a step of the host's is, said once: a window access, a reset, a turn; and that an abort stays within the
output range of the command in flight. -/

namespace Sys2Proof.Machine

open Sys2Proof.Config

theorem regAt_offset (r : Reg) : regAt r.offset = some r := by cases r <;> rfl

theorem Reg.offset_lt (r : Reg) : r.offset < 256 := by cases r <;> decide

theorem Reg.offset_aligned (r : Reg) : r.offset % 4 = 0 := by cases r <;> rfl

/-- What a host write access can do (R15 to R17): nothing; the error response; an answer and nothing else; or, at a
register's offset, the register's write or a dropped one. -/
theorem hostWrite_cases (s : State) (addr bits : Nat) (v : Word) :
    s.hostWrite addr bits v = s ∨ s.hostWrite addr bits v = { s with resp := .busErrorResponse } ∨
    s.hostWrite addr bits v = { s with resp := .ack } ∨
    ∃ r : Reg, addr = s.params.regBase + r.offset ∧ bits = 32 ∧ addr % 4 = 0 ∧
      s.hostWrite addr bits v =
        { (if s.status.busy && r.droppedWhileBusy then s.dropWrite else s.writeReg v r) with resp := .ack } := by
  unfold State.hostWrite
  split_ifs with h1 h2
  · exact .inl rfl
  · exact .inr (.inl rfl)
  · refine .inr (.inr ?_)
    unfold State.windowWrite
    cases hr : regAt (addr - s.params.regBase) with
    | none => exact .inl rfl
    | some r =>
      simp only [State.inWindow, accessOK, Bool.and_eq_false_iff, decide_eq_false_iff_not, not_or, not_not] at h1 h2
      refine .inr ⟨r, ?_, h2.1, h2.2, rfl⟩
      have : addr - s.params.regBase = r.offset := by
        unfold regAt at hr
        split at hr <;> cases hr <;> assumption
      omega

/-- A step on a host write of a register (R16, R69). -/
theorem step_hostWr {s : State} {r : Reg} {v : Word} {rest : List Input} (h4 : s.params.regBase % 4 = 0)
    (h : s.inputs = hostWr s.params.regBase r v :: rest) :
    step s = .next { State.windowWrite { s with inputs := rest, draws := s.draws + 1 } r.offset v with resp := .ack } := by
  have h1 := r.offset_lt
  have h2 : (s.params.regBase + r.offset) % 4 = 0 := by
    have := r.offset_aligned
    omega
  simp [step, State.move, h, hostWr, State.input, State.hostWrite, State.inWindow, accessOK, State.nextDraw, h1, h2]

/-- What a step can do (R14, R73, R134): nothing; the engine's run of the accepted command; or one input's effect. -/
theorem step_cases {s t : State} (h : step s = .next t) :
    (s.status.busy = false ∧ (s.inputs = [] ∧ t = s ∨ ∃ rest, s.inputs = .turn :: rest ∧ t = { s with inputs := rest })) ∨
    (s.status.busy = true ∧ ∃ rest, (s.inputs = [] ∧ rest = [] ∨ s.inputs = .turn :: rest) ∧
      State.runCommand { s with inputs := rest, draws := s.draws + 1 } = .next t) ∨
    (∃ i rest, i ≠ .turn ∧ s.inputs = i :: rest ∧
      t = State.input { s with inputs := rest, draws := s.draws + 1 } i) := by
  simp only [step, State.move] at h
  split at h
  · rename_i hi
    cases hb : s.status.busy with
    | false =>
      rw [hb] at h
      cases h
      exact .inl ⟨rfl, .inl ⟨hi, rfl⟩⟩
    | true =>
      simp only [hb, if_true] at h
      refine .inr (.inl ⟨rfl, [], .inl ⟨hi, rfl⟩, ?_⟩)
      rw [← h, State.nextDraw, hi]
  · rename_i rest hi
    cases hb : s.status.busy with
    | false =>
      rw [hb] at h
      cases h
      exact .inl ⟨rfl, .inr ⟨rest, hi, rfl⟩⟩
    | true =>
      simp only [hb, if_true] at h
      exact .inr (.inl ⟨rfl, rest, .inr hi, h⟩)
  · rename_i i rest hne hi
    cases h
    exact .inr (.inr ⟨i, rest, hne, hi, rfl⟩)

/-- The engine's run of the accepted command word, where it goes on (R67, R71): a command's execution, or an error. -/
theorem runCommand_cases {s t : State} (h : s.runCommand = .next t) :
    (∃ i, decode s.lastCmd = .ok i ∧ exec i s = .next t) ∨
      (∃ e, decode s.lastCmd = .error e) ∧ t = s.raise (.illegalCommand s.lastCmd) := by
  unfold State.runCommand at h
  split at h
  · rename_i i hd
    exact .inl ⟨i, hd, h⟩
  · rename_i e hd
    cases h
    exact .inr ⟨⟨e, hd⟩, rfl⟩

/-- A step on a host read of a register (R16, R69). -/
theorem step_hostRd {s : State} {r : Reg} {rest : List Input} (h4 : s.params.regBase % 4 = 0)
    (h : s.inputs = hostRd s.params.regBase r :: rest) :
    step s = .next { s with
      inputs := rest, draws := s.draws + 1,
      resp := .word (State.windowRead { s with inputs := rest, draws := s.draws + 1 } r.offset) } := by
  have h1 := r.offset_lt
  have h2 : (s.params.regBase + r.offset) % 4 = 0 := by
    have := r.offset_aligned
    omega
  simp [step, State.move, h, hostRd, State.input, State.hostRead, State.inWindow, accessOK, State.nextDraw, h1, h2]

/-- An abort leaves memory outside the output range of the command in flight alone (R135 item 3). -/
theorem State.abort_outside {s : State} (h : s.mem.wf = true) {i : Instr} (hb : s.status.busy = true)
    (hd : decode s.lastCmd = .ok i) : SameOutside s.mem s.abort.mem (s.outputRange i).base (s.outputRange i).size := by
  simp only [State.abort, hb, hd, if_true]
  rcases s.outputRange_le i with h0 | h0
  · rw [h0, State.scramble_zero]
    exact fun _ _ => rfl
  · exact State.scramble_outside h h0

/-- An abort keeps memory canonical. -/
theorem State.abort_wf {s : State} (h : s.mem.wf = true) : s.abort.mem.wf = true := by
  unfold State.abort
  split_ifs
  · split
    · rename_i i _
      rcases s.outputRange_le i with h0 | h0
      · rw [h0, State.scramble_zero]
        exact h
      · exact State.scramble_wf h h0
    · exact h
  · exact h

theorem priToken_replicate (i : Nat) : priToken (Vector.replicate 2048 none) i = none := by
  rw [priToken, Vector.getElem?_replicate]
  split_ifs <;> rfl

theorem tailToken_replicate (j : Nat) : tailToken (Vector.replicate 64 none) j = none := by
  rw [tailToken, Vector.getElem?_replicate]
  split_ifs <;> rfl

end Sys2Proof.Machine
end

