-- ==== Sys2Proof/Laws/PerInstr.lean ====
section
/-! SUPPORT. One lemma per command: its word is selected by its own row of the opcode table (spec/30_encoding.md R66,
`w & mask = match`). -/

namespace Sys2Proof.Laws.SelectedByItsRow

/-- The word of the command matches its opcode's mask and match. -/
def Statement (i : Instr) : Prop :=
  encode i &&& i.opcode.format.mask = i.opcode.matchWord

theorem nop : Statement .nop := rfl

theorem brInit : Statement .brInit := rfl

theorem brRead (n : BitVec 5) : Statement (.brRead n) := mask_or (Instr.operandBits_lt (.brRead n))

theorem bwInit : Statement .bwInit := rfl

theorem bwWrite (n : BitVec 5) : Statement (.bwWrite n) := mask_or (Instr.operandBits_lt (.bwWrite n))

theorem bwFinal (p : FinalMode) : Statement (.bwFinal p) := mask_or (Instr.operandBits_lt (.bwFinal p))

theorem tblClear (sel : BitVec 2) : Statement (.tblClear sel) := mask_or (Instr.operandBits_lt (.tblClear sel))

theorem tblCommit (sel : BitVec 2) : Statement (.tblCommit sel) := mask_or (Instr.operandBits_lt (.tblCommit sel))

theorem tblWrPri (idx : BitVec 11) : Statement (.tblWrPri idx) := mask_or (Instr.operandBits_lt (.tblWrPri idx))

theorem tblWrTail (idx : BitVec 6) : Statement (.tblWrTail idx) := mask_or (Instr.operandBits_lt (.tblWrTail idx))

theorem tblEncPri : Statement .tblEncPri := rfl

theorem tblEncTail : Statement .tblEncTail := rfl

theorem tblDecPri : Statement .tblDecPri := rfl

theorem tblDecTail : Statement .tblDecTail := rfl

theorem encode : Statement .encode := rfl

theorem decode : Statement .decode := rfl

end Sys2Proof.Laws.SelectedByItsRow
end

