-- ==== Sys2Proof/Tests/Slice0.lean ====
section
/-! SUPPORT. Tests: ill-formed commands, the words of spec/30_encoding.md, one step of each command with the values that
spec/95_test_vectors.md gives, and, for each statement that has hypotheses, a state and operands that meet them. -/

namespace Sys2Proof.Tests

open Sys2Proof Sys2Proof.Machine Sys2Proof.Config

/-! ### Well-formedness: R66, legal field values -/

theorem test_wf_brRead_zero : (Instr.brRead 0).wellFormed = false := by decide
theorem test_wf_brRead_seventeen : (Instr.brRead 17).wellFormed = false := by decide
theorem test_wf_brRead_bounds : (Instr.brRead 1).wellFormed = true ∧ (Instr.brRead 16).wellFormed = true := by decide
theorem test_wf_bwWrite_zero : (Instr.bwWrite 0).wellFormed = false := by decide
theorem test_wf_bwWrite_seventeen : (Instr.bwWrite 17).wellFormed = false := by decide
theorem test_wf_bwWrite_bounds : (Instr.bwWrite 1).wellFormed = true ∧ (Instr.bwWrite 16).wellFormed = true := by decide
theorem test_wf_tblClear_none : (Instr.tblClear 0).wellFormed = false := by decide
theorem test_wf_tblCommit_none : (Instr.tblCommit 0).wellFormed = false := by decide

/-! ### Decoding: words written out from the encodings of R64 to R66 and of each command's rule, bit by bit -/

theorem test_decode_nop : decode 0b00000000000000000000000000000000#32 = .ok .nop := by decide
theorem test_decode_brInit : decode 0b00000001000000000000000000000000#32 = .ok .brInit := by decide
theorem test_decode_brRead : decode 0b00000010000000000000000000001011#32 = .ok (.brRead 11) := by decide
theorem test_decode_bwInit : decode 0b00000100000000000000000000000000#32 = .ok .bwInit := by decide
theorem test_decode_bwWrite : decode 0b00000101000000000000000000000110#32 = .ok (.bwWrite 6) := by decide
theorem test_decode_bwFinal : decode 0b00000110000000000000000000000000#32 = .ok (.bwFinal .trunc) ∧
    decode 0b00000110000000000000000000000001#32 = .ok (.bwFinal .pad) := by decide
theorem test_decode_tblClear : decode 0b00001000000000000000000000000001#32 = .ok (.tblClear 1) := by decide
theorem test_decode_tblCommit : decode 0b00001001000000000000000000000010#32 = .ok (.tblCommit 2) := by decide
theorem test_decode_tblWrPri : decode 0b00001010000000000000011111111111#32 = .ok (.tblWrPri 2047) := by decide
theorem test_decode_tblWrTail : decode 0b00001011000000000000000000111111#32 = .ok (.tblWrTail 63) := by decide
theorem test_decode_tblEncPri : decode 0b00001100000000000000000000000000#32 = .ok .tblEncPri := by decide
theorem test_decode_tblEncTail : decode 0b00001101000000000000000000000000#32 = .ok .tblEncTail := by decide
theorem test_decode_tblDecPri : decode 0b00001110000000000000000000000000#32 = .ok .tblDecPri := by decide
theorem test_decode_tblDecTail : decode 0b00001111000000000000000000000000#32 = .ok .tblDecTail := by decide
theorem test_decode_encode : decode 0b00010000000000000000000000000000#32 = .ok .encode := by decide
theorem test_decode_decode : decode 0b00010001000000000000000000000000#32 = .ok .decode := by decide

/-- Vectors K2 to K10, EC14: each word is illegal, by the step of R67 that fails. -/
theorem test_decode_illegal :
    decode 0x03000000 = .error .undefinedOpcode ∧ decode 0x00000001 = .error .reservedBit ∧
    decode 0x02000000 = .error .illegalField ∧ decode 0x02000011 = .error .illegalField ∧
    decode 0x02000030 = .error .reservedBit ∧ decode 0x08000000 = .error .illegalField ∧
    decode 0x06000002 = .error .reservedBit ∧ decode 0x0A000800 = .error .reservedBit ∧
    decode 0x12000000 = .error .undefinedOpcode ∧ decode 0x10000001 = .error .reservedBit := by decide

/-! ### One step of each command. `after` accepts a command word and takes the next step. -/

/-- The state after the step that runs a command word, where it is a next state. -/
def after (s : State) (w : Nat) : Option State :=
  match step (s.withFetchWord 32 w) with
  | .next t => some t
  | .fault _ => none
  | .refused _ => none

/-- Vector K1. -/
theorem test_nop : (after State.reset 0x00000000).map (fun t => (t.status.word, t.lastCmd)) = some (2, 0) := by
  decide

/-- Vector K2: an undefined opcode. -/
theorem test_illegal : (after State.reset 0x03000000).map (fun t => (t.status.word, t.errCode, t.errInfo)) =
    some (6, 0x05, 0x03000000) := by decide

/-- The bytes of vectors RD1 to RD4, at 0x1000. -/
def readerState (pos : Word) : State :=
  { State.reset with brBase := 0x1000, brLen := 2, brPos := pos, mem := [(0x1000, 0xA5), (0x1001, 0x3C)] }

/-- Vector RD11. -/
theorem test_brInit : (after (readerState 3) 0x01000000).map (fun t => (t.brPos, t.brRemWord)) = some (0, 16) := by
  decide

/-- Vector RD2. -/
theorem test_brRead : (after (readerState 3) 0x0200000B).map (fun t => (t.res, t.brPos, t.brRemWord)) =
    some (0x14F, 14, 2) := by decide

/-- Vector RD4. -/
theorem test_brRead_end : (after (readerState 16) 0x02000001).map (fun t => (t.errCode, t.errInfo, t.brPos)) =
    some (0x04, 0, 16) := by decide

/-- A writer at 0x3000 with room for 8 bytes (vectors of section 4.4). -/
def writerState (cnt : BitVec 29) (accn : BitVec 3) (accv : BitVec 7) (val : Word) : State :=
  { State.reset with
    bwBase := 0x3000, bwCap := 8, bwCnt := cnt, accn := accn, accv := accv, val := val, mem := [(0x3000, 0xFF)] }

/-- The example of R99. -/
theorem test_bwInit : (after (writerState 3 5 0 0) 0x04000000).map (fun t => (t.bwCnt, t.accWord, t.mem)) =
    some (0, 0, [(0x3000, 0xFF)]) := by decide

/-- Vector B6, its second write. -/
theorem test_bwWrite :
    (after (writerState 0 7 0x7F 0xABCD) 0x05000010).map (fun t => (t.bwCnt, t.accWord, t.mem)) =
      some (2, 0x74D, [(0x3000, 0xFF), (0x3001, 0x57)]) := by decide

/-- Vector B8: bits fill the waiting ones up to a byte. -/
theorem test_bwWrite_carry :
    (after (writerState 1 3 7 62) 0x05000006).map (fun t => (t.bwCnt, t.accWord, t.mem)) =
      some (2, 0x100, [(0x3000, 0xFF), (0x3001, 0xFF)]) := by decide

/-- Vector B2. -/
theorem test_bwFinal_pad :
    (after (writerState 1 3 7 0) 0x06000001).map (fun t => (t.bwCnt, t.accWord, t.status.bwClosed, t.mem)) =
      some (2, 0, true, [(0x3000, 0xFF), (0x3001, 0xE0)]) := by decide

/-- Vector B3. -/
theorem test_bwFinal_trunc :
    (after (writerState 1 3 7 0) 0x06000000).map (fun t => (t.bwCnt, t.accWord, t.status.bwClosed, t.mem)) =
      some (1, 0, true, [(0x3000, 0xFF)]) := by decide

/-! ### The test alphabet TA (spec/95_test_vectors.md section 1) -/

/-- `B64`. -/
def b64 (n : Nat) : Chr :=
  if n < 26 then BitVec.ofNat 32 (0x41 + n)
  else if n < 52 then BitVec.ofNat 32 (0x61 + (n - 26))
  else if n < 62 then BitVec.ofNat 32 (0x30 + (n - 52))
  else if n = 62 then 0x2B
  else 0x2F

/-- The primary table of TA. -/
def taPri : Vector (Option PriToken) 2048 := Vector.ofFn fun i => some (b64 (i.val / 64), b64 (i.val % 64))

/-- The tail table of TA. -/
def taTail : Vector (Option Chr) 64 := Vector.ofFn fun j => some (b64 j.val)

theorem b64_inj {m n : Nat} (hm : m < 64) (hn : n < 64) (h : b64 m = b64 n) : m = n := by
  have h' := congrArg BitVec.toNat h
  unfold b64 at h'
  split_ifs at h' <;> simp at h' <;> omega

theorem taPri_token {i : Nat} (hi : i < 2048) : priToken taPri i = some (b64 (i / 64), b64 (i % 64)) := by
  simp [priToken, taPri, hi]

theorem taTail_token {j : Nat} (hj : j < 64) : tailToken taTail j = some (b64 j) := by
  simp [tailToken, taTail, hj]

theorem taPri_complete : PriComplete taPri := by
  refine ⟨fun i hi => by rw [taPri_token hi]; rfl, fun i j hi hj he => ?_⟩
  rw [taPri_token hi, taPri_token hj, Option.some.injEq, Prod.mk.injEq] at he
  have := b64_inj (by omega) (by omega) he.1
  have := b64_inj (by omega) (by omega) he.2
  omega

theorem taTail_complete : TailComplete taTail := by
  refine ⟨fun j hj => by rw [taTail_token hj]; rfl, fun i j hi hj he => ?_⟩
  rw [taTail_token hi, taTail_token hj, Option.some.injEq] at he
  exact b64_inj hi hj he

/-- Empty tables. -/
def noPri : Vector (Option PriToken) 2048 := Vector.replicate 2048 none

def noTail : Vector (Option Chr) 64 := Vector.replicate 64 none

/-- The state after reset with two tables, both committed. -/
def ready (pri : Vector (Option PriToken) 2048) (tail : Vector (Option Chr) 64) : State :=
  { State.reset with
    pri := pri, tail := tail, status := { Status.reset with priValid := true, tailValid := true } }

/-- The state after reset with two tables, not committed. -/
def loaded (pri : Vector (Option PriToken) 2048) (tail : Vector (Option Chr) 64) : State :=
  { State.reset with pri := pri, tail := tail }

/-- What the tests use of TA. The proofs about states that hold the tables take them as variables with these facts, so that
the kernel never evaluates 2048 entries. -/
structure Ta (pri : Vector (Option PriToken) 2048) (tail : Vector (Option Chr) 64) : Prop where
  priComplete : PriComplete pri
  tailComplete : TailComplete tail
  pri2047 : priToken pri 2047 = some (0x66, 0x2F)
  tail62 : tailToken tail 62 = some 0x2B
  tail63 : tailToken tail 63 = some 0x2F
  tail48 : tailToken tail 48 = some 0x77
  priAbsent : ∀ i, i < 2048 → priToken pri i ≠ some (0, 0)
  tailAbsent : ∀ j, j < 64 → tailToken tail j ≠ some 0

variable {pri : Vector (Option PriToken) 2048} {tail : Vector (Option Chr) 64}

theorem b64_ne_zero {n : Nat} (hn : n < 64) : b64 n ≠ 0 := by
  intro h
  have h' := congrArg BitVec.toNat h
  unfold b64 at h'
  split_ifs at h' <;> simp at h' <;> omega

theorem ta : Ta taPri taTail where
  priComplete := taPri_complete
  tailComplete := taTail_complete
  pri2047 := by simp [taPri_token, b64]
  tail62 := by simp [taTail_token, b64]
  tail63 := by simp [taTail_token, b64]
  tail48 := by simp [taTail_token, b64]
  priAbsent i hi h := by
    rw [taPri_token hi, Option.some.injEq, Prod.mk.injEq] at h
    exact b64_ne_zero (by omega) h.1
  tailAbsent j hj h := by
    rw [taTail_token hj, Option.some.injEq] at h
    exact b64_ne_zero hj h

/-- Vector T22. -/
theorem test_tblClear : (after (ready taPri taTail) 0x08000002).map (fun t => t.status.word) = some 0x12 := by
  decide

/-- The example of R84. -/
theorem test_tblWrPri :
    ∃ t, exec (.tblWrPri 1) { State.reset with tok0 := 0x41, tok1 := 0x42 } = .next t ∧
      priToken t.pri 1 = some (0x41, 0x42) ∧ priToken t.pri 0 = none :=
  ⟨_, rfl, by simp [priToken], by simp [priToken]; rfl⟩

/-- Vector T13. -/
theorem test_tblWrPri_locked :
    (after (ready taPri taTail) 0x0A000005).map (fun t => (t.errCode, t.errInfo)) = some (0x07, 0x1) := by decide

/-- The example of R85. -/
theorem test_tblWrTail :
    ∃ t, exec (.tblWrTail 63) { State.reset with tok0 := 0x2F } = .next t ∧ tailToken t.tail 63 = some 0x2F :=
  ⟨_, rfl, by simp [tailToken]⟩

/-- Vector T17. -/
theorem test_tblCommit_unwritten :
    (after { State.reset with pri := taPri } 0x09000002).map (fun t => (t.status.word, t.errCode, t.errInfo)) =
      some (0x06, 0x01, 0x20000) := by decide

/-- `TBL_COMMIT both` of TA succeeds (95_test_vectors.md section 1, program P1). -/
theorem test_tblCommit (h : Ta pri tail) :
    ∃ t, exec (.tblCommit 3) (loaded pri tail) = .next t ∧ t.status.priValid = true ∧ t.status.tailValid = true := by
  have hc : (loaded pri tail).commitError 3 = none :=
    State.commitError_none.2 ⟨fun _ => .inr h.priComplete, fun _ => .inr h.tailComplete⟩
  exact ⟨_, by simp only [exec, execTblCommit, hc]; rfl, rfl, rfl⟩

/-- Vector T2. -/
theorem test_tblEncPri (h : Ta pri tail) :
    ∃ t, exec .tblEncPri { ready pri tail with val := 2047 } = .next t ∧ t.tok0 = 0x66 ∧ t.tok1 = 0x2F := by
  exact ⟨_, by simp [exec, execTblEncPri, ready, h.pri2047]; rfl, rfl, rfl⟩

/-- Vector T4: the upper bits of the index count. -/
theorem test_tblEncPri_range :
    (after { ready taPri taTail with val := 0x00010000 } 0x0C000000).map (fun t => (t.errCode, t.errInfo)) =
      some (0x02, 0x00010000) := by decide

/-- Vector T5. -/
theorem test_tblEncTail (h : Ta pri tail) :
    ∃ t, exec .tblEncTail { ready pri tail with val := 63, tok1 := 7 } = .next t ∧ t.tok0 = 0x2F ∧ t.tok1 = 7 := by
  exact ⟨_, by simp [exec, execTblEncTail, ready, h.tail63]; rfl, rfl, rfl⟩

/-- Vector T12. -/
theorem test_tblDecTail_notReady : (after State.reset 0x0F000000).map (fun t => (t.errCode, t.errInfo)) =
    some (0x06, 0x2) := by decide

/-- Vector T7. -/
theorem test_tblDecPri (h : Ta pri tail) :
    ∃ t, exec .tblDecPri { ready pri tail with tok0 := 0x66, tok1 := 0x2F } = .next t ∧ t.res = 2047 := by
  have hi : priInv pri (0x66, 0x2F) = some 2047 := h.priComplete.priInv_eq h.pri2047
  exact ⟨_, by simp only [exec, execTblDecPri, ready, hi]; rfl, rfl⟩

/-- Vector T10. -/
theorem test_tblDecTail (h : Ta pri tail) :
    ∃ t, exec .tblDecTail { ready pri tail with tok0 := 0x77 } = .next t ∧ t.res = 48 := by
  have hi : tailInv tail 0x77 = some 48 := h.tailComplete.tailInv_eq h.tail48
  exact ⟨_, by simp only [exec, execTblDecTail, ready, hi]; rfl, rfl⟩

/-- The buffers of vector EC1. -/
def encState (pri : Vector (Option PriToken) 2048) (tail : Vector (Option Chr) 64) : State :=
  { ready pri tail with
    brBase := 0x1000, brLen := 2, csBase := 0x2000, csCap := 3, mem := [(0x1000, 0xFF), (0x1001, 0xFF)] }

/-- What vector EC1 leaves. -/
def encDone (pri : Vector (Option PriToken) 2048) (tail : Vector (Option Chr) 64) : State :=
  { encState pri tail with
    brPos := 16, csCnt := 3, status := { (ready pri tail).status with busy := false, done := true }
    mem := [(0x1000, 0xFF), (0x1001, 0xFF), (0x2000, 0x66), (0x2004, 0x2F), (0x2008, 0x2B)] }

/-- Vector E3. -/
theorem test_encodeChars (h : Ta pri tail) :
    encodeChars .dual pri tail [0xFF, 0xFF] = some [0x66, 0x2F, 0x2B] := by
  have h3 : encodeSyms .dual [0xFF, 0xFF] = [.p11 2047, .t6 62] := by decide
  rw [encodeChars, h3]
  simp [symsChars, symToken, h.pri2047, h.tail62]

theorem encState_encodes (h : Ta pri tail) :
    exec .encode (encState pri tail) = .next (encDone pri tail) := by
  have h1 : (encState pri tail).encodeError = none := by
    rw [show (encState pri tail).encodeError = (encState noPri noTail).encodeError from rfl]
    decide
  have h2 : (encState pri tail).encodeRefused = none := by
    have hl : (encState pri tail).encodeLen = 3 := by
      rw [show (encState pri tail).encodeLen = (encState noPri noTail).encodeLen from rfl]
      decide
    have hr : (encState pri tail).firstRefused .read (encState pri tail).brBase.toNat
        (encState pri tail).brLen.toNat = none := rfl
    have hw : (encState pri tail).firstRefused .write (encState pri tail).csBase.toNat (4 * 3) = none := rfl
    simp only [State.encodeRefused, hl, hr, hw]
  have h3 : encodeChars (encState pri tail).params.policy (encState pri tail).pri (encState pri tail).tail
      (encState pri tail).encodeInput = some [0x66, 0x2F, 0x2B] := test_encodeChars h
  simp only [exec, execEncode, h1, h2, h3]
  rfl

/-- Vectors EC1 and EC3. -/
theorem test_encode : exec .encode (encState taPri taTail) = .next (encDone taPri taTail) := encState_encodes ta

/-- The buffers of vector DC4, after EC1. -/
def decState (pri : Vector (Option PriToken) 2048) (tail : Vector (Option Chr) 64) : State :=
  { encDone pri tail with csLen := 3, bwBase := 0x3000, bwCap := 2 }

/-- The string of vector DC4 decodes to its bytes. -/
theorem test_decodeChars (h : Ta pri tail) :
    decodeChars .dual pri tail [0x66, 0x2F, 0x2B] = .ok [0xFF, 0xFF] := by
  have h1 : priInv pri (0x66, 0x2F) = some 2047 := h.priComplete.priInv_eq h.pri2047
  have h2 : tailInv tail 0x2B = some 62 := h.tailComplete.tailInv_eq h.tail62
  simp only [decodeChars, decodeBits, h1, h2]
  decide

/-- Vector DC4. -/
theorem test_decode (h : Ta pri tail) :
    ∃ t, exec .decode (decState pri tail) = .next t ∧ t.bwCnt = 2 ∧ t.status.bwClosed = true ∧
      t.mem.read 0x3000 = 0xFF ∧ t.mem.read 0x3001 = 0xFF := by
  have h1 : (decState pri tail).decodeError = none := by
    rw [show (decState pri tail).decodeError = (decState noPri noTail).decodeError from rfl]
    decide
  have h2 : (decState pri tail).firstRefused .read (decState pri tail).csBase.toNat
      (4 * (decState pri tail).csLen.toNat) = none := rfl
  have h3 : decodeChars (decState pri tail).params.policy (decState pri tail).pri (decState pri tail).tail
      (decState pri tail).decodeInput = .ok [0xFF, 0xFF] := by
    have hin : (decState noPri noTail).decodeInput = [0x66, 0x2F, 0x2B] := by decide
    rw [show (decState pri tail).decodeInput = (decState noPri noTail).decodeInput from rfl, hin]
    exact test_decodeChars h
  have h4 : (decState pri tail).firstRefused .write (decState pri tail).bwBase.toNat 2 = none := rfl
  refine ⟨({ (decState pri tail).portStore 0x3000 [0xFF, 0xFF] with
    bwCnt := 2, accv := 0, accn := 0, status := { (decState pri tail).status with bwClosed := true } }).complete,
    ?_, rfl, rfl, rfl, rfl⟩
  simp only [exec, execDecode, h1, h2, h3, List.length_cons, List.length_nil, h4]
  rfl

/-! ### Witnesses: for each statement with hypotheses, a state and operands that meet them -/

/-- The idle engine after reset, with inputs to come. -/
def idle (ins : List Input) : State := { State.reset with inputs := ins }

/-- The engine running the word `w`, with inputs to come. -/
def running (w : Word) (ins : List Input) : State :=
  { State.reset with lastCmd := w, status := { Status.reset with busy := true }, inputs := ins }

/-- The engine with an error pending. -/
def failed (ins : List Input) : State :=
  { State.reset with
    lastCmd := 0x03000000, status := { Status.reset with done := true, err := true }, errCode := 5,
    errInfo := 0x03000000, inputs := ins }

theorem witness_DecodeAfterEncode : (Instr.brRead 16).wellFormed = true ∧ (Instr.tblClear 1).wellFormed = true := by
  decide

theorem witness_EncodeAfterDecode : decode 0x02000010 = .ok (.brRead 16) ∧ decode 0x0A0007FF = .ok (.tblWrPri 2047) := by
  decide

theorem witness_DecodesExactlyTheTableWords :
    decode 0x12000000 = .error .undefinedOpcode ∧ decode 0x02000020 = .error .reservedBit ∧
      decode 0x05000011 = .error .illegalField ∧ decode 0x05000010 = .ok (.bwWrite 16) := by decide

theorem witness_StepRunsTheAcceptedCommand :
    (running 0 [.turn]).status.busy = true ∧ decode (running 0 [.turn]).lastCmd = .ok .nop ∧
      (running 0 [.turn]).inputs = .turn :: [] ∧ (running 0 []).status.busy = true ∧
      decode (running 0 []).lastCmd = .ok .nop ∧ (running 0 []).inputs = [] := by decide

theorem witness_FetchWordIsWhatRunsNext : (Instr.bwWrite 16).wellFormed = true := by decide

theorem witness_IllegalWordCompletesWithError :
    (running 0x03000000 [.turn]).status.busy = true ∧
      decode (running 0x03000000 [.turn]).lastCmd = .error .undefinedOpcode ∧
      (running 0x03000000 [.turn]).inputs = .turn :: [] ∧ (running 0x03000000 []).status.busy = true ∧
      decode (running 0x03000000 []).lastCmd = .error .undefinedOpcode ∧ (running 0x03000000 []).inputs = [] := by decide

theorem witness_IssueIsAcceptedWhenIdle :
    (let s := idle [hostWr 0 .cmd 0x10000000]
     s.params.regBase % 4 = 0 ∧ s.inputs = hostWr s.params.regBase .cmd 0x10000000 :: [] ∧ s.status.busy = false ∧
       s.status.err = false) ∧
    (let s := running 0x02000011 [.turn]
     s.status.busy = true ∧ s.inputs = .turn :: [] ∧ decode s.lastCmd = .error .illegalField) ∧
    (let s := running 0x02000010 []
     s.status.busy = true ∧ s.inputs = [] ∧ decode s.lastCmd = .ok (.brRead 16)) := by decide

theorem witness_IssueIsDroppedWhenBusyOrErr :
    (let s := running 0 [hostWr 0 .cmd 0]
     s.params.regBase % 4 = 0 ∧ s.inputs = hostWr s.params.regBase .cmd 0 :: [] ∧ s.status.busy = true) ∧
    (let s := failed [hostWr 0 .cmd 0]
     s.params.regBase % 4 = 0 ∧ s.inputs = hostWr s.params.regBase .cmd 0 :: [] ∧ s.status.err = true) := by
  decide

/-- While a command runs, and idle. The clauses differ by the register, and for `CTRL` by bit 1 of the word. -/
theorem witness_WritesWhileBusyAreDropped (r : Reg) (v : Word) :
    (let s := running 0 [hostWr 0 r v]
     s.params.regBase % 4 = 0 ∧ s.status.busy = true ∧ s.inputs = hostWr s.params.regBase r v :: []) ∧
    (let s := idle [hostWr 0 r v]
     s.params.regBase % 4 = 0 ∧ s.status.busy = false ∧ s.inputs = hostWr s.params.regBase r v :: []) ∧
    (1 : Word).getLsbD 1 = false ∧ (2 : Word).getLsbD 1 = true := ⟨⟨rfl, rfl, rfl⟩, ⟨rfl, rfl, rfl⟩, rfl, rfl⟩

theorem witness_ReadsReturnRegisterValues :
    (let s := idle [hostRd 0 .csCnt]
     s.params.regBase % 4 = 0 ∧ s.inputs = hostRd s.params.regBase .csCnt :: [] ∧ s.status.busy = false) ∧
    (let s := running 0 [hostRd 0 .cmd]
     s.params.regBase % 4 = 0 ∧ s.inputs = hostRd s.params.regBase .cmd :: [] ∧
       Reg.cmd ∈ [Reg.id, .cfg, .ctrl, .status, .cmd]) := by decide

/-- The states with both tables committed and everything else as reset leaves it have the invariants. -/
theorem ready_inv (h : Ta pri tail) : (ready pri tail).Inv where
  memory := rfl
  reader := Nat.zero_le _
  writer := Nat.zero_le _
  writerAddr := by show 0 + 0 ≤ memSize; decide
  acc := by show 0 < 2 ^ 0; decide
  pri _ := h.priComplete
  tail _ := h.tailComplete
  busy hb := by cases hb
  code := Nat.zero_le _
  cause he := by cases he
  idle _ := rfl

theorem witness_RegisterValuesAreTheFields :
    (ready taPri taTail).Inv ∧ (ready taPri taTail).params.policy = .dual ∧
      ({ ready taPri taTail with params := { resetParams with policy := .single } } : State).Inv :=
  have gen : ∀ pri tail, Ta pri tail → (ready pri tail).Inv ∧ (ready pri tail).params.policy = .dual ∧
      ({ ready pri tail with params := { resetParams with policy := .single } } : State).Inv :=
    fun _ _ h => ⟨ready_inv h, rfl, { ready_inv h with }⟩
  gen _ _ ta

/-- Each clause at an end of its range: 16-bit and unaligned accesses, the first and the last read-only register, the first
and the last reserved offset. -/
theorem witness_BadReadOnlyAndReservedAccessesChangeNothing :
    (let s := idle [.regWrite 0xFF 16 0]
     s.params.regBase ≤ 0xFF ∧ 0xFF < s.params.regBase + 256 ∧ (16 ≠ 32 ∨ 0xFF % 4 ≠ 0) ∧
       s.inputs = .regWrite 0xFF 16 0 :: []) ∧
    (let s := idle [.regRead 1 32]
     s.params.regBase ≤ 1 ∧ 1 < s.params.regBase + 256 ∧ (32 ≠ 32 ∨ 1 % 4 ≠ 0) ∧ s.inputs = .regRead 1 32 :: []) ∧
    (∀ r ∈ [Reg.id, .csCnt], let s := idle [.regWrite r.offset 32 1]
      s.params.regBase ≤ r.offset ∧ r.offset < s.params.regBase + 256 ∧ r.offset = s.params.regBase + r.offset ∧
        r.offset % 4 = 0 ∧ s.inputs = .regWrite r.offset 32 1 :: []) ∧
    (∀ a ∈ [0x5C, 0xFC], (idle [.regRead a 32]).params.regBase + 0x5C ≤ a ∧ a % 4 = 0 ∧
      a < (idle [.regRead a 32]).params.regBase + 256 ∧ (idle [.regRead a 32]).inputs = .regRead a 32 :: [] ∧
      (idle [.regWrite a 32 1]).inputs = .regWrite a 32 1 :: []) := by decide

/-- The clauses differ by the register. -/
theorem witness_IdleWritesSetOperandRegisters (r : Reg) (v : Word) :
    let s := idle [hostWr 0 r v]
    s.params.regBase % 4 = 0 ∧ s.status.busy = false ∧ s.inputs = hostWr s.params.regBase r v :: [] :=
  ⟨rfl, rfl, rfl⟩

theorem witness_AcknowledgeClearsWrittenFlags :
    let s := failed [hostWr 0 .status 4]
    s.params.regBase % 4 = 0 ∧ s.inputs = hostWr s.params.regBase .status 4 :: [] ∧ (4 : Word).getLsbD 2 = true := by
  decide

theorem witness_ResetsLeaveTheResetState :
    (let s := running 0x10000000 [.hardReset]
     s.mem.wf = true ∧ s.inputs = .hardReset :: [] ∧ s.status.busy = true ∧ decode s.lastCmd = .ok .encode) ∧
    (let s := running 0x12000000 [hostWr 0 .ctrl 2]
     s.mem.wf = true ∧ s.params.regBase % 4 = 0 ∧ (2 : Word).getLsbD 1 = true ∧
       s.inputs = hostWr s.params.regBase .ctrl 2 :: [] ∧ s.status.busy = true ∧
       decode s.lastCmd = .error .undefinedOpcode) ∧
    (let s := idle [.hardReset]
     s.mem.wf = true ∧ s.inputs = .hardReset :: [] ∧ s.status.busy = false) := by decide

theorem witness_OnlyCompletionRaisesIrq :
    (∃ t, step { running 0 [] with ie := true } = .next t ∧ ({ running 0 [] with ie := true } : State).irq = false ∧
      t.irq = true) ∧
    (let s := { failed [hostWr 0 .ctrl 1] with ie := false }
     ∃ t, step s = .next t ∧ s.irq = false ∧ t.irq = true) := ⟨⟨_, rfl, rfl, rfl⟩, _, rfl, rfl, rfl⟩

/-- All 16 bits that remain, and the last one. -/
theorem witness_BrReadReturnsTheNextBits :
    (let s := readerState 0
     s.brBase.toNat + s.brLen.toNat ≤ 2 ^ 32 ∧ s.brPos.toNat + (16 : BitVec 5).toNat ≤ 8 * s.brLen.toNat ∧
       s.allows .read s.brBase.toNat 2 ∧ s.stable s.brBase.toNat s.brLen.toNat) ∧
    (let s := readerState 15
     s.brBase.toNat + s.brLen.toNat ≤ 2 ^ 32 ∧ s.brPos.toNat + (1 : BitVec 5).toNat ≤ 8 * s.brLen.toNat ∧
       s.allows .read s.brBase.toNat 2 ∧ s.stable s.brBase.toNat s.brLen.toNat) :=
  ⟨⟨by decide, by decide, fun _ _ => rfl, fun _ _ => ⟨rfl, rfl⟩⟩, by decide, by decide,
    fun _ _ => rfl, fun _ _ => ⟨rfl, rfl⟩⟩

/-- A port that refuses one byte, of either kind of access. -/
def refusing (a : Nat) : Params := { resetParams with readRefused := [⟨a, 1⟩], writeRefused := [⟨a, 1⟩] }

/-- A port that refuses a read of one byte and a write of another. -/
def refusingAt (r w : Nat) : Params := { resetParams with readRefused := [⟨r, 1⟩], writeRefused := [⟨w, 1⟩] }

theorem witness_BrReadErrorsInOrder :
    ((0 : BitVec 5).toNat = 0 ∧ 16 < (17 : BitVec 5).toNat) ∧
    (let s := { readerState 0 with brBase := 0xFFFFFFFF }
     2 ^ 32 < s.brBase.toNat + s.brLen.toNat) ∧
    (let s := readerState 16
     s.brBase.toNat + s.brLen.toNat ≤ 2 ^ 32 ∧ 8 * s.brLen.toNat - s.brPos.toNat < (1 : BitVec 5).toNat) ∧
    (let s := { readerState 0 with params := refusing 0x1001 }
     s.brBase.toNat + s.brLen.toNat ≤ 2 ^ 32 ∧ s.brPos.toNat + (16 : BitVec 5).toNat ≤ 8 * s.brLen.toNat ∧
       s.brPos.toNat / 8 ≤ 1 ∧ 1 ≤ (s.brPos.toNat + (16 : BitVec 5).toNat - 1) / 8 ∧
       s.memOK .read (s.brBase.toNat + 1) = false ∧
       (∀ j, j < 1 → s.brPos.toNat / 8 ≤ j → s.memOK .read (s.brBase.toNat + j) = true)) := by decide

theorem witness_ReadSequenceIsConsecutive :
    let s := readerState 0
    let ns : List (BitVec 5) := [11, 5]
    s.brPos = 0 ∧ (∀ n ∈ ns, 1 ≤ n.toNat ∧ n.toNat ≤ 16) ∧ (ns.map BitVec.toNat).sum ≤ 8 * s.brLen.toNat ∧
      s.brBase.toNat + s.brLen.toNat ≤ 2 ^ 32 ∧ s.allows .read s.brBase.toNat s.brLen.toNat ∧
      s.stable s.brBase.toNat s.brLen.toNat :=
  ⟨rfl, by decide, by decide, by decide, fun _ _ => rfl, fun _ _ => ⟨rfl, rfl⟩⟩

/-- No byte completed at a full buffer, and two bytes that fill the buffer. -/
theorem witness_BwWriteAppendsBits :
    (let s := writerState 8 0 0 1
     s.status.bwClosed = false ∧ (s.accn.toNat + (1 : BitVec 5).toNat) / 8 = 0) ∧
    (let s := writerState 6 7 0x7F 0xABCD
     s.status.bwClosed = false ∧ (s.accn.toNat + (16 : BitVec 5).toNat) / 8 = 2 ∧
       s.bwCnt.toNat + 2 ≤ s.bwCap.toNat ∧ s.bwBase.toNat + s.bwCnt.toNat + 2 ≤ 2 ^ 32 ∧
       s.allows .write (s.bwBase.toNat + s.bwCnt.toNat) 2) :=
  ⟨⟨rfl, by decide⟩, rfl, by decide, by decide, by decide, fun _ _ => rfl⟩

theorem witness_BwFinalClosesTheWriter :
    ((writerState 8 0 0 0).status.bwClosed = false ∧ (writerState 8 0 0 0).accn = 0) ∧
    (let s := writerState 7 7 1 0
     s.status.bwClosed = false ∧ s.accn ≠ 0 ∧ s.bwCnt.toNat + 1 ≤ s.bwCap.toNat ∧
       s.bwBase.toNat + s.bwCnt.toNat + 1 ≤ 2 ^ 32 ∧ s.memOK .write (s.bwBase.toNat + s.bwCnt.toNat) = true ∧
       s.mem.wf = true ∧ s.touched = []) := by decide

/-- A closed writer; then, with a `BW_WRITE` of 16 bits that completes two bytes, one byte too few in the buffer, a second
byte at address `2^32`, and a refused second byte; and a `BW_FINAL pad` of no byte. -/
theorem witness_WriterErrorsInOrder :
    (({ writerState 0 7 0 0 with status := { Status.reset with bwClosed := true } } : State).status.bwClosed = true ∧
      2 = ((writerState 0 7 0 0).accn.toNat + (16 : BitVec 5).toNat) / 8) ∧
    (writerState 7 7 0 0).bwCap.toNat < (writerState 7 7 0 0).bwCnt.toNat + 2 ∧
    (let s := { writerState 0 7 0 0 with bwBase := 0xFFFFFFFF }
     s.bwCnt.toNat + 2 ≤ s.bwCap.toNat ∧ 2 ^ 32 < s.bwBase.toNat + s.bwCnt.toNat + 2) ∧
    (let s := { writerState 0 7 0 0 with params := refusing 0x3001 }
     s.bwCnt.toNat + 2 ≤ s.bwCap.toNat ∧ s.bwBase.toNat + s.bwCnt.toNat + 2 ≤ 2 ^ 32 ∧
       s.memOK .write (s.bwBase.toNat + s.bwCnt.toNat + 1) = false ∧
       ∀ j, j < 1 → s.memOK .write (s.bwBase.toNat + s.bwCnt.toNat + j) = true) ∧
    0 = (if (writerState 8 0 0 0).accn = 0 then 0 else 1) := by decide

theorem writerState_inv : (writerState 1 3 7 62).Inv where
  memory := rfl
  reader := Nat.zero_le _
  writer := by decide
  writerAddr := by decide
  acc := by decide
  pri hv := by cases hv
  tail hv := by cases hv
  busy hb := by cases hb
  code := Nat.zero_le _
  cause he := by cases he
  idle _ := rfl

theorem witness_BwWriteKeepsTheBitSequence :
    (writerState 1 3 7 62).Inv ∧ (writerState 1 3 7 62).touched = [] ∧ (writerState 1 3 7 62).status.err = false ∧
      ∃ t, exec (.bwWrite 6) (writerState 1 3 7 62) = .next t ∧ t.status.err = false :=
  ⟨writerState_inv, rfl, rfl, _, rfl, rfl⟩

/-- Nine bits: two bytes with `pad`, one with `trunc`. -/
def nineBits : List (Word × BitVec 5) := [(0x1FF, 8), (1, 1)]

theorem witness_WriteSequencePacksTheBits :
    (let s := writerState 0 0 0 0
     s.mem.wf = true ∧ s.touched = [] ∧ s.bwCnt = 0 ∧ s.accv = 0 ∧ s.accn = 0 ∧ s.status.bwClosed = false ∧
       s.status.err = false ∧ 2 ≤ s.bwCap.toNat ∧ s.bwBase.toNat + 2 ≤ 2 ^ 32) ∧
    (∀ w ∈ nineBits, 1 ≤ w.2.toNat ∧ w.2.toNat ≤ 16) ∧ (packedBytes .pad (writesBits nineBits)).length = 2 ∧
    (packedBytes .trunc (writesBits nineBits)).length = 1 ∧
    (writerState 0 0 0 0).allows .write (writerState 0 0 0 0).bwBase.toNat 2 :=
  ⟨by decide, by simp [nineBits], by decide, by decide, fun _ _ => rfl⟩

theorem witness_TblClearEmptiesSelected : (1 : BitVec 2) ≠ 0 ∧ (3 : BitVec 2) ≠ 0 ∧ (1 : BitVec 2).getLsbD 1 = false := by
  decide

theorem witness_TblWritesStoreOneEntry :
    State.reset.status.priValid = false ∧ State.reset.status.tailValid = false ∧
      (ready taPri taTail).status.priValid = true ∧ (ready taPri taTail).status.tailValid = true :=
  ⟨rfl, rfl, rfl, rfl⟩

/-- Complete tables; and, at reset, tables with nothing written. -/
theorem witness_TblCommitAcceptsCompleteTables :
    (3 : BitVec 2) ≠ 0 ∧ PriComplete (loaded taPri taTail).pri ∧ TailComplete (loaded taPri taTail).tail ∧
      (State.reset.status.priValid = false ∧ ¬PriComplete State.reset.pri) ∧
      (State.reset.status.tailValid = false ∧ ¬TailComplete State.reset.tail) :=
  ⟨by decide, taPri_complete, taTail_complete,
    ⟨rfl, fun h => by simpa [State.reset, priToken_replicate] using h.written 0 (by decide)⟩,
    rfl, fun h => by simpa [State.reset, tailToken_replicate] using h.written 0 (by decide)⟩

/-- A primary table whose first failing entry is the last one: unwritten, or a second copy of entry 0. -/
def lastPri (last : Option PriToken) : Vector (Option PriToken) 2048 :=
  Vector.ofFn fun i => if i.val = 2047 then last else some (b64 (i.val / 64), b64 (i.val % 64))

/-- A tail table whose first failing entry is the last one. -/
def lastTail (last : Option Chr) : Vector (Option Chr) 64 :=
  Vector.ofFn fun j => if j.val = 63 then last else some (b64 j.val)

theorem lastPri_token (last : Option PriToken) {i : Nat} (hi : i < 2048) :
    priToken (lastPri last) i = if i = 2047 then last else some (b64 (i / 64), b64 (i % 64)) := by
  simp [priToken, lastPri, hi]

theorem lastTail_token (last : Option Chr) {j : Nat} (hj : j < 64) :
    tailToken (lastTail last) j = if j = 63 then last else some (b64 j) := by
  simp [tailToken, lastTail, hj]

/-- Each clause at the last index of its table; the first unwritten entry also at index 0. -/
theorem witness_TblCommitNamesTheFirstFailure :
    (priToken State.reset.pri 0 = none ∧ ∀ j, j < 0 → (priToken State.reset.pri j).isSome) ∧
    (priToken (lastPri none) 2047 = none ∧ ∀ j, j < 2047 → (priToken (lastPri none) j).isSome) ∧
    (let p := lastPri (some (b64 0, b64 0))
     (∀ j, j < 2048 → (priToken p j).isSome) ∧ (∃ j, j < 2047 ∧ priToken p j = priToken p 2047) ∧
       ∀ k j, k < 2047 → j < k → priToken p j ≠ priToken p k) ∧
    (tailToken (lastTail none) 63 = none ∧ ∀ j, j < 63 → (tailToken (lastTail none) j).isSome) ∧
    (let q := lastTail (some (b64 0))
     (∀ j, j < 64 → (tailToken q j).isSome) ∧ (∃ j, j < 63 ∧ tailToken q j = tailToken q 63) ∧
       ∀ k j, k < 63 → j < k → tailToken q j ≠ tailToken q k) ∧
    (1 : BitVec 2).getLsbD 0 = true ∧ (3 : BitVec 2).getLsbD 1 = true ∧ PriComplete taPri := by
  refine ⟨⟨priToken_replicate 0, fun j hj => absurd hj (Nat.not_lt_zero j)⟩, ⟨?_, fun j hj => ?_⟩,
    ⟨fun j hj => ?_, ⟨0, by decide, ?_⟩, fun k j hk hj he => ?_⟩, ⟨?_, fun j hj => ?_⟩,
    ⟨fun j hj => ?_, ⟨0, by decide, ?_⟩, fun k j hk hj he => ?_⟩, rfl, rfl, taPri_complete⟩
  · simp [lastPri_token]
  · simp [lastPri_token none (Nat.lt_trans hj (by decide)), Nat.ne_of_lt hj]
  · rw [lastPri_token _ hj]; split <;> rfl
  · simp [lastPri_token]
  · rw [lastPri_token _ (by omega), lastPri_token _ (by omega), if_neg (by omega), if_neg (by omega),
      Option.some.injEq, Prod.mk.injEq] at he
    have := b64_inj (by omega) (by omega) he.1
    have := b64_inj (by omega) (by omega) he.2
    omega
  · simp [lastTail_token]
  · simp [lastTail_token none (Nat.lt_trans hj (by decide)), Nat.ne_of_lt hj]
  · rw [lastTail_token _ hj]; split <;> rfl
  · simp [lastTail_token]
  · rw [lastTail_token _ (by omega), lastTail_token _ (by omega), if_neg (by omega), if_neg (by omega),
      Option.some.injEq] at he
    have := b64_inj (by omega) (by omega) he
    omega

/-- The last index of each table, and the first one beyond it. -/
theorem witness_TblEncLooksUpTokens :
    (ready taPri taTail).status.priValid = true ∧ (ready taPri taTail).status.tailValid = true ∧ PriComplete taPri ∧
      TailComplete taTail ∧ (2047 : Word).toNat < 2048 ∧ (63 : Word).toNat < 64 ∧ 2048 ≤ (2048 : Word).toNat ∧
      64 ≤ (64 : Word).toNat ∧ State.reset.status.priValid = false ∧ State.reset.status.tailValid = false :=
  ⟨rfl, rfl, taPri_complete, taTail_complete, by decide, by decide, by decide, by decide, rfl, rfl⟩

/-- The last token of each table, and tokens that no entry has. -/
theorem witness_TblDecLooksUpIndices :
    (ready taPri taTail).status.priValid = true ∧ (ready taPri taTail).status.tailValid = true ∧ PriComplete taPri ∧
      TailComplete taTail ∧ priToken taPri 2047 = some (0x66, 0x2F) ∧ tailToken taTail 63 = some 0x2F ∧
      (∀ i, i < 2048 → priToken taPri i ≠ some (0, 0)) ∧ (∀ j, j < 64 → tailToken taTail j ≠ some 0) ∧
      State.reset.status.priValid = false ∧ State.reset.status.tailValid = false :=
  ⟨rfl, rfl, taPri_complete, taTail_complete, ta.pri2047, ta.tail63, ta.priAbsent, ta.tailAbsent, rfl, rfl⟩

theorem witness_TableLookupsAreInverse :
    (ready taPri taTail).Inv ∧ (ready taPri taTail).status.priValid = true ∧ (ready taPri taTail).status.tailValid = true :=
  ⟨ready_inv ta, rfl, rfl⟩

theorem witness_IllegalFieldsAreRefusedByCommands : (0 : BitVec 5).toNat = 0 ∧ 16 < (17 : BitVec 5).toNat := by decide

theorem witness_EncodedLengthRelation : PriComplete taPri ∧ (TailPolicy.dual = .dual → TailComplete taTail) :=
  ⟨taPri_complete, fun _ => taTail_complete⟩

/-- The input of vector E3 has a symbol of each kind; and an `ENCODE` that raises an error. -/
theorem witness_SymbolsAreInRange :
    Sym.p11 2047 ∈ encodeSyms .dual [0xFF, 0xFF] ∧ Sym.t6 62 ∈ encodeSyms .dual [0xFF, 0xFF] ∧
      ∃ t, exec .encode State.reset = .next t ∧ State.reset.status.err = false ∧ t.status.err = true :=
  ⟨by decide, by decide, _, rfl, rfl, rfl⟩

theorem witness_DecodedLengthRelation :
    decodeChars .dual taPri taTail [0x66, 0x2F, 0x2B] = .ok [0xFF, 0xFF] ∧ decodeChars .single taPri taTail [] = .ok [] :=
  ⟨test_decodeChars ta, rfl⟩

/-- Both sides: a lone character under `SINGLE` fails, a string of known tokens does not. -/
theorem witness_DecodeFailsAtTheFirstUnknownToken :
    decodeChars .single taPri taTail [0x2B] = .error 0 ∧
      decodeChars .dual taPri taTail [0x66, 0x2F, 0x2B] = .ok [0xFF, 0xFF] := ⟨rfl, test_decodeChars ta⟩

theorem witness_DualRoundTrip : PriComplete taPri ∧ TailComplete taTail := ⟨taPri_complete, taTail_complete⟩

/-- Each defective length, and a length that is none. -/
theorem witness_SingleRoundTripDefect :
    PriComplete taPri ∧ ([1, 2, 3] : List Byte).length % 11 = 3 ∧ (List.replicate 7 (0xFF : Byte)).length % 11 = 7 ∧
      (List.replicate 10 (0xFF : Byte)).length % 11 = 10 ∧ (List.replicate 11 (0xFF : Byte)).length % 11 = 0 :=
  ⟨taPri_complete, by decide, by decide, by decide, by decide⟩

theorem encState_inv (h : Ta pri tail) : (encState pri tail).Inv :=
  { ready_inv h with
    memory := rfl
    reader := Nat.zero_le _
    busy := fun hb => by cases hb }

theorem encState_ready (pri : Vector (Option PriToken) 2048) (tail : Vector (Option Chr) 64) :
    (encState pri tail).EncodeReady 2 3 where
  tables := ⟨rfl, fun _ => rfl⟩
  aligned := by show (0x2000 : Word).toNat % 4 = 0; decide
  capacity := by show 3 ≤ (3 : BitVec 30).toNat; decide
  input := by show (0x1000 : Word).toNat + 2 ≤ 2 ^ 32; decide
  output := by show (0x2000 : Word).toNat + 12 ≤ 2 ^ 32; decide
  apart := by
    show 2 = 0 ∨ 3 = 0 ∨ (0x1000 : Word).toNat + 2 ≤ (0x2000 : Word).toNat ∨
      (0x2000 : Word).toNat + 12 ≤ (0x1000 : Word).toNat
    decide

theorem witness_EncodeStoresTheString :
    (encState taPri taTail).Inv ∧ 3 = encodedLength (encState taPri taTail).params.policy 2 ∧
      (encState taPri taTail).EncodeReady 2 3 ∧ (encState taPri taTail).allows .read 0x1000 2 ∧
      (encState taPri taTail).allows .write 0x2000 12 ∧ (encState taPri taTail).touched = [] ∧
      (encState taPri taTail).stable 0x1000 2 :=
  ⟨encState_inv ta, by decide, encState_ready _ _, fun _ _ => rfl, fun _ _ => rfl, rfl, fun _ _ => ⟨rfl, rfl⟩⟩

/-- Each clause: no table; `CS_BASE` off by 2; one character too few; an input, an output one byte too long; buffers that
share their last and first byte; a refused read; a refused write; both, where the first symbol needs the last input byte,
and where the tail is refused. -/
theorem witness_EncodeErrorsInOrder :
    ¬State.reset.tablesReady ∧ (ready taPri taTail).tablesReady ∧ (0x2002 : Word).toNat % 4 ≠ 0 ∧
    3 = encodedLength (encState taPri taTail).params.policy 2 ∧ (2 : BitVec 30).toNat < 3 ∧
    2 ^ 32 < (0xFFFFFFFF : Word).toNat + 2 ∧
    ((0xFFFFFFF8 : Word).toNat % 4 = 0 ∧ 2 ^ 32 < (0xFFFFFFF8 : Word).toNat + 4 * 3) ∧
    (let b := (0x200B : Word).toNat
     let c := (0x2000 : Word).toNat
     b + 2 ≤ 2 ^ 32 ∧ c + 4 * 3 ≤ 2 ^ 32 ∧ b < c + 4 * 3 ∧ c < b + 2) ∧
    (∀ r w, ({ encState taPri taTail with params := refusingAt r w } : State).EncodeReady 2 3) ∧
    (let s := { encState taPri taTail with params := refusing 0x1001 }
     s.RefusedFirst .read 0x1000 2 0x1001 ∧ s.allows .write 0x2000 12) ∧
    (let s := { encState taPri taTail with params := refusing 0x200B }
     s.allows .read 0x1000 2 ∧ s.RefusedFirst .write 0x2000 12 0x200B) ∧
    (let s := { encState taPri taTail with params := refusingAt 0x1001 0x2000 }
     s.RefusedFirst .read 0x1000 2 0x1001 ∧ s.RefusedFirst .write 0x2000 12 0x2000 ∧
       0x1001 - 0x1000 ≤ (11 * ((0x2000 - 0x2000) / 4 / 2) + 10) / 8) ∧
    (let s := { encState taPri taTail with params := refusingAt 0x1001 0x2008 }
     s.RefusedFirst .read 0x1000 2 0x1001 ∧ s.RefusedFirst .write 0x2000 12 0x2008 ∧
       8 * 2 / 11 ≤ (0x2008 - 0x2000) / 4 / 2) :=
  ⟨fun h => Bool.noConfusion h.1, ⟨rfl, fun _ => rfl⟩, by decide, by decide, by decide, by decide, by decide, by decide,
    fun _ _ => { encState_ready taPri taTail with tables := ⟨rfl, fun _ => rfl⟩ },
    ⟨⟨by decide, by decide, rfl, fun k _ _ => by interval_cases k; rfl⟩, fun k _ => by interval_cases k <;> rfl⟩,
    ⟨fun k _ => by interval_cases k <;> rfl, by decide, by decide, rfl, fun k _ _ => by interval_cases k <;> rfl⟩,
    ⟨⟨by decide, by decide, rfl, fun k _ _ => by interval_cases k; rfl⟩,
      ⟨by decide, by decide, rfl, fun k h1 h2 => absurd h2 (Nat.not_lt.2 h1)⟩, by decide⟩,
    ⟨by decide, by decide, rfl, fun k _ _ => by interval_cases k; rfl⟩,
    ⟨by decide, by decide, rfl, fun k _ _ => by interval_cases k <;> rfl⟩, by decide⟩

theorem decState_inv (h : Ta pri tail) : (decState pri tail).Inv :=
  { ready_inv h with
    memory := by show Memory.wf [_, _, _, _, _] = true; decide
    writer := by show 0 ≤ (2 : BitVec 29).toNat; decide
    reader := by show (16 : Word).toNat ≤ 8 * (2 : BitVec 29).toNat; decide
    writerAddr := by show (0x3000 : Word).toNat + 0 ≤ memSize; decide
    busy := fun hb => by cases hb }

theorem decState_ready (pri : Vector (Option PriToken) 2048) (tail : Vector (Option Chr) 64) :
    (decState pri tail).DecodeReady 3 2 where
  tables := ⟨rfl, fun _ => rfl⟩
  aligned := by show (0x2000 : Word).toNat % 4 = 0; decide
  capacity := by show 2 ≤ (2 : BitVec 29).toNat; decide
  input := by show (0x2000 : Word).toNat + 12 ≤ 2 ^ 32; decide
  output := by show (0x3000 : Word).toNat + 2 ≤ 2 ^ 32; decide
  apart := by
    show 3 = 0 ∨ 2 = 0 ∨ (0x2000 : Word).toNat + 12 ≤ (0x3000 : Word).toNat ∨
      (0x3000 : Word).toNat + 2 ≤ (0x2000 : Word).toNat
    decide

/-- The string that `decState` holds, as the statement reads it. -/
theorem decState_string (pri : Vector (Option PriToken) 2048) (tail : Vector (Option Chr) 64) :
    ([0x66, 0x2F, 0x2B] : List Chr) = (List.range 3).map (fun k => chrOfBytes ((decState pri tail).mem.read (0x2000 + 4 * k))
      ((decState pri tail).mem.read (0x2000 + 4 * k + 1)) ((decState pri tail).mem.read (0x2000 + 4 * k + 2))
      ((decState pri tail).mem.read (0x2000 + 4 * k + 3))) := by
  rw [show (decState pri tail).mem = (decState noPri noTail).mem from rfl]
  decide

/-- Character 0 is in no token of TA. -/
theorem decodeChars_zero (h : Ta pri tail) : decodeChars .dual pri tail [0, 0, 0] = .error 0 := by
  have hn : priInv pri (0, 0) = none := priInv_none.2 fun j hj => by
    by_cases hl : j < 2048
    · exact h.priAbsent j hl hj
    · simp [priToken, hl] at hj
  simp only [decodeChars, decodeBits, hn]

/-- A string of known tokens; and, with empty memory, a string of characters 0. -/
theorem witness_DecodeStoresTheBytes :
    (decState taPri taTail).Inv ∧ (decState taPri taTail).touched = [] ∧
      2 = decodedLength (decState taPri taTail).params.policy 3 ∧ (decState taPri taTail).DecodeReady 3 2 ∧
      (decState taPri taTail).allows .read 0x2000 12 ∧ (decState taPri taTail).allows .write 0x3000 2 ∧
      (decState taPri taTail).stable 0x2000 12 ∧
      decodeChars .dual (decState taPri taTail).pri (decState taPri taTail).tail [0x66, 0x2F, 0x2B] = .ok [0xFF, 0xFF] ∧
      ({ decState taPri taTail with mem := [] } : State).Inv ∧
      decodeChars .dual (decState taPri taTail).pri (decState taPri taTail).tail [0, 0, 0] = .error 0 :=
  ⟨decState_inv ta, rfl, by decide, decState_ready _ _, fun _ _ => rfl, fun _ _ => rfl, fun _ _ => ⟨rfl, rfl⟩,
    test_decodeChars ta, { decState_inv ta with memory := rfl }, decodeChars_zero ta⟩

/-- Each clause: no table; `CS_BASE` off by 2; one byte too few; an input, an output one byte too long; buffers that share
their last and first byte; the last byte of the string refused; an unknown token; known tokens with the last byte of the
output refused. -/
theorem witness_DecodeErrorsInOrder :
    ¬State.reset.tablesReady ∧ (ready taPri taTail).tablesReady ∧ (0x2002 : Word).toNat % 4 ≠ 0 ∧
    2 = decodedLength (decState taPri taTail).params.policy 3 ∧ (1 : BitVec 29).toNat < 2 ∧
    ((0xFFFFFFF8 : Word).toNat % 4 = 0 ∧ 2 ^ 32 < (0xFFFFFFF8 : Word).toNat + 4 * 3) ∧
    2 ^ 32 < (0xFFFFFFFF : Word).toNat + 2 ∧
    (let c := (0x2000 : Word).toNat
     let b := (0x200B : Word).toNat
     c + 4 * 3 ≤ 2 ^ 32 ∧ b + 2 ≤ 2 ^ 32 ∧ c < b + 2 ∧ b < c + 4 * 3) ∧
    (∀ a, ({ decState taPri taTail with params := refusing a } : State).DecodeReady 3 2) ∧
    ({ decState taPri taTail with params := refusing 0x200B } : State).RefusedFirst .read 0x2000 12 0x200B ∧
    (let s := { decState taPri taTail with mem := [] }
     s.DecodeReady 3 2 ∧ s.allows .read 0x2000 12 ∧
       decodeChars s.params.policy s.pri s.tail s.decodeInput = .error 0) ∧
    (let s := { decState taPri taTail with params := refusing 0x3001 }
     s.allows .read 0x2000 12 ∧ decodeChars s.params.policy s.pri s.tail s.decodeInput = .ok [0xFF, 0xFF] ∧
       s.RefusedFirst .write 0x3000 2 0x3001) :=
  have known : ∀ pri tail, Ta pri tail →
      (let s := { decState pri tail with params := refusing 0x3001 }
       decodeChars s.params.policy s.pri s.tail s.decodeInput = .ok [0xFF, 0xFF]) := fun pri tail h => by
    intro s
    have input : s.decodeInput = [0x66, 0x2F, 0x2B] := by
      rw [show s.decodeInput = ({ decState noPri noTail with params := refusing 0x3001 } : State).decodeInput from rfl]
      decide
    rw [input]
    exact test_decodeChars h
  have unknown : ∀ pri tail, Ta pri tail →
      (let s := { decState pri tail with mem := [] }
       decodeChars s.params.policy s.pri s.tail s.decodeInput = .error 0) := fun pri tail h => by
    intro s
    have input : s.decodeInput = [0, 0, 0] := by
      rw [show s.decodeInput = ({ decState noPri noTail with mem := [] } : State).decodeInput from rfl]
      decide
    rw [input]
    exact decodeChars_zero h
  ⟨fun h => Bool.noConfusion h.1, ⟨rfl, fun _ => rfl⟩, by decide, by decide, by decide, by decide, by decide, by decide,
    fun _ => { decState_ready taPri taTail with tables := ⟨rfl, fun _ => rfl⟩ },
    ⟨by decide, by decide, rfl, fun k _ _ => by interval_cases k <;> rfl⟩,
    ⟨{ decState_ready taPri taTail with tables := ⟨rfl, fun _ => rfl⟩ }, fun _ _ => rfl, unknown _ _ ta⟩,
    fun k _ => by interval_cases k <;> rfl, known _ _ ta,
    ⟨by decide, by decide, rfl, fun k _ _ => by interval_cases k; rfl⟩⟩

/-- The states of vectors EC1 and DC4. -/
theorem witness_EncodeThenDecodeRestoresTheInput :
    (encState taPri taTail).Inv ∧ (encState taPri taTail).touched = [] ∧ (encState taPri taTail).params.policy = .dual ∧
      (encState taPri taTail).EncodeReady 2 (encodedLength .dual 2) ∧ (encState taPri taTail).allows .read 0x1000 2 ∧
      (encState taPri taTail).allows .write 0x2000 12 ∧ (encState taPri taTail).stable 0x1000 2 ∧
      (encState taPri taTail).stable 0x2000 12 ∧ exec .encode (encState taPri taTail) = .next (encDone taPri taTail) ∧
      (let u := { encDone taPri taTail with csLen := (encDone taPri taTail).csCnt, bwBase := 0x3000, bwCap := 2 }
       u.DecodeReady 3 2 ∧ u.allows .read 0x2000 12 ∧ u.allows .write 0x3000 2) :=
  ⟨encState_inv ta, rfl, rfl, encState_ready _ _, fun _ _ => rfl, fun _ _ => rfl, fun _ _ => ⟨rfl, rfl⟩,
    fun _ _ => ⟨rfl, rfl⟩, test_encode, decState_ready _ _, fun _ _ => rfl, fun _ _ => rfl⟩

theorem witness_StepKeepsInv :
    (ready taPri taTail).Inv ∧ ∃ t, step (ready taPri taTail) = .next t :=
  have gen : ∀ pri tail, Ta pri tail → (ready pri tail).Inv ∧ ∃ t, step (ready pri tail) = .next t :=
    fun _ _ h => ⟨ready_inv h, _, rfl⟩
  gen _ _ ta

theorem witness_EveryStepGoesOn : (ready taPri taTail).Inv ∧ (writerState 1 3 7 62).Inv := ⟨ready_inv ta, writerState_inv⟩

/-- A completion without an error, one with an error, and one with an error pending before. The second part holds of every
state. -/
theorem witness_CommandsEndCompleted :
    (∃ t, exec .nop (running 0 []) = .next t ∧ t.status.err = false) ∧
    (∃ t, exec (.brRead 1) (running 0x02000001 []) = .next t ∧ t.status.err = true ∧
      (running 0x02000001 []).status.err = false) ∧
    (∃ t, exec .nop (failed []) = .next t ∧ (failed []).status.err = true) :=
  ⟨⟨_, rfl, rfl⟩, ⟨_, rfl, rfl, rfl⟩, _, rfl, rfl⟩

/-- `EndOfStream`; and a refused write. -/
theorem witness_ErrorsArePrecise :
    (∃ t, exec (.brRead 1) (readerState 16) = .next t ∧ (readerState 16).status.err = false ∧ t.status.err = true ∧
      t.errCode = 4) ∧
    (let s := { writerState 0 0 0 0xFF with params := refusing 0x3000 }
     ∃ t, exec (.bwWrite 8) s = .next t ∧ s.status.err = false ∧ t.status.err = true ∧ t.errCode = 0x0C ∧
       s.mem.wf = true) :=
  ⟨⟨_, rfl, rfl, rfl, rfl⟩, _, rfl, rfl, rfl, rfl, rfl⟩

theorem witness_NoCommandWritesHostRegisters : ∃ t, exec (.bwWrite 6) (writerState 1 3 7 62) = .next t := ⟨_, rfl⟩

/-- Commands that differ from the ones each clause excludes. -/
theorem witness_EachCommandWritesOnlyItsRegisters :
    (∃ t, exec .nop (writerState 1 3 7 62) = .next t) ∧ (∃ t, exec (.tblClear 3) State.reset = .next t) ∧
      ∃ t, exec .encode (encState taPri taTail) = .next t :=
  ⟨⟨_, rfl⟩, ⟨_, rfl⟩, _, test_encode⟩

/-- Committed tables that stay, and ones that a clear of each selection, and both resets, empty. -/
theorem witness_CommittedTablesAreNeverMutated :
    (∃ t, step (ready taPri taTail) = .next t) ∧ (ready taPri taTail).status.priValid = true ∧
      (ready taPri taTail).status.tailValid = true ∧ decode 0x08000001 = .ok (.tblClear 1) ∧
      decode 0x08000002 = .ok (.tblClear 2) ∧ (1 : BitVec 2).getLsbD 0 = true ∧ (2 : BitVec 2).getLsbD 1 = true :=
  have gen : ∀ pri tail, ∃ t, step (ready pri tail) = .next t := fun _ _ => ⟨_, rfl⟩
  ⟨gen _ _, rfl, rfl, by decide, by decide, rfl, rfl⟩

/-- A write of `CMD`, and a reset, while an error is pending. -/
theorem witness_ErrorsDoNotNest :
    (∃ t, step (failed [hostWr 0 .cmd 0]) = .next t ∧ (failed [hostWr 0 .cmd 0]).status.busy = false ∧
      (failed [hostWr 0 .cmd 0]).status.err = true) ∧
    ∃ t, step (failed [.hardReset]) = .next t := ⟨⟨_, rfl, rfl, rfl⟩, _, rfl⟩

theorem witness_ParametersNeverChange : ∃ t, step (idle [hostWr 0 .ctrl 2]) = .next t := ⟨_, rfl⟩

/-- The last word of the address space. -/
theorem witness_StringsReadBackLittleEndian :
    Memory.wf [] = true ∧ (2 ^ 32 - 4) + 4 * ([0x12345678] : List Chr).length ≤ 2 ^ 32 := by decide

/-- The last byte of memory, written idle and while `ENCODE` runs, and read idle and outside the buffers of a running
`ENCODE` whose input is the byte before, and read while a word that is no command is in flight. -/
theorem witness_HostMemoryAccesses :
    (let s := idle [.memWrite 0xFFFFFFFF 1]
     s.inputs = .memWrite 0xFFFFFFFF 1 :: [] ∧ s.mem.wf = true ∧ s.status.busy = false) ∧
    (running 0x10000000 [.memWrite 0xFFFFFFFF 1]).status.busy = true ∧
    (let s := idle [.memRead 0xFFFFFFFF]
     s.inputs = .memRead 0xFFFFFFFF :: [] ∧ s.status.busy = false) ∧
    (let s := { running 0x10000000 [.memRead 0xFFFFFFFF] with brBase := 0xFFFFFFFE, brLen := 1 }
     s.inputs = .memRead 0xFFFFFFFF :: [] ∧ s.status.busy = true ∧ decode s.lastCmd = .ok .encode ∧
       ∀ r ∈ s.buffers .encode, ¬(r.base ≤ (0xFFFFFFFF : Word).toNat ∧ (0xFFFFFFFF : Word).toNat < r.base + r.size)) ∧
    (let s := running 0x12000000 [.memRead 0xFFFFFFFF]
     s.inputs = .memRead 0xFFFFFFFF :: [] ∧ s.status.busy = true ∧ decode s.lastCmd = .error .undefinedOpcode) := by
  decide

end Sys2Proof.Tests
end

section
/-! PROOFS of the family `00_scope.md`: each agent's part of a step keeps the parameters, and so every step does. -/

namespace Sys2Proof.Machine

/-! ### The engine -/

/-- A command's effect leaves the parameters: they are none of the registers that `Completes.frame` lists. -/
theorem Completes.params_eq {s u : State} {i : Instr} (h : Completes s i u) : u.params = s.params := by
  rw [h.frame]

theorem exec_params {i : Instr} {s t : State} (h : exec i s = .next t) : t.params = s.params := by
  obtain ⟨u, hu, rfl⟩ | ⟨e, rfl⟩ | ⟨a, rfl⟩ := exec_cases h
  · rw [State.complete_params, hu.params_eq]
  · exact State.raise_params s e
  · exact State.raiseBus_params s a _ _

theorem runCommand_params {s t : State} (h : s.runCommand = .next t) : t.params = s.params := by
  obtain ⟨i, -, hi⟩ | ⟨-, rfl⟩ := runCommand_cases h
  · exact exec_params hi
  · exact State.raise_params s _

/-! ### The host and the platform -/

theorem State.issue_params (s : State) (w : Word) : (s.issue w).params = s.params := by
  rw [State.issue]
  split
  · exact s.dropWrite_params
  · exact s.accept_params w

theorem State.writeCtrl_params (s : State) (v : Word) : (s.writeCtrl v).params = s.params := by
  rw [State.writeCtrl]
  split
  · exact s.toReset_params
  · rfl

/-- Of the registers' writes only those of `CTRL` and `CMD` branch; each of the others is one update of the state. -/
theorem State.writeReg_params (s : State) (v : Word) (r : Reg) : (s.writeReg v r).params = s.params := by
  cases r with
  | ctrl => exact s.writeCtrl_params v
  | cmd => exact s.issue_params v
  | _ => rfl

theorem State.hostWrite_params (s : State) (addr bits : Nat) (v : Word) :
    (s.hostWrite addr bits v).params = s.params := by
  obtain h | h | h | ⟨r, -, -, -, h⟩ := hostWrite_cases s addr bits v <;> rw [h]
  split
  · exact s.dropWrite_params
  · exact s.writeReg_params v r

theorem State.hostRead_params (s : State) (addr bits : Nat) : (s.hostRead addr bits).params = s.params := by
  rw [State.hostRead]
  split_ifs <;> rfl

theorem State.input_params (s : State) (i : Input) : (s.input i).params = s.params := by
  cases i with
  | regWrite addr bits v => exact s.hostWrite_params addr bits v
  | regRead addr bits => exact s.hostRead_params addr bits
  | memWrite | memRead | hardReset | turn => rfl

/-! ### The step -/

/-- Settles O58, by the cases of a step: an idle machine, the engine's run of the accepted command, or one input. -/
theorem parametersNeverChange : Obligations.ParametersNeverChange := by
  intro s t h
  obtain ⟨-, ⟨-, rfl⟩ | ⟨rest, -, rfl⟩⟩ | ⟨-, rest, -, hrun⟩ | ⟨i, rest, -, -, rfl⟩ := step_cases h
  · rfl
  · rfl
  · rw [runCommand_params hrun]
  · exact State.input_params _ i

end Sys2Proof.Machine
end

section
/-! PROOFS of the family `10_state.md`: what each kind of host access does, and the registers' values as sums of their
fields; what each command's effect keeps, from the guards and effects that `Completes` lists; and the invariants, which
hold at reset and which commands, host accesses and resets each keep. -/

namespace Sys2Proof.Machine

open Sys2Proof.Config

/-! ### Window accesses -/

/-- A read at a register's offset (R15, R18). -/
theorem State.windowRead_offset (s : State) (r : Reg) :
    s.windowRead r.offset = if s.status.busy && !r.definedWhileBusy then busyWord s.draws else s.regValue r := by
  rw [State.windowRead, regAt_offset]

/-- A write at a register's offset (R15, R17). -/
theorem State.windowWrite_offset (s : State) (r : Reg) (v : Word) :
    s.windowWrite r.offset v = if s.status.busy && r.droppedWhileBusy then s.dropWrite else s.writeReg v r := by
  rw [State.windowWrite, regAt_offset]

/-- The offsets from 0x5C on are reserved (R15). -/
theorem regAt_reserved {k : Nat} (h : 0x5C ≤ k) : regAt k = none := by
  unfold regAt
  split
  case h_24 => rfl
  all_goals omega

theorem State.windowRead_reserved (s : State) {k : Nat} (h : 0x5C ≤ k) : s.windowRead k = 0 := by
  rw [State.windowRead, regAt_reserved h]

theorem State.windowWrite_reserved (s : State) {k : Nat} (h : 0x5C ≤ k) (v : Word) : s.windowWrite k v = s := by
  rw [State.windowWrite, regAt_reserved h]

theorem State.inWindow_iff {s : State} {addr : Nat} :
    s.inWindow addr = true ↔ s.params.regBase ≤ addr ∧ addr < s.params.regBase + 256 := by
  simp [State.inWindow]

theorem accessOK_iff {addr bits : Nat} : accessOK addr bits = true ↔ bits = 32 ∧ addr % 4 = 0 := by
  simp [accessOK]

/-- A write of the window of another width or alignment (R16). -/
theorem State.hostWrite_bad {s : State} {addr bits : Nat} (v : Word) (hw : s.inWindow addr = true)
    (ha : accessOK addr bits = false) : s.hostWrite addr bits v = { s with resp := .busErrorResponse } := by
  rw [State.hostWrite, if_neg (by simp [hw]), if_pos ha]

/-- A read of the window of another width or alignment (R16). -/
theorem State.hostRead_bad {s : State} {addr bits : Nat} (hw : s.inWindow addr = true)
    (ha : accessOK addr bits = false) : s.hostRead addr bits = { s with resp := .busErrorResponse } := by
  rw [State.hostRead, if_neg (by simp [hw]), if_pos ha]

/-- An aligned 32-bit write of the window (R15). -/
theorem State.hostWrite_aligned {s : State} {addr : Nat} (v : Word) (hw : s.inWindow addr = true) (h4 : addr % 4 = 0) :
    s.hostWrite addr 32 v = { s.windowWrite (addr - s.params.regBase) v with resp := .ack } := by
  rw [State.hostWrite, if_neg (by simp [hw]), if_neg (by simp [accessOK_iff.2 ⟨rfl, h4⟩])]

/-- An aligned 32-bit read of the window (R15). -/
theorem State.hostRead_aligned {s : State} {addr : Nat} (hw : s.inWindow addr = true) (h4 : addr % 4 = 0) :
    s.hostRead addr 32 = { s with resp := .word (s.windowRead (addr - s.params.regBase)) } := by
  rw [State.hostRead, if_neg (by simp [hw]), if_neg (by simp [accessOK_iff.2 ⟨rfl, h4⟩])]

theorem step_regWrite {s : State} {addr bits : Nat} {v : Word} {rest : List Input}
    (h : s.inputs = .regWrite addr bits v :: rest) :
    step s = .next (State.hostWrite { s with inputs := rest, draws := s.draws + 1 } addr bits v) := by
  rw [step, State.move, h]
  rfl

theorem step_regRead {s : State} {addr bits : Nat} {rest : List Input} (h : s.inputs = .regRead addr bits :: rest) :
    step s = .next (State.hostRead { s with inputs := rest, draws := s.draws + 1 } addr bits) := by
  rw [step, State.move, h]
  rfl

/-- A step on a host write of a register that is not dropped (R17). -/
theorem step_writeReg {s : State} {r : Reg} {v : Word} {rest : List Input} (h4 : s.params.regBase % 4 = 0)
    (h : s.inputs = hostWr s.params.regBase r v :: rest) (hd : (s.status.busy && r.droppedWhileBusy) = false) :
    step s = .next { State.writeReg { s with inputs := rest, draws := s.draws + 1 } v r with resp := .ack } := by
  rw [step_hostWr h4 h, State.windowWrite_offset, if_neg (by simp [hd])]

/-- A step on a host write of a register that is dropped (R17). -/
theorem step_dropWrite {s : State} {r : Reg} {v : Word} {rest : List Input} (h4 : s.params.regBase % 4 = 0)
    (h : s.inputs = hostWr s.params.regBase r v :: rest) (hd : (s.status.busy && r.droppedWhileBusy) = true) :
    step s = .next { State.dropWrite { s with inputs := rest, draws := s.draws + 1 } with resp := .ack } := by
  rw [step_hostWr h4 h, State.windowWrite_offset, if_pos hd]

theorem State.writeCtrl_ie (s : State) {v : Word} (h : v.getLsbD 1 = false) :
    s.writeCtrl v = { s with ie := v.getLsbD 0 } := by
  rw [State.writeCtrl, h, if_neg Bool.false_ne_true]

theorem State.writeCtrl_srst (s : State) {v : Word} (h : v.getLsbD 1 = true) : s.writeCtrl v = s.toReset := by
  rw [State.writeCtrl, if_pos h]

/-- The registers of R17. -/
theorem Reg.droppedWhileBusy_of_mem :
    ∀ r ∈ [Reg.cmd, .val, .tok0, .tok1, .brBase, .brLen, .bwBase, .bwCap, .csBase, .csLen, .csCap],
      r.droppedWhileBusy = true := by decide

/-- The registers of R18. -/
theorem Reg.definedWhileBusy_of_mem :
    ∀ r ∈ [Reg.id, .cfg, .ctrl, .status, .cmd], r.definedWhileBusy = true := by decide

/-- The registers that are constants or the engine's alone ignore a write (R15). -/
theorem writeReg_readOnly {r : Reg}
    (hr : r ∈ [Reg.id, .cfg, .errCode, .errInfo, .res, .brPos, .brRem, .bwCnt, .bwAcc, .csCnt]) :
    r.droppedWhileBusy = false ∧ ∀ (s : State) (v : Word), s.writeReg v r = s := by
  cases r with
  | ctrl | status | cmd | val | tok0 | tok1 | brBase | brLen | bwBase | bwCap | csBase | csLen | csCap =>
    exact absurd hr (by decide)
  | _ => exact ⟨rfl, fun _ _ => rfl⟩

/-- Settles O10: a busy write of `CMD` or an operand register is a dropped one, and `CTRL` and `STATUS` are never
dropped. -/
theorem writesWhileBusyAreDropped : Obligations.WritesWhileBusyAreDropped := by
  intro s r v rest h4 h
  refine ⟨fun hb hr => ?_, ?_, ?_, ?_⟩
  · rw [step_dropWrite h4 h (by rw [hb, r.droppedWhileBusy_of_mem hr, Bool.and_self])]
    rfl
  · rintro rfl hv
    rw [step_writeReg h4 h (Bool.and_false _), State.writeReg, State.writeCtrl_ie _ hv]
  · rintro rfl hv
    rw [step_writeReg h4 h (Bool.and_false _), State.writeReg, State.writeCtrl_srst _ hv]
    exact ⟨_, rfl⟩
  · rintro rfl
    rw [step_writeReg h4 h (Bool.and_false _)]
    rfl

/-- Settles O13: the access's kind decides what it does, whatever `BUSY` is. -/
theorem badReadOnlyAndReservedAccessesChangeNothing : Obligations.BadReadOnlyAndReservedAccessesChangeNothing := by
  intro s addr bits v rest hlo hhi
  have hw : State.inWindow { s with inputs := rest, draws := s.draws + 1 } addr = true :=
    State.inWindow_iff.2 ⟨hlo, hhi⟩
  refine ⟨fun hbad h => ?_, fun r hr ha h4 h => ?_, fun hres h4 => ⟨fun h => ?_, fun h => ?_⟩⟩
  · have hok : accessOK addr bits = false := by
      rw [← Bool.not_eq_true, accessOK_iff]
      omega
    rcases h with h | h
    · rw [step_regWrite h, State.hostWrite_bad v hw hok]
    · rw [step_regRead h, State.hostRead_bad hw hok]
  · obtain ⟨hdrop, hkeep⟩ := writeReg_readOnly hr
    have hoff : addr - s.params.regBase = r.offset := Nat.sub_eq_of_eq_add' ha
    rw [step_regWrite h, State.hostWrite_aligned v hw h4, hoff, State.windowWrite_offset, hdrop, Bool.and_false,
      if_neg Bool.false_ne_true, hkeep]
  · rw [step_regRead h, State.hostRead_aligned hw h4, State.windowRead_reserved _ (Nat.le_sub_of_add_le' hres)]
  · rw [step_regWrite h, State.hostWrite_aligned v hw h4, State.windowWrite_reserved _ (Nat.le_sub_of_add_le' hres)]

/-- Settles O11: only the registers outside the list of R18 are undefined, and only while `BUSY = 1`. -/
theorem readsReturnRegisterValues : Obligations.ReadsReturnRegisterValues := by
  intro s r rest h4 h
  refine ⟨⟨_, step_hostRd h4 h⟩, fun hdef => ?_⟩
  have hread : (s.status.busy && !r.definedWhileBusy) = false := by
    rcases hdef with hb | hr
    · rw [hb, Bool.false_and]
    · rw [r.definedWhileBusy_of_mem hr, Bool.not_true, Bool.and_false]
  rw [step_hostRd h4 h, State.windowRead_offset, if_neg (by simp [hread])]
  cases r <;> rfl

/-- Settles O14: an idle write is not dropped, and each operand register's write is one update of the state. -/
theorem idleWritesSetOperandRegisters : Obligations.IdleWritesSetOperandRegisters := by
  intro s r v rest h4 hb h q
  have hstep := step_writeReg h4 h (by rw [hb, Bool.false_and])
  refine ⟨?_, ?_, ?_, ?_, ?_, ?_, ?_, ?_, ?_, ?_⟩ <;> (rintro rfl; exact hstep)

/-! ### The registers' values -/

theorem flagBit_toNat (b : Bool) {i : Nat} (hi : i < 32) : (flagBit b i).toNat = b.toNat * 2 ^ i := by
  have hp : 2 ^ i < 2 ^ 32 := Nat.pow_lt_pow_right (by norm_num) hi
  cases b with
  | false => simp [flagBit]
  | true => rw [flagBit, if_pos rfl, BitVec.toNat_ofNat, Nat.mod_eq_of_lt hp, Bool.toNat_true, Nat.one_mul]

/-- A flag above the bits of a word adds its weight. -/
theorem or_flagBit_toNat {w : Word} (b : Bool) {i : Nat} (hi : i < 32) (hw : w.toNat < 2 ^ i) :
    (w ||| flagBit b i).toNat = w.toNat + b.toNat * 2 ^ i := by
  rw [BitVec.toNat_or, flagBit_toNat b hi, Nat.or_comm, Nat.mul_comm, ← Nat.two_pow_add_eq_or_of_lt hw, Nat.add_comm]

theorem or_flagBit_lt {w : Word} (b : Bool) {i : Nat} (hi : i < 32) (hw : w.toNat < 2 ^ i) :
    (w ||| flagBit b i).toNat < 2 ^ (i + 1) := by
  have hb : b.toNat * 2 ^ i ≤ 1 * 2 ^ i := Nat.mul_le_mul_right _ b.toNat_le
  rw [or_flagBit_toNat b hi hw, Nat.pow_succ]
  omega

/-- The flags of `STATUS` at their places (R22). -/
theorem Status.word_toNat (t : Status) :
    t.word.toNat = t.busy.toNat + 2 * t.done.toNat + 4 * t.err.toNat + 8 * t.ovr.toNat + 16 * t.priValid.toNat +
      32 * t.tailValid.toNat + 64 * t.bwClosed.toNat := by
  have h0 : (flagBit t.busy 0).toNat < 2 ^ 1 := by
    rw [flagBit_toNat _ (by norm_num)]
    exact Nat.lt_succ_of_le (by simpa using t.busy.toNat_le)
  have h1 := or_flagBit_lt t.done (by norm_num) h0
  have h2 := or_flagBit_lt t.err (by norm_num) h1
  have h3 := or_flagBit_lt t.ovr (by norm_num) h2
  have h4 := or_flagBit_lt t.priValid (by norm_num) h3
  have h5 := or_flagBit_lt t.tailValid (by norm_num) h4
  rw [Status.word, or_flagBit_toNat _ (by norm_num) h5, or_flagBit_toNat _ (by norm_num) h4,
    or_flagBit_toNat _ (by norm_num) h3, or_flagBit_toNat _ (by norm_num) h2, or_flagBit_toNat _ (by norm_num) h1,
    or_flagBit_toNat _ (by norm_num) h0, flagBit_toNat _ (by norm_num)]
  ring

/-- The fields of `BW_ACC` at their places (R36). -/
theorem State.accWord_toNat (s : State) : s.accWord.toNat = s.accv.toNat + 256 * s.accn.toNat := by
  have hv : s.accv.toNat < 2 ^ 8 := lt_trans s.accv.isLt (by norm_num)
  have hn := s.accn.isLt
  have hs : (s.accn.setWidth 32 <<< 8).toNat = 2 ^ 8 * s.accn.toNat := by
    rw [BitVec.toNat_shiftLeft, BitVec.toNat_setWidth, Nat.shiftLeft_eq]
    omega
  rw [State.accWord, BitVec.toNat_or, hs, BitVec.toNat_setWidth, Nat.mod_eq_of_lt (by omega), Nat.or_comm,
    ← Nat.two_pow_add_eq_or_of_lt hv]
  omega

/-- `BR_REM` fits its register, since `BR_LEN` has 29 bits (R30, R32). -/
theorem State.brRemWord_toNat (s : State) : s.brRemWord.toNat = 8 * s.brLen.toNat - s.brPos.toNat := by
  have h := s.brLen.isLt
  rw [State.brRemWord, BitVec.toNat_ofNat, State.brRemaining]
  omega

/-- Settles O12: the narrow registers are zero-extended, and the packed ones are their fields' weights. -/
theorem registerValuesAreTheFields : Obligations.RegisterValuesAreTheFields := by
  intro s hs
  have hpolicy : ∀ p, s.params.policy = p → s.regValue .cfg = cfgWord p := fun p hp => congrArg cfgWord hp
  refine ⟨rfl, hpolicy .dual, hpolicy .single, ?_, s.status.word_toNat, ?_, rfl, rfl, rfl, rfl, rfl, rfl, rfl, ?_, rfl,
    s.brRemWord_toNat, hs.reader, rfl, ?_, ?_, s.accWord_toNat, rfl, ?_, ?_, ?_⟩
  case refine_1 =>
    show (flagBit s.ie 0).toNat = _
    rw [flagBit_toNat _ (by norm_num), Nat.pow_zero, Nat.mul_one]
  all_goals exact BitVec.toNat_setWidth_of_le (by norm_num)

/-- Settles O17: each register's value at reset, and the entries of an empty table. -/
theorem resetReadsTheResetColumn : Obligations.ResetReadsTheResetColumn := by
  refine ⟨rfl, rfl, fun r hid hcfg => ?_, rfl, rfl, rfl, rfl, fun i _ => priToken_replicate i,
    fun j _ => tailToken_replicate j⟩
  have hidle : State.reset.windowRead r.offset = State.reset.regValue r := State.windowRead_offset _ r
  rw [hidle]
  cases r with
  | id => exact absurd rfl hid
  | cfg => exact absurd rfl hcfg
  | _ => rfl

/-! ### The registers a command writes -/

/-- An emission changes only memory and `BW_CNT` (R97). -/
theorem State.emit_frame {s u : State} {bs : List Byte} (h : s.emit bs = .ok u) :
    u = { s with mem := u.mem, bwCnt := u.bwCnt } := by
  obtain ⟨-, rfl⟩ | ⟨-, -, -, rfl⟩ := State.emit_ok h <;> rfl

/-- Settles O54: none of these registers is in the frame of an effect, and an error writes none of them. -/
theorem noCommandWritesHostRegisters : Obligations.NoCommandWritesHostRegisters := by
  intro i s t h
  obtain ⟨u, hu, rfl⟩ | ⟨e, rfl⟩ | ⟨a, rfl⟩ := exec_cases h
  · rw [hu.frame]
    simp
  · simp
  · simp

/-- The commands that store no byte have an empty output range (R53). -/
theorem State.raiseBus_mem_of_no_store (s : State) (a : Nat) {i : Instr} (hw : ∀ n, i ≠ .bwWrite n)
    (hf : ∀ p, i ≠ .bwFinal p) (he : i ≠ .encode) (hd : i ≠ .decode) :
    (s.raiseBus a (s.outputRange i).base (s.outputRange i).size).mem = s.mem := by
  cases i with
  | bwWrite n => exact absurd rfl (hw n)
  | bwFinal p => exact absurd rfl (hf p)
  | encode => exact absurd rfl he
  | decode => exact absurd rfl hd
  | _ => rfl

/-- Settles O55: each effect is an update of the registers its rule names, an error writes none of them, and a
`BusError` writes memory only in the output range. -/
theorem eachCommandWritesOnlyItsRegisters : Obligations.EachCommandWritesOnlyItsRegisters := by
  intro i s t h
  obtain ⟨u, hu, rfl⟩ | ⟨e, rfl⟩ | ⟨a, rfl⟩ := exec_cases h
  · cases hu with
    | bwWrite n hn hc u hu =>
      rw [State.emit_frame hu]
      simp
    | bwFinal p hc u hu =>
      rw [State.emit_frame hu]
      simp
    | tblClear sel hs => cases selTail sel <;> cases selPri sel <;> simp
    | _ => simp
  · simp
  · simpa using s.raiseBus_mem_of_no_store a (i := i)

/-! ### Committed tables -/

/-- Only `TBL_WR_PRI`, which a committed table refuses, and `TBL_CLEAR` change the primary table (R41). -/
theorem Completes.pri_committed {s u : State} {i : Instr} (h : Completes s i u) (hv : s.status.priValid = true) :
    (u.status.priValid = true ∧ u.pri = s.pri) ∨ ∃ sel, i = .tblClear sel ∧ sel.getLsbD 0 = true := by
  cases h with
  | bwWrite n hn hc u hu =>
    rw [State.emit_frame hu]
    exact .inl ⟨hv, rfl⟩
  | bwFinal p hc u hu =>
    rw [State.emit_frame hu]
    exact .inl ⟨hv, rfl⟩
  | tblClear sel hs =>
    cases hsel : selPri sel with
    | true => exact .inr ⟨sel, rfl, hsel⟩
    | false => cases selTail sel <;> exact .inl ⟨hv, rfl⟩
  | tblCommit sel hs hc => exact .inl ⟨by simp [hv], rfl⟩
  | tblWrPri idx hw => exact absurd hv (by simp [hw])
  | _ => exact .inl ⟨hv, rfl⟩

/-- Only `TBL_WR_TAIL`, which a committed table refuses, and `TBL_CLEAR` change the tail table (R41). -/
theorem Completes.tail_committed {s u : State} {i : Instr} (h : Completes s i u) (hv : s.status.tailValid = true) :
    (u.status.tailValid = true ∧ u.tail = s.tail) ∨ ∃ sel, i = .tblClear sel ∧ sel.getLsbD 1 = true := by
  cases h with
  | bwWrite n hn hc u hu =>
    rw [State.emit_frame hu]
    exact .inl ⟨hv, rfl⟩
  | bwFinal p hc u hu =>
    rw [State.emit_frame hu]
    exact .inl ⟨hv, rfl⟩
  | tblClear sel hs =>
    cases hsel : selTail sel with
    | true => exact .inr ⟨sel, rfl, hsel⟩
    | false => cases selPri sel <;> exact .inl ⟨hv, rfl⟩
  | tblCommit sel hs hc => exact .inl ⟨by simp [hv], rfl⟩
  | tblWrTail idx hw => exact absurd hv (by simp [hw])
  | _ => exact .inl ⟨hv, rfl⟩

/-- The tables, and which of them are committed, are the same in both states. -/
def SameTables (s t : State) : Prop :=
  t.status.priValid = s.status.priValid ∧ t.status.tailValid = s.status.tailValid ∧ t.pri = s.pri ∧ t.tail = s.tail

/-- The run of the accepted word keeps the tables, unless a command completes (R74, R121). -/
theorem runCommand_tables {s t : State} (h : s.runCommand = .next t) :
    SameTables s t ∨ ∃ i u, decode s.lastCmd = .ok i ∧ Completes s i u ∧ t = u.complete := by
  obtain ⟨i, hd, hi⟩ | ⟨-, rfl⟩ := runCommand_cases h
  · obtain ⟨u, hu, rfl⟩ | ⟨e, rfl⟩ | ⟨a, rfl⟩ := exec_cases hi
    · exact .inr ⟨i, u, hd, hu, rfl⟩
    · exact .inl ⟨rfl, rfl, rfl, rfl⟩
    · exact .inl ⟨rfl, rfl, rfl, rfl⟩
  · exact .inl ⟨rfl, rfl, rfl, rfl⟩

/-- Of the registers' writes only a soft reset changes the tables (R21, R136). -/
theorem State.writeReg_tables (s : State) (v : Word) (r : Reg) :
    SameTables s (s.writeReg v r) ∨ (r = .ctrl ∧ v.getLsbD 1 = true) := by
  cases r with
  | ctrl =>
    cases hv : v.getLsbD 1 with
    | true => exact .inr ⟨rfl, rfl⟩
    | false =>
      rw [State.writeReg, State.writeCtrl_ie s hv]
      exact .inl ⟨rfl, rfl, rfl, rfl⟩
  | cmd =>
    rw [State.writeReg, State.issue]
    split <;> exact .inl ⟨rfl, rfl, rfl, rfl⟩
  | _ => exact .inl ⟨rfl, rfl, rfl, rfl⟩

/-- A host write keeps the tables, unless it is a soft reset. -/
theorem State.hostWrite_tables (s : State) (addr bits : Nat) (v : Word) :
    SameTables s (s.hostWrite addr bits v) ∨
      (addr = s.params.regBase + 0x08 ∧ bits = 32 ∧ v.getLsbD 1 = true) := by
  obtain h | h | h | ⟨r, ha, hb, -, h⟩ := hostWrite_cases s addr bits v
  · exact .inl (by rw [h]; exact ⟨rfl, rfl, rfl, rfl⟩)
  · exact .inl (by rw [h]; exact ⟨rfl, rfl, rfl, rfl⟩)
  · exact .inl (by rw [h]; exact ⟨rfl, rfl, rfl, rfl⟩)
  · rw [h]
    split
    · exact .inl ⟨rfl, rfl, rfl, rfl⟩
    · obtain hk | ⟨rfl, hv⟩ := s.writeReg_tables v r
      · exact .inl hk
      · exact .inr ⟨ha, hb, hv⟩

/-- An input keeps the tables, unless it is a reset. -/
theorem State.input_tables (s : State) (i : Input) :
    SameTables s (s.input i) ∨ i = .hardReset ∨
      ∃ v, v.getLsbD 1 = true ∧ i = .regWrite (s.params.regBase + 0x08) 32 v := by
  cases i with
  | regWrite addr bits v =>
    obtain hk | ⟨rfl, rfl, hv⟩ := s.hostWrite_tables addr bits v
    · exact .inl hk
    · exact .inr (.inr ⟨v, hv, rfl⟩)
  | regRead addr bits =>
    rw [State.input, State.hostRead]
    split_ifs <;> exact .inl ⟨rfl, rfl, rfl, rfl⟩
  | hardReset => exact .inr (.inl rfl)
  | memWrite | memRead | turn => exact .inl ⟨rfl, rfl, rfl, rfl⟩

/-- A step keeps the tables, unless a command completes or a reset comes. -/
theorem step_tables {s t : State} (h : step s = .next t) :
    SameTables s t ∨
    (s.status.busy = true ∧ ∃ i rest u, decode s.lastCmd = .ok i ∧
      Completes { s with inputs := rest, draws := s.draws + 1 } i u ∧ t = u.complete) ∨
    ((∃ rest, s.inputs = .hardReset :: rest) ∨
      ∃ v rest, v.getLsbD 1 = true ∧ s.inputs = .regWrite (s.params.regBase + 0x08) 32 v :: rest) := by
  obtain ⟨-, ⟨-, rfl⟩ | ⟨rest, -, rfl⟩⟩ | ⟨hb, rest, -, hrun⟩ | ⟨i, rest, -, hi, rfl⟩ := step_cases h
  · exact .inl ⟨rfl, rfl, rfl, rfl⟩
  · exact .inl ⟨rfl, rfl, rfl, rfl⟩
  · obtain hk | ⟨i, u, hd, hu, rfl⟩ := runCommand_tables hrun
    · exact .inl hk
    · exact .inr (.inl ⟨hb, i, rest, u, hd, hu, rfl⟩)
  · obtain hk | rfl | ⟨v, hv, rfl⟩ := State.input_tables { s with inputs := rest, draws := s.draws + 1 } i
    · exact .inl hk
    · exact .inr (.inr (.inl ⟨rest, hi⟩))
    · exact .inr (.inr (.inr ⟨v, rest, hv, hi⟩))

/-- Settles O56: of the parts of a step, only a command's effect and a reset change the tables. -/
theorem committedTablesAreNeverMutated : Obligations.CommittedTablesAreNeverMutated := by
  intro s t h resets clears
  obtain ⟨hpv, htv, hp, ht⟩ | ⟨hb, i, rest, u, hd, hu, rfl⟩ | hreset := step_tables h
  · exact ⟨fun hv => .inl ⟨hpv.trans hv, hp⟩, fun hv => .inl ⟨htv.trans hv, ht⟩⟩
  · refine ⟨fun hv => ?_, fun hv => ?_⟩
    · obtain hk | ⟨sel, rfl, hsel⟩ := hu.pri_committed hv
      · exact .inl hk
      · exact .inr (.inl ⟨hb, sel, hd, hsel⟩)
    · obtain hk | ⟨sel, rfl, hsel⟩ := hu.tail_committed hv
      · exact .inl hk
      · exact .inr (.inl ⟨hb, sel, hd, hsel⟩)
  · exact ⟨fun _ => .inr (.inr hreset), fun _ => .inr (.inr hreset)⟩

/-! ### The lengths of what the codec answers -/

/-- The characters of a symbol's token: two of a primary symbol, one of a tail symbol (R5, R105). -/
def Sym.chars : Sym → Nat
  | .p11 _ => 2
  | .t6 _ => 1

theorem symToken_length {pri : Vector (Option PriToken) 2048} {tail : Vector (Option Chr) 64} {y : Sym} {cs : List Chr}
    (h : symToken pri tail y = some cs) : cs.length = y.chars := by
  cases y with
  | p11 u =>
    obtain ⟨t, -, rfl⟩ := Option.map_eq_some_iff.1 h
    rfl
  | t6 u =>
    obtain ⟨c, -, rfl⟩ := Option.map_eq_some_iff.1 h
    rfl

theorem symsChars_length {pri : Vector (Option PriToken) 2048} {tail : Vector (Option Chr) 64} {ys : List Sym}
    {cs : List Chr} (h : symsChars pri tail ys = some cs) : cs.length = (ys.map Sym.chars).sum := by
  induction ys generalizing cs with
  | nil =>
    cases h
    rfl
  | cons y ys ih =>
    rw [symsChars] at h
    split at h
    · rename_i c rest hy hrest
      cases h
      rw [List.length_append, symToken_length hy, ih hrest, List.map_cons, List.sum_cons]
    · cases h

/-- `C(L)` counts the characters of the symbols' tokens (R104, R106). -/
theorem encodeSyms_chars (policy : TailPolicy) (b : List Byte) :
    ((encodeSyms policy b).map Sym.chars).sum = encodedLength policy b.length := by
  have hgroups : ∀ us : List Nat, ((us.map Sym.p11).map Sym.chars).sum = 2 * us.length := by
    intro us
    induction us with
    | nil => rfl
    | cons u us ih =>
      rw [List.map_cons, List.map_cons, List.sum_cons, ih, List.length_cons, Sym.chars]
      ring
  rw [encodeSyms_eq, List.map_append, List.sum_append, hgroups, List.length_map, List.length_range, tailSyms]
  unfold encodedLength
  congr 1
  by_cases h0 : tailBits b.length = 0
  · rw [if_pos h0, if_pos h0]
    rfl
  · rw [if_neg h0, if_neg h0]
    cases policy with
    | dual => by_cases h6 : tailBits b.length ≤ 6 <;> simp [h6, Sym.chars]
    | single => simp [Sym.chars]

theorem encodeChars_length {policy : TailPolicy} {pri : Vector (Option PriToken) 2048} {tail : Vector (Option Chr) 64}
    {b : List Byte} {str : List Chr} (h : encodeChars policy pri tail b = some str) :
    str.length = encodedLength policy b.length := by
  rw [symsChars_length h, encodeSyms_chars]

/-- A decoded string has 11 bits for each pair and 6 for a last single character, which only `DUAL` has (R111, R112). -/
theorem decodeBits_length {policy : TailPolicy} {pri : Vector (Option PriToken) 2048} {tail : Vector (Option Chr) 64}
    {pos : Nat} {str : List Chr} {w : List Bool} (h : decodeBits policy pri tail pos str = .ok w) :
    w.length = 11 * (str.length / 2) + 6 * (str.length % 2) ∧ (policy = .single → str.length % 2 = 0) := by
  fun_induction decodeBits policy pri tail pos str generalizing w with
  | case1 =>
    cases h
    exact ⟨rfl, fun _ => rfl⟩
  | case4 pos c hp j hj =>
    cases h
    exact ⟨by simp, fun hs => absurd (hp.symm.trans hs) (by decide)⟩
  | case7 pos c0 c1 rest i hi w' hw ih =>
    cases h
    obtain ⟨hlen, heven⟩ := ih hw
    simp only [List.length_append, bitsOf_length, List.length_cons]
    exact ⟨by omega, fun hs => by have := heven hs; omega⟩
  | case2 | case3 | case5 | case6 => cases h

/-- `OUT(C)` is the number of bytes that a string decodes to (R113). -/
theorem decodeChars_length {policy : TailPolicy} {pri : Vector (Option PriToken) 2048} {tail : Vector (Option Chr) 64}
    {str : List Chr} {out : List Byte} (h : decodeChars policy pri tail str = .ok out) :
    out.length = decodedLength policy str.length := by
  rw [decodeChars] at h
  split at h
  · cases h
  · rename_i w hw
    cases h
    obtain ⟨hlen, heven⟩ := decodeBits_length hw
    rw [bitsToBytes_length, hlen]
    cases policy with
    | dual => rfl
    | single => rw [heven rfl, decodedLength, Nat.mul_zero, Nat.add_zero]

/-- The bytes that `ENCODE` stores fill the string's buffer (R106, R110). -/
theorem State.encodeInput_chars {s : State} {str : List Chr}
    (h : encodeChars s.params.policy s.pri s.tail s.encodeInput = some str) : str.length = s.encodeLen := by
  rw [encodeChars_length h, State.encodeInput, State.portBytes_length, State.encodeLen]

/-- The bytes that `DECODE` stores are as many as its checks allow for (R113, R118). -/
theorem State.decodeInput_bytes {s : State} {out : List Byte}
    (h : decodeChars s.params.policy s.pri s.tail s.decodeInput = .ok out) : out.length = s.decodeLen := by
  rw [decodeChars_length h, State.decodeInput, State.portString, List.length_map, List.length_range, State.decodeLen]

/-! ### Reset -/

/-- Settles O49: at reset every register is 0, no table is committed, and the engine is idle. -/
theorem invHoldsAtReset : Obligations.InvHoldsAtReset where
  memory := rfl
  reader := Nat.le_refl _
  writer := Nat.le_refl _
  writerAddr := by decide
  acc := by decide
  pri := nofun
  tail := nofun
  busy := nofun
  code := by decide
  cause := nofun
  idle := fun _ => rfl

/-- Either reset leaves the invariants, whatever command it aborts: only memory and the outside world are not at reset
values (R135, R136). -/
theorem State.toReset_inv {s : State} (h : s.Inv) : s.toReset.Inv :=
  { invHoldsAtReset with memory := State.abort_wf h.memory }

/-! ### Completion and errors -/

theorem State.complete_inv {s : State} (h : s.Inv) : s.complete.Inv :=
  { h with busy := nofun, idle := fun _ => rfl }

theorem Err.code_bounds (e : Err) : 1 ≤ e.code.toNat ∧ e.code.toNat ≤ 0x0D := by
  cases e <;> simp [Err.code]

theorem State.raise_inv {s : State} (h : s.Inv) (e : Err) : (s.raise e).Inv :=
  { h with
    busy := nofun
    code := e.code_bounds.2
    cause := fun _ h0 => by
      have h1 := e.code_bounds.1
      rw [show e.code = 0 from h0] at h1
      exact absurd h1 (by decide)
    idle := fun _ => rfl }

/-- A `BusError` scrambles the output range, which lies in the address space (R122). -/
theorem State.raiseBus_inv {s : State} (h : s.Inv) (a : Nat) (i : Instr) :
    (s.raiseBus a (s.outputRange i).base (s.outputRange i).size).Inv := by
  have hwf : (s.scramble (s.outputRange i).base (s.outputRange i).size).mem.wf = true := by
    obtain h0 | hle := s.outputRange_le i
    · rw [h0, State.scramble_zero]
      exact h.memory
    · exact State.scramble_wf h.memory hle
  exact State.raise_inv { h with memory := hwf } (.busError a)

/-! ### The commands' effects -/

/-- The checks of R97 keep `BW_CNT` below `BW_CAP`, and the bytes in the address space. -/
theorem State.emit_inv {s u : State} {bs : List Byte} (h : s.Inv) (hu : s.emit bs = .ok u) : u.Inv := by
  obtain ⟨-, rfl⟩ | ⟨-, he, -, rfl⟩ := State.emit_ok hu
  · exact h
  · obtain ⟨hcap, haddr⟩ := State.emitError_none.1 he
    have hlt := s.bwCap.isLt
    have hcnt : (BitVec.ofNat 29 (s.bwCnt.toNat + bs.length)).toNat = s.bwCnt.toNat + bs.length := by
      rw [BitVec.toNat_ofNat]
      omega
    refine { h with memory := State.portStore_wf h.memory haddr, writer := ?_, writerAddr := ?_ }
    · show (BitVec.ofNat 29 (s.bwCnt.toNat + bs.length)).toNat ≤ s.bwCap.toNat
      omega
    · show s.bwBase.toNat + (BitVec.ofNat 29 (s.bwCnt.toNat + bs.length)).toNat ≤ memSize
      rw [hcnt, ← Nat.add_assoc]
      exact haddr

/-- The bits that wait after a `BW_WRITE` fit their number, below 8 (R36, R100). -/
theorem acc_lt (v w : Nat) :
    (BitVec.ofNat 7 (v % 2 ^ (w % 8))).toNat < 2 ^ (BitVec.ofNat 3 (w % 8)).toNat := by
  have hw : (BitVec.ofNat 3 (w % 8)).toNat = w % 8 := by
    rw [BitVec.toNat_ofNat]
    omega
  rw [hw, BitVec.toNat_ofNat]
  exact lt_of_le_of_lt (Nat.mod_le _ _) (Nat.mod_lt _ (by positivity))

/-- No bit waits in a writer that is new or closed (R98, R101). -/
theorem acc_empty : (0 : BitVec 7).toNat < 2 ^ (0 : BitVec 3).toNat := by decide

/-- Every effect keeps the invariants; the guards of `Completes` bound what the effect counts. -/
theorem Completes.inv {s u : State} {i : Instr} (hc : Completes s i u) (h : s.Inv) : u.Inv := by
  cases hc with
  | nop => exact h
  | brInit => exact { h with reader := Nat.zero_le _ }
  | brRead n hn ha hr hp =>
    have hreader := h.reader
    have hlen := s.brLen.isLt
    refine { h with reader := ?_ }
    show (BitVec.ofNat 32 (s.brPos.toNat + n.toNat)).toNat ≤ 8 * s.brLen.toNat
    rw [State.brRemaining] at hr
    rw [BitVec.toNat_ofNat]
    omega
  | bwInit => exact { h with writer := Nat.zero_le _, writerAddr := s.bwBase.isLt.le, acc := acc_empty }
  | bwWrite n hn hc u hu => exact { State.emit_inv h hu with acc := acc_lt _ _ }
  | bwFinal p hc u hu => exact { State.emit_inv h hu with acc := acc_empty }
  | tblClear sel hs =>
    cases selTail sel <;> cases selPri sel
    · exact h
    · exact { h with pri := nofun }
    · exact { h with tail := nofun }
    · exact { h with pri := nofun, tail := nofun }
  | tblCommit sel hs hc =>
    obtain ⟨hpri, htail⟩ := State.commitError_none.1 hc
    refine { h with pri := fun hv => ?_, tail := fun hv => ?_ }
    · obtain hv | hv := Bool.or_eq_true_iff.1 hv
      · exact h.pri hv
      · exact (hpri hv).elim h.pri id
    · obtain hv | hv := Bool.or_eq_true_iff.1 hv
      · exact h.tail hv
      · exact (htail hv).elim h.tail id
  | tblWrPri idx hv => exact { h with pri := fun hv' => absurd hv' (by simp [hv]) }
  | tblWrTail idx hv => exact { h with tail := fun hv' => absurd hv' (by simp [hv]) }
  | tblEncPri | tblEncTail | tblDecPri | tblDecTail => exact { h with }
  | encode str hr hs =>
    have hfit : s.csBase.toNat + (stringBytes str).length ≤ 2 ^ 32 := by
      rw [stringBytes_length, State.encodeInput_chars hs]
      exact hr.output
    refine { h with memory := State.portStore_wf h.memory hfit, reader := ?_ }
    show (BitVec.ofNat 32 (8 * s.brLen.toNat)).toNat ≤ 8 * s.brLen.toNat
    rw [BitVec.toNat_ofNat]
    exact Nat.mod_le _ _
  | decode out hr hs =>
    have hlen := State.decodeInput_bytes hs
    have hcap : out.length ≤ s.bwCap.toNat := hlen.trans_le hr.capacity
    have hfit : s.bwBase.toNat + out.length ≤ 2 ^ 32 := by
      rw [hlen]
      exact hr.output
    have hcnt : (BitVec.ofNat 29 out.length).toNat ≤ out.length := by
      rw [BitVec.toNat_ofNat]
      exact Nat.mod_le _ _
    exact { h with
      memory := State.portStore_wf h.memory hfit
      writer := hcnt.trans hcap
      writerAddr := (Nat.add_le_add_left hcnt _).trans hfit
      acc := acc_empty }

/-- The engine's run of the accepted word keeps the invariants (R67, R71, R74). -/
theorem runCommand_inv {s t : State} (h : s.Inv) (hrun : s.runCommand = .next t) : t.Inv := by
  obtain ⟨i, -, hi⟩ | ⟨-, rfl⟩ := runCommand_cases hrun
  · obtain ⟨u, hu, rfl⟩ | ⟨e, rfl⟩ | ⟨a, rfl⟩ := exec_cases hi
    · exact State.complete_inv (hu.inv h)
    · exact State.raise_inv h e
    · exact State.raiseBus_inv h a i
  · exact State.raise_inv h _

/-! ### The host's accesses -/

theorem State.dropWrite_inv {s : State} (h : s.Inv) : s.dropWrite.Inv := { h with }

/-- A write of `CMD` is accepted only while `ERR = 0`, and clears `DONE` and `ERR_CODE` (R71, R72). -/
theorem State.issue_inv {s : State} (h : s.Inv) (w : Word) : (s.issue w).Inv := by
  rw [State.issue]
  split
  · exact State.dropWrite_inv h
  · rename_i hno
    have herr : s.status.err = false := by
      cases he : s.status.err with
      | false => rfl
      | true => exact absurd (by rw [he, Bool.or_true]) hno
    exact { h with
      busy := fun _ => ⟨rfl, herr⟩
      code := Nat.zero_le _
      cause := fun he => absurd (herr.symm.trans he) (by decide)
      idle := nofun }

theorem State.acknowledge_inv {s : State} (h : s.Inv) (v : Word) : (s.acknowledge v).Inv :=
  { h with
    busy := fun hb => by
      obtain ⟨hd, he⟩ := h.busy hb
      simp [hd, he]
    cause := fun he => h.cause (Bool.and_eq_true_iff.1 he).1 }

/-- A write of `BR_BASE` or `BR_LEN` starts a reader at 0, one of `BW_BASE` or `BW_CAP` an empty writer; the other
operands are in no invariant (R29, R30, R98). -/
theorem State.writeReg_inv {s : State} (h : s.Inv) (v : Word) (r : Reg) : (s.writeReg v r).Inv := by
  cases r with
  | ctrl =>
    rw [State.writeReg, State.writeCtrl]
    split
    · exact State.toReset_inv h
    · exact { h with }
  | status => exact State.acknowledge_inv h v
  | cmd => exact State.issue_inv h v
  | brBase | brLen => exact { h with reader := Nat.zero_le _ }
  | bwBase => exact { h with writer := Nat.zero_le _, writerAddr := v.isLt.le, acc := acc_empty }
  | bwCap => exact { h with writer := Nat.zero_le _, writerAddr := s.bwBase.isLt.le, acc := acc_empty }
  | val | tok0 | tok1 | csBase | csLen | csCap => exact { h with }
  | id | cfg | errCode | errInfo | res | brPos | brRem | bwCnt | bwAcc | csCnt => exact h

theorem State.hostWrite_inv {s : State} (h : s.Inv) (addr bits : Nat) (v : Word) : (s.hostWrite addr bits v).Inv := by
  obtain he | he | he | ⟨r, -, -, -, he⟩ := hostWrite_cases s addr bits v <;> rw [he]
  · exact h
  · exact { h with }
  · exact { h with }
  · split
    · exact { State.dropWrite_inv h with }
    · exact { State.writeReg_inv h v r with }

theorem State.hostRead_inv {s : State} (h : s.Inv) (addr bits : Nat) : (s.hostRead addr bits).Inv := by
  rw [State.hostRead]
  split_ifs
  · exact h
  · exact { h with }
  · exact { h with }

/-- A host write of memory is recorded only while a command runs (R58). -/
theorem State.hostMemWrite_inv {s : State} (h : s.Inv) (addr : Word) (v : Byte) : (s.hostMemWrite addr v).Inv :=
  { h with
    memory := Memory.write_wf h.memory addr.isLt v
    idle := fun hb => by
      have hb' : s.status.busy = false := hb
      simp [State.hostMemWrite, hb', h.idle hb'] }

theorem State.input_inv {s : State} (h : s.Inv) (i : Input) : (s.input i).Inv := by
  cases i with
  | regWrite addr bits v => exact State.hostWrite_inv h addr bits v
  | regRead addr bits => exact State.hostRead_inv h addr bits
  | memWrite addr v => exact State.hostMemWrite_inv h addr v
  | memRead addr => exact { h with }
  | hardReset => exact State.toReset_inv h
  | turn => exact h

/-- Settles O50, by the cases of a step: an idle machine, the engine's run of the accepted command, or one input. -/
theorem stepKeepsInv : Obligations.StepKeepsInv := by
  intro s t h hstep
  have hnext : ∀ rest k, State.Inv { s with inputs := rest, draws := k } := fun _ _ => { h with }
  obtain ⟨-, ⟨-, rfl⟩ | ⟨rest, -, rfl⟩⟩ | ⟨-, rest, -, hrun⟩ | ⟨i, rest, -, -, rfl⟩ := step_cases hstep
  · exact h
  · exact hnext rest _
  · exact runCommand_inv (hnext rest _) hrun
  · exact State.input_inv (hnext rest _) i

end Sys2Proof.Machine
end

section
/-! PROOFS of the family `20_memory.md`: a character word is its four bytes in little-endian order, so a stored string reads
back; and what a host access of memory does, from the one test that decides whether a read is defined: whether the byte lies
in a buffer of the running command. -/

namespace Sys2Proof.Machine

open Sys2Proof.Config

/-! ### Stored bytes and characters -/

/-- Outside the bytes written, memory is as before. -/
theorem Memory.writeBytes_sameOutside {m : Memory} (h : m.wf = true) {base : Nat} {bs : List Byte}
    (hb : base + bs.length ≤ memSize) : SameOutside m (m.writeBytes base bs) base bs.length :=
  fun _ ha => Memory.read_writeBytes_outside h hb ha

/-- The bytes written stand where they were written. -/
theorem Memory.writeBytes_holds {m : Memory} (h : m.wf = true) {base : Nat} {bs : List Byte}
    (hb : base + bs.length ≤ memSize) : HoldsBytes (m.writeBytes base bs) base bs := by
  intro k hk
  rw [Memory.read_writeBytes h hb, if_pos (by omega), Nat.add_sub_cancel_left]

/-- Where a string's bytes stand in memory, byte `j` of character `k` is read 4k + j up from the string's address. -/
theorem HoldsBytes.read_stringByte {m : Memory} {base : Nat} {str : List Chr} (h : HoldsBytes m base (stringBytes str))
    {k j : Nat} (hk : k < str.length) (hj : j < 4) :
    m.read (base + 4 * k + j) = str[k].extractLsb' (8 * j) 8 := by
  rw [Nat.add_assoc, h (4 * k + j) (by rw [stringBytes_length]; omega), stringBytes_getD str k j hk hj]

/-- A character's four bytes, put together again, are the character (R46 `MemRead32` after `MemWrite32`). -/
theorem chrOfBytes_chrBytes (c : Chr) :
    chrOfBytes (c.extractLsb' 0 8) (c.extractLsb' 8 8) (c.extractLsb' 16 8) (c.extractLsb' 24 8) = c := by
  apply BitVec.eq_of_toNat_eq
  have := c.isLt
  simp only [chrOfBytes_toNat, BitVec.extractLsb'_toNat, Nat.shiftRight_eq_div_pow]
  omega

/-- Where a string's bytes stand in memory, its characters are read (R50). -/
theorem HoldsBytes.read_chr {m : Memory} {base : Nat} {str : List Chr} (h : HoldsBytes m base (stringBytes str))
    {k : Nat} (hk : k < str.length) :
    chrOfBytes (m.read (base + 4 * k)) (m.read (base + 4 * k + 1)) (m.read (base + 4 * k + 2))
      (m.read (base + 4 * k + 3)) = str[k] := by
  have h0 := h.read_stringByte hk (j := 0) (by decide)
  have h1 := h.read_stringByte hk (j := 1) (by decide)
  have h2 := h.read_stringByte hk (j := 2) (by decide)
  have h3 := h.read_stringByte hk (j := 3) (by decide)
  rw [Nat.add_zero] at h0
  rw [h0, h1, h2, h3]
  exact chrOfBytes_chrBytes _

/-- Settles O59: the string's bytes stand where they were stored, and a character is its four bytes. -/
theorem stringsReadBackLittleEndian : Obligations.StringsReadBackLittleEndian := by
  intro m base str hwf hfit
  have hb : base + (stringBytes str).length ≤ memSize := by rwa [stringBytes_length]
  refine ⟨Memory.writeBytes_wf hwf hb, ?_, fun k hk => ?_⟩
  · rw [← stringBytes_length]
    exact Memory.writeBytes_sameOutside hwf hb
  · have hchr := (Memory.writeBytes_holds hwf hb).read_chr hk
    exact ⟨hchr, by rw [← chrOfBytes_toNat, hchr]⟩

/-! ### Host writes of memory -/

theorem step_memWrite {s : State} {a : Word} {v : Byte} {rest : List Input} (h : s.inputs = .memWrite a v :: rest) :
    step s = .next (State.hostMemWrite { s with inputs := rest, draws := s.draws + 1 } a v) := by
  rw [step, State.move, h]
  rfl

/-- The one byte that a host write changes (R46). -/
theorem Memory.write_sameOutside {m : Memory} (h : m.wf = true) (a : Nat) (v : Byte) :
    SameOutside m (m.write a v) a 1 := by
  intro j hj
  rw [Memory.read_write h, if_neg (by omega)]

/-- While no command runs, a host write of memory races with none (R58). -/
theorem State.hostMemWrite_touched_idle {s : State} (hb : s.status.busy = false) (a : Word) (v : Byte) :
    (s.hostMemWrite a v).touched = s.touched := by
  rw [State.hostMemWrite, hb, Bool.false_and, if_neg Bool.false_ne_true]

/-- While a command runs, the byte that a host write changes is noted (R58 rule 3). -/
theorem State.mem_hostMemWrite_touched {s : State} (hb : s.status.busy = true) (a : Word) (v : Byte) :
    a.toNat ∈ (s.hostMemWrite a v).touched := by
  rw [State.hostMemWrite, hb, Bool.true_and]
  by_cases hmem : a.toNat ∈ s.touched <;> simp [hmem]

/-! ### Host reads of memory -/

theorem inRanges_false {rs : List Range} {a : Nat} :
    inRanges rs a = false ↔ ∀ r ∈ rs, ¬(r.base ≤ a ∧ a < r.base + r.size) := by
  simp [inRanges, inRange]

/-- Outside the running command's buffers a host read returns what memory holds (R58; log entry 20). -/
theorem State.hostMemByte_outside {s : State} {a : Nat}
    (h : ∀ r ∈ s.runningBuffers, ¬(r.base ≤ a ∧ a < r.base + r.size)) : s.hostMemByte a = s.mem.read a := by
  rw [State.hostMemByte, inRanges_false.2 h, if_neg Bool.false_ne_true]

/-- A step on a host read of memory: it only answers, and outside the running command's buffers with what memory holds. -/
theorem step_memRead {s : State} {a : Word} {rest : List Input} (h : s.inputs = .memRead a :: rest) :
    ∃ w, step s = .next { s with inputs := rest, resp := .byte w, draws := s.draws + 1 } ∧
      ((∀ r ∈ s.runningBuffers, ¬(r.base ≤ a.toNat ∧ a.toNat < r.base + r.size)) → w = s.mem.read a.toNat) := by
  refine ⟨_, ?_, State.hostMemByte_outside (s := { s with inputs := rest, draws := s.draws + 1 })⟩
  rw [step, State.move, h]
  rfl

/-- While no command runs, no buffer is in use (R58; log entry 21). -/
theorem State.runningBuffers_idle {s : State} (hb : s.status.busy = false) : s.runningBuffers = [] := by
  rw [State.runningBuffers, hb, if_neg Bool.false_ne_true]

/-- While a command runs, its buffers are the ones in use (R58 rule 3; log entry 7). -/
theorem State.runningBuffers_command {s : State} {i : Instr} (hb : s.status.busy = true)
    (hd : decode s.lastCmd = .ok i) : s.runningBuffers = s.buffers i := by
  rw [State.runningBuffers, hb, if_pos rfl, hd]

/-- A word that is no command uses no buffer. -/
theorem State.runningBuffers_noCommand {s : State} {e : DecodeError} (hb : s.status.busy = true)
    (hd : decode s.lastCmd = .error e) : s.runningBuffers = [] := by
  rw [State.runningBuffers, hb, if_pos rfl, hd]

/-- Settles O60: a write is one byte's, noted exactly while a command runs; and a read's value is decided by the running
command's buffers, of which an idle engine and a word that is no command have none. -/
theorem hostMemoryAccesses : Obligations.HostMemoryAccesses := by
  intro s a v rest
  constructor
  · intro hin hwf
    exact ⟨_, step_memWrite hin, rfl, (Memory.read_write hwf _ v _).trans (if_pos rfl),
      Memory.write_sameOutside hwf _ v, Memory.write_wf hwf a.isLt v,
      fun hb => State.hostMemWrite_touched_idle hb a v, fun hb => State.mem_hostMemWrite_touched hb a v⟩
  · intro hin
    obtain ⟨w, hstep, hread⟩ := step_memRead hin
    refine ⟨w, hstep, fun hb => hread ?_, fun i hb hd hout => hread ?_, fun e hb hd => hread ?_⟩
    · rw [State.runningBuffers_idle hb]
      exact List.forall_mem_nil _
    · rwa [State.runningBuffers_command hb hd]
    · rw [State.runningBuffers_noCommand hb hd]
      exact List.forall_mem_nil _

end Sys2Proof.Machine
end

section
/-! PROOFS of the family `30_encoding.md`: a word is its bits under its format's mask together with its field below the
mask, so that encoding and decoding undo each other; decoding, said once for every word, by whether some opcode has its
number and whether that opcode's row selects it; and the completion of a word that is no command. -/

namespace Sys2Proof

/-! ### Opcodes and the rows that select a word -/

/-- Step 1 of R67: the word's opcode number is an opcode's. -/
theorem Opcode.ofNumber_eq_some {b : BitVec 8} {o : Opcode} : Opcode.ofNumber b = some o ↔ b = o.number :=
  ⟨fun h => (Opcode.number_of_some h).symm, fun h => h ▸ o.ofNumber_number⟩

theorem Opcode.ofNumber_eq_none {b : BitVec 8} : Opcode.ofNumber b = none ↔ ∀ o : Opcode, b ≠ o.number := by
  simp [Option.eq_none_iff_forall_ne_some, Opcode.ofNumber_eq_some]

theorem Opcode.matchWord_getLsbD_low (o : Opcode) {j : Nat} (hj : j < 24) : o.matchWord.getLsbD j = false := by
  simp [Opcode.matchWord, hj]

theorem opcField_eq_iff {w : Word} {o : Opcode} : opcField w = o.number ↔ w.toNat / 2 ^ 24 = o.number.toNat := by
  have hw := w.isLt
  rw [← BitVec.toNat_inj, opcField, BitVec.extractLsb'_toNat, Nat.shiftRight_eq_div_pow, Nat.mod_eq_of_lt (by omega)]

/-- A format's mask is the opcode's bits and the reserved-zero bits (R64, R66). -/
theorem Format.mask_eq (f : Format) : f.mask = 0xFF000000#32 ||| f.reserved := by cases f <;> rfl

theorem opcField_and_mask (w : Word) (f : Format) : opcField (w &&& f.mask) = opcField w := by
  apply BitVec.eq_of_getLsbD_eq
  intro j hj
  have hw := f.fieldWidth_le
  simp only [opcField, BitVec.getLsbD_extractLsb', BitVec.getLsbD_and, f.mask_getLsbD (show 24 + j < 32 by omega)]
  simp [show f.fieldWidth ≤ 24 + j by omega]

theorem Opcode.opcField_matchWord (o : Opcode) : opcField o.matchWord = o.number := by cases o <;> rfl

/-- The opcode's bits of a word, at their place (R63). -/
theorem and_opcodeBits (w : Word) : w &&& 0xFF000000#32 = (opcField w).setWidth 32 <<< 24 := by
  apply BitVec.eq_of_getLsbD_eq
  intro j hj
  have hbits : (0xFF000000#32).getLsbD j = decide (24 ≤ j) := by interval_cases j <;> rfl
  rw [BitVec.getLsbD_and, hbits, BitVec.getLsbD_shiftLeft, BitVec.getLsbD_setWidth, opcField,
    BitVec.getLsbD_extractLsb']
  by_cases h : 24 ≤ j
  · simp [h, hj, show j - 24 < 8 by omega, show j - 24 < 32 by omega]
  · simp [h]

/-- An opcode's row selects a word exactly if the word has the opcode's number and no reserved bit (R66, R67). -/
theorem and_mask_eq_matchWord_iff {w : Word} {o : Opcode} :
    w &&& o.format.mask = o.matchWord ↔ opcField w = o.number ∧ w &&& o.format.reserved = 0 := by
  constructor
  · intro h
    have hreserved : o.format.reserved = o.format.mask &&& 0x00FFFFFF := rfl
    refine ⟨?_, ?_⟩
    · rw [← opcField_and_mask w o.format, h, o.opcField_matchWord]
    · rw [hreserved, ← BitVec.and_assoc, h]
      cases o <;> rfl
  · rintro ⟨hopc, hres : _ = 0#32⟩
    rw [o.format.mask_eq, BitVec.and_or_distrib_left, hres, BitVec.or_zero, and_opcodeBits, hopc, Opcode.matchWord]

/-- The words that an opcode's row selects have its number. -/
theorem opcField_of_match {w : Word} {o : Opcode} (h : w &&& o.format.mask = o.matchWord) : opcField w = o.number :=
  (and_mask_eq_matchWord_iff.1 h).1

/-! ### Fields -/

/-- A format's field is the word's bits below its mask (R64). -/
theorem field_eq_and_not_mask (w : Word) (f : Format) :
    (w.extractLsb' 0 f.fieldWidth).setWidth 32 = w &&& ~~~f.mask := by
  apply BitVec.eq_of_getLsbD_eq
  intro j hj
  rw [BitVec.getLsbD_and, BitVec.getLsbD_not, f.mask_getLsbD hj, BitVec.getLsbD_setWidth, BitVec.getLsbD_extractLsb',
    Nat.zero_add, Bool.and_comm (w.getLsbD j)]
  simp [hj, ← decide_not]

/-- `P` is the bit that a command of format P takes from its word (R65). -/
theorem operandBits_bwFinal (w : Word) : (Instr.bwFinal (pField w)).operandBits = (w.extractLsb' 0 1).setWidth 32 := by
  have hbit : w.extractLsb' 0 1 = BitVec.ofBool (w.getLsbD 0) := by
    apply BitVec.eq_of_getLsbD_eq
    intro j hj
    obtain rfl : j = 0 := by omega
    simp
  rw [hbit, pField]
  cases w.getLsbD 0 <;> rfl

/-- The operand of the command that an opcode makes of a word is the word's field (R64, R65). -/
theorem Opcode.operandBits_build (w : Word) (o : Opcode) : (o.build w).operandBits = w &&& ~~~o.format.mask := by
  cases o with
  | brRead | bwWrite => exact field_eq_and_not_mask w .N
  | bwFinal => exact (operandBits_bwFinal w).trans (field_eq_and_not_mask w .P)
  | tblClear | tblCommit => exact field_eq_and_not_mask w .S
  | tblWrPri => exact field_eq_and_not_mask w .I11
  | tblWrTail => exact field_eq_and_not_mask w .I6
  | _ => exact BitVec.and_zero.symm

/-- A field below the opcode is read back from the word it was put in (R64, R65). -/
theorem field_matchWord_or (o : Opcode) {k : Nat} (hk : k ≤ 24) (x : BitVec k) :
    (o.matchWord ||| x.setWidth 32).extractLsb' 0 k = x := by
  apply BitVec.eq_of_getLsbD_eq
  intro j hj
  rw [BitVec.getLsbD_extractLsb', BitVec.getLsbD_or, Nat.zero_add, o.matchWord_getLsbD_low (lt_of_lt_of_le hj hk),
    BitVec.getLsbD_setWidth]
  simp [hj, show j < 32 by omega]

/-- A command's opcode makes the command again of its word's fields (R65, R66). -/
theorem build_encode (i : Instr) : i.opcode.build (encode i) = i := by
  cases i with
  | brRead n => exact congrArg Instr.brRead (field_matchWord_or .brRead (by decide) n)
  | bwWrite n => exact congrArg Instr.bwWrite (field_matchWord_or .bwWrite (by decide) n)
  | bwFinal p => cases p <;> rfl
  | tblClear sel => exact congrArg Instr.tblClear (field_matchWord_or .tblClear (by decide) sel)
  | tblCommit sel => exact congrArg Instr.tblCommit (field_matchWord_or .tblCommit (by decide) sel)
  | tblWrPri idx => exact congrArg Instr.tblWrPri (field_matchWord_or .tblWrPri (by decide) idx)
  | tblWrTail idx => exact congrArg Instr.tblWrTail (field_matchWord_or .tblWrTail (by decide) idx)
  | _ => rfl

/-- A word that an opcode's row selects is the word of the command that the opcode makes of its fields. -/
theorem encode_build {w : Word} {o : Opcode} (h : w &&& o.format.mask = o.matchWord) : encode (o.build w) = w := by
  rw [encode, Opcode.build_opcode, Opcode.operandBits_build, ← h, ← BitVec.and_or_distrib_left, BitVec.or_not_self,
    BitVec.and_allOnes]

/-- The legal field values of R66, read off the word: `N` in 1 to 16, `SEL` not 0. -/
theorem Opcode.build_wellFormed (w : Word) (o : Opcode) :
    (o.build w).wellFormed = true ↔
      (o.format = .N → 1 ≤ w.toNat % 2 ^ 5 ∧ w.toNat % 2 ^ 5 ≤ 16) ∧ (o.format = .S → w.toNat % 2 ^ 2 ≠ 0) := by
  have hn : legalCount (nField w) = true ↔ 1 ≤ w.toNat % 2 ^ 5 ∧ w.toNat % 2 ^ 5 ≤ 16 := by
    rw [legalCount, Bool.and_eq_true, decide_eq_true_iff, decide_eq_true_iff, nField, BitVec.extractLsb'_toNat]
    rfl
  have hsel : legalSel (selField w) = true ↔ w.toNat % 2 ^ 2 ≠ 0 := by
    simp [legalSel, selField, ← BitVec.toNat_inj]
  cases o with
  | brRead | bwWrite => simpa [Opcode.build, Instr.wellFormed, Opcode.format] using hn
  | tblClear | tblCommit => simpa [Opcode.build, Instr.wellFormed, Opcode.format] using hsel
  | _ => simp [Opcode.build, Instr.wellFormed, Opcode.format]

/-! ### Decoding -/

/-- Step 1 of R67 fails: no opcode has the word's number. -/
theorem decode_of_no_opcode {w : Word} (h : ∀ o : Opcode, opcField w ≠ o.number) :
    decode w = .error .undefinedOpcode := by
  rw [decode, Opcode.ofNumber_eq_none.2 h]

/-- Steps 2 and 3 of R67, for a word with an opcode's number. -/
theorem decode_of_opcode {w : Word} {o : Opcode} (h : opcField w = o.number) :
    decode w =
      if w &&& o.format.mask = o.matchWord then
        if (o.build w).wellFormed then .ok (o.build w) else .error .illegalField
      else .error .reservedBit := by
  rw [decode, Opcode.ofNumber_eq_some.2 h]
  simp [and_mask_eq_matchWord_iff, h]

theorem exists_opcode_of_decode {w : Word} (h : decode w ≠ .error .undefinedOpcode) :
    ∃ o : Opcode, opcField w = o.number := by
  by_contra hno
  exact h (decode_of_no_opcode (not_exists.1 hno))

/-- Step 3 of R67, for a word that an opcode's row selects. -/
theorem decode_of_match {w : Word} {o : Opcode} (h : w &&& o.format.mask = o.matchWord) :
    decode w = if (o.build w).wellFormed then .ok (o.build w) else .error .illegalField := by
  rw [decode_of_opcode (opcField_of_match h), if_pos h]

/-- A word that passes steps 1 and 2 of R67 is one that an opcode's row selects. -/
theorem exists_match_of_decode {w : Word} (h1 : decode w ≠ .error .undefinedOpcode)
    (h2 : decode w ≠ .error .reservedBit) : ∃ o : Opcode, w &&& o.format.mask = o.matchWord := by
  obtain ⟨o, ho⟩ := exists_opcode_of_decode h1
  by_contra hno
  exact h2 (by rw [decode_of_opcode ho, if_neg (not_exists.1 hno o)])

theorem decode_eq_undefinedOpcode_iff {w : Word} :
    decode w = .error .undefinedOpcode ↔ ∀ o : Opcode, opcField w ≠ o.number := by
  refine ⟨fun h o ho => ?_, decode_of_no_opcode⟩
  rw [decode_of_opcode ho] at h
  split_ifs at h <;> cases h

theorem decode_eq_reservedBit_iff {w : Word} :
    decode w = .error .reservedBit ↔ ∃ o : Opcode, opcField w = o.number ∧ w &&& o.format.mask ≠ o.matchWord := by
  constructor
  · intro h
    obtain ⟨o, ho⟩ := exists_opcode_of_decode (w := w) (by simp [h])
    refine ⟨o, ho, fun hm => ?_⟩
    rw [decode_of_match hm] at h
    split_ifs at h
    cases h
  · rintro ⟨o, ho, hm⟩
    rw [decode_of_opcode ho, if_neg hm]

theorem decode_eq_illegalField_iff {w : Word} :
    decode w = .error .illegalField ↔
      ∃ o : Opcode, w &&& o.format.mask = o.matchWord ∧ ¬(o.build w).wellFormed = true := by
  constructor
  · intro h
    obtain ⟨o, hm⟩ := exists_match_of_decode (w := w) (by simp [h]) (by simp [h])
    refine ⟨o, hm, fun hwf => ?_⟩
    rw [decode_of_match hm, if_pos hwf] at h
    cases h
  · rintro ⟨o, hm, hwf⟩
    rw [decode_of_match hm, if_neg hwf]

theorem decode_eq_ok_iff {w : Word} {i : Instr} :
    decode w = .ok i ↔
      ∃ o : Opcode, w &&& o.format.mask = o.matchWord ∧ (o.build w).wellFormed = true ∧ o.build w = i := by
  constructor
  · intro h
    obtain ⟨o, hm⟩ := exists_match_of_decode (w := w) (by simp [h]) (by simp [h])
    rw [decode_of_match hm] at h
    split_ifs at h with hwf
    exact ⟨o, hm, hwf, Except.ok.inj h⟩
  · rintro ⟨o, hm, hwf, rfl⟩
    rw [decode_of_match hm, if_pos hwf]

/-! ### The statements about words -/

/-- Settles O2: the row of the command's opcode selects its word, and the opcode makes the command again of the word's
fields. -/
theorem decodeAfterEncode : Obligations.DecodeAfterEncode := by
  intro i hwf
  have hmatch : encode i &&& i.opcode.format.mask = i.opcode.matchWord := mask_or i.operandBits_lt
  exact decode_eq_ok_iff.2 ⟨i.opcode, hmatch, by rwa [build_encode], build_encode i⟩

/-- Settles O3: the word that a row selects is its match and the field that the command takes from it. -/
theorem encodeAfterDecode : Obligations.EncodeAfterDecode := by
  intro w i h
  obtain ⟨o, hmatch, hwf, rfl⟩ := decode_eq_ok_iff.1 h
  exact ⟨hwf, encode_build hmatch⟩

/-- Settles O4: one outcome of decoding at a time, with the opcode number and the fields read off the word. -/
theorem decodesExactlyTheTableWords : Obligations.DecodesExactlyTheTableWords := by
  intro w
  refine ⟨?_, ?_, ?_, ?_⟩
  · simp only [decode_eq_undefinedOpcode_iff, ne_eq, opcField_eq_iff]
  · simp only [decode_eq_reservedBit_iff, opcField_eq_iff]
  · simp only [decode_eq_illegalField_iff, Opcode.build_wellFormed, not_and_or, Classical.not_imp, not_le, not_not,
      Nat.lt_one_iff]
  · simp only [decode_eq_ok_iff, ← Opcode.build_wellFormed]
    exact ⟨fun ⟨_, o, hm, hwf, _⟩ => ⟨o, hm, hwf⟩, fun ⟨o, hm, hwf⟩ => ⟨_, o, hm, hwf, rfl⟩⟩

/-- Settles O1: each word is the word of its command, which has legal fields. -/
theorem decodesWrittenOutWords : Obligations.DecodesWrittenOutWords :=
  ⟨decodeAfterEncode .nop rfl, decodeAfterEncode .brInit rfl, decodeAfterEncode (.brRead 11) rfl,
    decodeAfterEncode (.brRead 16) rfl, decodeAfterEncode .bwInit rfl, decodeAfterEncode (.bwWrite 6) rfl,
    decodeAfterEncode (.bwFinal .trunc) rfl, decodeAfterEncode (.bwFinal .pad) rfl, decodeAfterEncode (.tblClear 1) rfl,
    decodeAfterEncode (.tblCommit 3) rfl, decodeAfterEncode (.tblWrPri 2047) rfl,
    decodeAfterEncode (.tblWrTail 63) rfl, decodeAfterEncode .tblEncPri rfl, decodeAfterEncode .tblEncTail rfl,
    decodeAfterEncode .tblDecPri rfl, decodeAfterEncode .tblDecTail rfl, decodeAfterEncode .encode rfl,
    decodeAfterEncode .decode rfl⟩

end Sys2Proof

namespace Sys2Proof.Machine

/-! ### The run of a word that is no command -/

/-- A step on which the engine moves, at a turn or with no input left, is its run of the accepted word (R73, R74). -/
theorem step_runCommand {s : State} {rest : List Input} (hb : s.status.busy = true)
    (h : s.inputs = .turn :: rest ∨ (s.inputs = [] ∧ rest = [])) :
    step s = State.runCommand { s with inputs := rest, draws := s.draws + 1 } := by
  obtain hin | ⟨hin, rfl⟩ := h
  · rw [step, State.move, hin]
    exact if_pos hb
  · rw [step, State.move, hin]
    exact (if_pos hb).trans (by rw [State.nextDraw, hin])

/-- The engine's run of a word that is no command (R67). -/
theorem runCommand_illegal {s : State} {e : DecodeError} (hd : decode s.lastCmd = .error e) :
    s.runCommand = .next s.raiseIllegal := by
  rw [State.runCommand, hd]

/-- Settles O7: the step is the run of the accepted word, which raises `IllegalCommand` and nothing else. -/
theorem illegalWordCompletesWithError : Obligations.IllegalWordCompletesWithError := by
  intro s e rest hb hd hin
  exact (step_runCommand hb hin).trans (runCommand_illegal hd)

end Sys2Proof.Machine
end

section
/-! PROOFS of the family `40_control.md`: no command stops, since the entries that a command reads of a committed table are
written; how a command ends, and what each error records; and how a write of `CMD` is accepted or dropped, and which command
the next step then runs. -/

namespace Sys2Proof.Machine

open Sys2Proof.Config

/-! ### The symbols of an encoding have their tokens -/

/-- The symbol is an index of its table, and a tail symbol only comes under `DUAL` (R104, R108). -/
def Sym.InRange (policy : TailPolicy) : Sym → Prop
  | .p11 u => u < 2048
  | .t6 u => policy = .dual ∧ u < 64

/-- The leftover bits, left-justified to the width of their symbol, are in range (R104). -/
theorem tailSyms_inRange (policy : TailPolicy) {t v : Nat} (ht : t < 11) (hv : v < 2 ^ t) :
    ∀ y ∈ tailSyms policy t v, y.InRange policy := by
  rw [tailSyms]
  split_ifs with h0 h6
  · exact List.forall_mem_nil _
  · exact List.forall_mem_singleton.2 ⟨h6.1, shifted_lt hv h6.2⟩
  · exact List.forall_mem_singleton.2 (shifted_lt hv ht.le)

/-- Every group of 11 bits is in range, and so are the leftover bits (R108). -/
theorem encodeSyms_inRange (policy : TailPolicy) (b : List Byte) : ∀ y ∈ encodeSyms policy b, y.InRange policy := by
  rw [encodeSyms_eq]
  refine List.forall_mem_append.2 ⟨?_, tailSyms_inRange policy (tailBits_lt _) (groupValue_lt _ _ _)⟩
  rw [List.map_map, List.forall_mem_map]
  exact fun k _ => groupValue_lt _ (11 * k) 11

theorem symToken_isSome {policy : TailPolicy} {pri : Vector (Option PriToken) 2048} {tail : Vector (Option Chr) 64}
    (hp : PriComplete pri) (ht : policy = .dual → TailComplete tail) {y : Sym} (hy : y.InRange policy) :
    (symToken pri tail y).isSome := by
  cases y with
  | p11 u => rw [symToken, Option.isSome_map, hp.written u hy]
  | t6 u => rw [symToken, Option.isSome_map, (ht hy.1).written u hy.2]

theorem symsChars_isSome {pri : Vector (Option PriToken) 2048} {tail : Vector (Option Chr) 64} {ys : List Sym}
    (h : ∀ y ∈ ys, (symToken pri tail y).isSome) : (symsChars pri tail ys).isSome := by
  induction ys with
  | nil => rfl
  | cons y ys ih =>
    obtain ⟨hy, hys⟩ := List.forall_mem_cons.1 h
    obtain ⟨cs, hcs⟩ := Option.isSome_iff_exists.1 hy
    obtain ⟨rest, hrest⟩ := Option.isSome_iff_exists.1 (ih hys)
    rw [symsChars, hcs, hrest]
    rfl

/-- Over committed tables every input has an encoding (R105). -/
theorem encodeChars_isSome {policy : TailPolicy} {pri : Vector (Option PriToken) 2048} {tail : Vector (Option Chr) 64}
    (hp : PriComplete pri) (ht : policy = .dual → TailComplete tail) (b : List Byte) :
    (encodeChars policy pri tail b).isSome :=
  symsChars_isSome fun y hy => symToken_isSome hp ht (encodeSyms_inRange policy b y hy)

/-! ### No command stops -/

theorem goesOn_next (t : State) : GoesOn (.next t) := ⟨t, rfl⟩

/-- `TBL_ENC_PRI` reads an entry only of a committed table, and there every entry is written (R41, R87). -/
theorem execTblEncPri_goesOn {s : State} (h : s.Inv) : GoesOn (execTblEncPri s) := by
  rw [execTblEncPri]
  split_ifs with hv hi
  · exact goesOn_next _
  · exact goesOn_next _
  · obtain ⟨⟨c0, c1⟩, ht⟩ :=
      Option.isSome_iff_exists.1 ((h.pri (by simpa using hv)).written s.val.toNat (by omega))
    rw [ht]
    exact goesOn_next _

/-- `TBL_ENC_TAIL` reads an entry only of a committed table, and there every entry is written (R41, R88). -/
theorem execTblEncTail_goesOn {s : State} (h : s.Inv) : GoesOn (execTblEncTail s) := by
  rw [execTblEncTail]
  split_ifs with hv hi
  · exact goesOn_next _
  · exact goesOn_next _
  · obtain ⟨c, ht⟩ :=
      Option.isSome_iff_exists.1 ((h.tail (by simpa using hv)).written s.val.toNat (by omega))
    rw [ht]
    exact goesOn_next _

/-- `ENCODE` looks tokens up only in committed tables, and there every symbol has its token (R108, R109). -/
theorem execEncode_goesOn {s : State} (h : s.Inv) : GoesOn (execEncode s) := by
  rw [execEncode]
  split
  · exact goesOn_next _
  · rename_i hready
    obtain ⟨hpri, htail⟩ := (State.encodeError_none.1 hready).tables
    obtain ⟨str, hstr⟩ := Option.isSome_iff_exists.1
      (encodeChars_isSome (h.pri hpri) (fun hdual => h.tail (htail hdual)) s.encodeInput)
    rw [hstr]
    split
    · exact goesOn_next _
    · exact goesOn_next _

/-- A check answers an error completion, or the command goes on. -/
theorem goesOn_check {c : Prop} [Decidable c] {t : State} {o : Host.Outcome State Fault Refusal} (h : GoesOn o) :
    GoesOn (if c then .next t else o) := by
  split
  · exact goesOn_next t
  · exact h

/-- Only the three commands above can read an entry that holds no value; every branch of the others answers a next
state. -/
theorem exec_goesOn {s : State} (h : s.Inv) (i : Instr) : GoesOn (exec i s) := by
  cases i with
  | tblEncPri => exact execTblEncPri_goesOn h
  | tblEncTail => exact execTblEncTail_goesOn h
  | encode => exact execEncode_goesOn h
  | nop | brInit | bwInit => exact goesOn_next _
  | tblClear | tblWrPri | tblWrTail => exact goesOn_check (goesOn_next _)
  | brRead n =>
    refine goesOn_check (goesOn_check (goesOn_check ?_))
    split <;> exact goesOn_next _
  | bwWrite n =>
    refine goesOn_check (goesOn_check ?_)
    split <;> exact goesOn_next _
  | bwFinal | tblCommit | tblDecPri | tblDecTail =>
    refine goesOn_check ?_
    split <;> exact goesOn_next _
  | decode =>
    rw [exec, execDecode]
    repeat' split
    all_goals exact goesOn_next _

theorem runCommand_command {s : State} {i : Instr} (hd : decode s.lastCmd = .ok i) : s.runCommand = exec i s := by
  rw [State.runCommand, hd]

theorem runCommand_goesOn {s : State} (h : s.Inv) : GoesOn s.runCommand := by
  cases hd : decode s.lastCmd with
  | ok i =>
    rw [runCommand_command hd]
    exact exec_goesOn h i
  | error e =>
    rw [runCommand_illegal hd]
    exact goesOn_next _

/-- Settles O51: only the engine's run of a command could stop, and no command does. -/
theorem everyStepGoesOn : Obligations.EveryStepGoesOn := by
  refine ⟨fun s h => ?_, fun s i h => exec_goesOn h i⟩
  rw [step, State.move]
  split
  · split
    · exact runCommand_goesOn { h with }
    · exact goesOn_next _
  · split
    · exact runCommand_goesOn { h with }
    · exact goesOn_next _
  · exact goesOn_next _

/-! ### How a command ends -/

/-- A command that answers a next state has completed (R74): without an error, and with the error record as at acceptance,
or with an error, and with that error's record (R121). -/
theorem exec_completion {i : Instr} {s t : State} (h : exec i s = .next t) :
    t.status.busy = false ∧ t.status.done = true ∧
      ((t.status.err = s.status.err ∧ t.errCode = s.errCode ∧ t.errInfo = s.errInfo) ∨
        (t.status.err = true ∧ ∃ e : Err, t.errCode = e.code ∧ t.errInfo = e.info)) := by
  obtain ⟨u, hu, rfl⟩ | ⟨e, rfl⟩ | ⟨a, rfl⟩ := exec_cases h
  · rw [hu.frame]
    exact ⟨rfl, rfl, .inl ⟨rfl, rfl, rfl⟩⟩
  · exact ⟨rfl, rfl, .inr ⟨rfl, e, rfl, rfl⟩⟩
  · exact ⟨rfl, rfl, .inr ⟨rfl, .busError a, rfl, rfl⟩⟩

/-- The mask of the tables an error names (R119). -/
theorem tableMask_toNat (b c : Bool) : (tableMask b c).toNat = b.toNat + 2 * c.toNat := by
  cases b <;> cases c <;> rfl

/-- `MalformedTable` records the index below its two flags (R119). -/
theorem malformedTable_info_toNat {n : Nat} (hn : n < 2 ^ 16) (b c : Bool) :
    (Err.malformedTable n b c).info.toNat = n + 2 ^ 16 * b.toNat + 2 ^ 17 * c.toNat := by
  have hindex : (BitVec.ofNat 32 n).toNat = n := by
    rw [BitVec.toNat_ofNat]
    omega
  have hlow : (BitVec.ofNat 32 n).toNat < 2 ^ 16 := by rwa [hindex]
  rw [Err.info, or_flagBit_toNat c (by norm_num) (or_flagBit_lt b (by norm_num) hlow),
    or_flagBit_toNat b (by norm_num) hlow, hindex, Nat.mul_comm b.toNat, Nat.mul_comm c.toNat]

/-- Settles O52: a completion is one of two kinds, and `raise` leaves the code and the word of its error. -/
theorem commandsEndCompleted : Obligations.CommandsEndCompleted := by
  constructor
  · intro i s t h
    obtain ⟨hbusy, hdone, ⟨herr, hrecord⟩ | ⟨herr, e, hcode, -⟩⟩ := exec_completion h
    · exact ⟨hbusy, hdone, herr.trans, fun ht hs => by simp [herr, hs] at ht, fun _ => hrecord⟩
    · exact ⟨hbusy, hdone, fun _ => herr, fun _ _ => hcode ▸ e.code_bounds, fun ht => by simp [herr] at ht⟩
  · intro s w n b c hn
    have hword : (BitVec.ofNat 32 n).toNat = n := Nat.mod_eq_of_lt hn
    have hmask := tableMask_toNat b c
    exact ⟨fun h16 => ⟨rfl, malformedTable_info_toNat h16 b c⟩, rfl, rfl, rfl, hword, rfl, hword, rfl, rfl, rfl, hmask,
      rfl, hmask, rfl, hword, rfl, rfl, rfl, rfl, rfl, rfl, rfl, hword, rfl, rfl⟩

/-! ### The step runs the accepted command -/

/-- A step on which the engine moves, while a command is running, is that command's execution (R71, R73). -/
theorem step_exec {s : State} {i : Instr} {rest : List Input} (hb : s.status.busy = true)
    (hd : decode s.lastCmd = .ok i) (hin : s.inputs = .turn :: rest ∨ (s.inputs = [] ∧ rest = [])) :
    step s = exec i { s with inputs := rest, draws := s.draws + 1 } :=
  (step_runCommand hb hin).trans (runCommand_command hd)

/-- Settles O5: at a turn, and with no input left. -/
theorem stepRunsTheAcceptedCommand : Obligations.StepRunsTheAcceptedCommand := by
  intro s i hb hd
  refine ⟨fun rest hin => step_exec hb hd (.inl hin), fun hin => ?_⟩
  rw [step_exec hb hd (.inr ⟨hin, rfl⟩), ← hin]

/-- A word of 32 bits is placed whole (R63). -/
theorem State.withFetchWord_word (s : State) (w : Word) :
    s.withFetchWord 32 w.toNat = { s.accept w with inputs := .turn :: s.inputs } := by
  rw [State.withFetchWord, Nat.mod_eq_of_lt w.isLt, BitVec.ofNat_toNat, BitVec.setWidth_eq, State.withCommand]

/-- Settles O6: the placed word decodes to its command, and the turn at the head of the inputs runs it. -/
theorem fetchWordIsWhatRunsNext : Obligations.FetchWordIsWhatRunsNext := by
  intro s i hwf
  rw [State.withFetchWord_word]
  exact step_exec rfl (decodeAfterEncode i hwf) (.inl rfl)

/-! ### Writes of `CMD` -/

/-- R71: an idle engine with no error pending accepts the word. -/
theorem State.issue_accepted {s : State} (hb : s.status.busy = false) (he : s.status.err = false) (w : Word) :
    s.issue w = s.accept w := by
  rw [State.issue, hb, he, Bool.or_self, if_neg Bool.false_ne_true]

/-- R72: with an error pending the word is dropped. -/
theorem State.issue_dropped {s : State} (he : s.status.err = true) (w : Word) : s.issue w = s.dropWrite := by
  rw [State.issue, he, Bool.or_true, if_pos rfl]

/-- A step on a write of `CMD` while no command is running (R71, R72). -/
theorem step_issue {s : State} {w : Word} {rest : List Input} (h4 : s.params.regBase % 4 = 0)
    (hin : s.inputs = hostWr s.params.regBase .cmd w :: rest) (hb : s.status.busy = false) :
    step s = .next { State.issue { s with inputs := rest, draws := s.draws + 1 } w with resp := .ack } :=
  step_writeReg h4 hin (by rw [hb, Bool.false_and])

/-- Settles O8: the write of `CMD` reaches an idle engine, which accepts the word; the engine's next move runs it. -/
theorem issueIsAcceptedWhenIdle : Obligations.IssueIsAcceptedWhenIdle := by
  refine ⟨fun s w rest h4 hin hb he => ?_, fun s rest hb hin => ⟨fun i hd => step_exec hb hd hin, fun e hd => ?_⟩⟩
  · rw [step_issue h4 hin hb, State.issue_accepted]
    · rfl
    · exact hb
    · exact he
  · exact (step_runCommand hb hin).trans (runCommand_illegal hd)

/-- Settles O9: while `BUSY = 1` the window drops the write, and while `ERR = 1` the engine does. -/
theorem issueIsDroppedWhenBusyOrErr : Obligations.IssueIsDroppedWhenBusyOrErr := by
  intro s w rest h4 hin hor
  cases hb : s.status.busy with
  | true =>
    rw [step_dropWrite h4 hin (by rw [hb]; rfl)]
    rfl
  | false =>
    rw [step_issue h4 hin hb, State.issue_dropped]
    · rfl
    · exact hor.resolve_left (by simp [hb])

/-- Settles O19: `NOP` has no effect between acceptance and completion (R79). -/
theorem nopOnlyCompletes : Obligations.NopOnlyCompletes := by
  intro s
  rw [exec, execNop, State.complete, Status.completed]

end Sys2Proof.Machine
end

section
/-! PROOFS of the family `41_alphabet.md`: the next state of each Alphabet Table command, from what its checks and its lookup
find; and what the check of a commit finds in a table that fails it. -/

namespace Sys2Proof.Machine

/-! ### Illegal fields -/

/-- `SEL` is illegal exactly where it selects no table (R66). -/
theorem legalSel_false_iff {sel : BitVec 2} : legalSel sel = false ↔ sel = 0 :=
  bne_eq_false_iff_eq

/-- `N` is illegal exactly below 1 and above `READ_MAX` (R66). -/
theorem legalCount_false_iff {n : BitVec 5} : legalCount n = false ↔ n.toNat = 0 ∨ 16 < n.toNat := by
  rw [legalCount, Bool.and_eq_false_iff, decide_eq_false_iff_not, decide_eq_false_iff_not, not_le, not_le,
    Nat.lt_one_iff]

/-- Settles O37: each of the three meanings checks its field first. -/
theorem illegalFieldsAreRefusedByCommands : Obligations.IllegalFieldsAreRefusedByCommands :=
  fun _ => ⟨rfl, rfl, fun _ hn => if_pos (legalCount_false_iff.2 hn)⟩

/-! ### `TBL_CLEAR` -/

/-- R83: the selected tables become empty and uncommitted, the primary table independently of the tail table. -/
theorem exec_tblClear (s : State) {sel : BitVec 2} (hsel : sel ≠ 0) :
    exec (.tblClear sel) s = .next { s with
      pri := if sel.getLsbD 0 then Vector.replicate 2048 none else s.pri
      tail := if sel.getLsbD 1 then Vector.replicate 64 none else s.tail
      status := { s.status with
        busy := false, done := true, priValid := s.status.priValid && !sel.getLsbD 0,
        tailValid := s.status.tailValid && !sel.getLsbD 1 }
      touched := [] } := by
  rw [exec, execTblClear, if_neg (mt legalSel_false_iff.1 hsel), selPri, selTail]
  cases sel.getLsbD 0 <;> cases sel.getLsbD 1 <;>
    simp [State.complete, State.clearPri, State.clearTail, Status.completed]

/-- Settles O30: a selected table has become one with no entry written, and the other is the same table. -/
theorem tblClearEmptiesSelected : Obligations.TblClearEmptiesSelected := by
  intro s sel hsel
  refine ⟨_, exec_tblClear s hsel, rfl, ?_, ?_⟩
  · cases sel.getLsbD 0 with
    | true => exact fun i _ => priToken_replicate i
    | false => rfl
  · cases sel.getLsbD 1 with
    | true => exact fun j _ => tailToken_replicate j
    | false => rfl

/-! ### `TBL_WR_PRI` and `TBL_WR_TAIL` -/

theorem priToken_set (pri : Vector (Option PriToken) 2048) {i : Nat} (hi : i < 2048) (e : Option PriToken) (j : Nat) :
    priToken (pri.set i e hi) j = if j = i then e else priToken pri j := by
  rw [priToken, Vector.getElem?_set]
  by_cases h : i = j
  · simp [h]
  · rw [if_neg h, if_neg (Ne.symm h), priToken]

theorem tailToken_set (tail : Vector (Option Chr) 64) {i : Nat} (hi : i < 64) (e : Option Chr) (j : Nat) :
    tailToken (tail.set i e hi) j = if j = i then e else tailToken tail j := by
  rw [tailToken, Vector.getElem?_set]
  by_cases h : i = j
  · simp [h]
  · rw [if_neg h, if_neg (Ne.symm h), tailToken]

/-- Settles O31: the check for a committed table comes first; past it the command sets the entry that the index names. -/
theorem tblWritesStoreOneEntry : Obligations.TblWritesStoreOneEntry := by
  refine fun s => ⟨fun idx => ⟨fun hv => ?_, fun hv => if_pos hv⟩,
    fun idx => ⟨fun hv => ?_, fun hv => if_pos hv⟩⟩
  · refine ⟨_, if_neg (by simp [hv]), ?_, fun i _ hi => ?_⟩
    · rw [priToken_set, if_pos rfl]
    · rw [priToken_set, if_neg hi]
  · refine ⟨_, if_neg (by simp [hv]), ?_, fun j _ hj => ?_⟩
    · rw [tailToken_set, if_pos rfl]
    · rw [tailToken_set, if_neg hj]

/-! ### The check of a commit -/

section Check

variable {α : Type} [DecidableEq α] {l : List (Option α)} {token : Nat → Option α}

/-- R86: a table with an unwritten entry fails at the first of them. -/
theorem checkTable_unwritten (b : Bool) (htoken : ∀ (i : Nat) (h : i < l.length), token i = l[i]) {i : Nat}
    (hi : i < l.length) (hnone : token i = none) (hbefore : ∀ j, j < i → (token j).isSome) :
    checkTable b l = some (.malformedTable i false b) := by
  have hentry : ∀ j, j < l.length → l[j]? = some (token j) := fun j hj => by
    rw [htoken j hj, List.getElem?_eq_getElem hj]
  have hfirst : firstUnwritten l = some i := by
    refine firstUnwritten_some (by rw [hentry i hi, hnone]) fun j hj => ?_
    rw [hentry j (hj.trans hi)]
    obtain ⟨a, ha⟩ := Option.isSome_iff_exists.1 (hbefore j hj)
    exact ⟨a, congrArg some ha⟩
  rw [checkTable, hfirst]

/-- R86: a table with every entry written and a token twice fails at the first index whose token an earlier one has. -/
theorem checkTable_duplicate (b : Bool) (htoken : ∀ (i : Nat) (h : i < l.length), token i = l[i]) {i : Nat}
    (hi : i < l.length) (hwritten : ∀ j, j < l.length → (token j).isSome) (htwice : ∃ j, j < i ∧ token j = token i)
    (hbefore : ∀ k j, k < i → j < k → token j ≠ token k) :
    checkTable b l = some (.malformedTable i true b) := by
  have hall : firstUnwritten l = none := firstUnwritten_none.2 fun j hj => htoken j hj ▸ hwritten j hj
  have hfirst : firstDuplicate [] l = some i := by
    obtain ⟨j, hj, he⟩ := htwice
    rw [htoken j (hj.trans hi), htoken i hi] at he
    have h := firstDuplicate_some l [] i hi (.inr ⟨j, hj, he⟩) fun k hk => ⟨List.not_mem_nil, fun j hj hjk => ?_⟩
    · simpa using h
    · rw [← htoken j (by omega), ← htoken k (by omega)] at hjk
      exact hbefore k j hk hj hjk
  rw [checkTable, hall, hfirst]

end Check

/-- R86: a commit checks the selected tables that are not committed, the primary table before the tail table. -/
theorem State.commitError_eq_or (s : State) (sel : BitVec 2) :
    s.commitError sel =
      (if selPri sel && !s.status.priValid then checkTable false s.pri.toList else none).or
        (if selTail sel && !s.status.tailValid then checkTable true s.tail.toList else none) := by
  rw [State.commitError]
  split
  · next he => rw [he, Option.some_or]
  · next he => rw [he, Option.none_or]

/-- A selected primary table that is not committed and fails its check is what stops the commit (R86). -/
theorem State.commitError_pri {s : State} {sel : BitVec 2} {e : Err} (hsel : sel.getLsbD 0 = true)
    (hv : s.status.priValid = false) (he : checkTable false s.pri.toList = some e) : s.commitError sel = some e := by
  rw [State.commitError_eq_or, selPri, hsel, hv, he]
  rfl

/-- The tail table is checked where the primary table does not stop the commit (R86). -/
theorem State.commitError_tail {s : State} {sel : BitVec 2} {e : Err} (hsel : sel.getLsbD 1 = true)
    (hv : s.status.tailValid = false)
    (hready : sel.getLsbD 0 = true → s.status.priValid = true ∨ PriComplete s.pri)
    (he : checkTable true s.tail.toList = some e) : s.commitError sel = some e := by
  have hpri : (if selPri sel && !s.status.priValid then checkTable false s.pri.toList else none) = none := by
    split_ifs with h
    · rw [Bool.and_eq_true, Bool.not_eq_true'] at h
      exact (checkTable_pri false s.pri).2 ((hready h.1).resolve_left (by simp [h.2]))
    · rfl
  rw [State.commitError_eq_or, hpri, selTail, hsel, hv, he]
  rfl

/-- Whatever stops a commit is a `MalformedTable` (R86). -/
theorem State.commitError_malformed {s : State} {sel : BitVec 2} {e : Err} (h : s.commitError sel = some e) :
    ∃ index duplicate tailTable, e = .malformedTable index duplicate tailTable := by
  rw [State.commitError_eq_or, Option.or_eq_some_iff, Option.ite_none_right_eq_some, Option.ite_none_right_eq_some] at h
  obtain ⟨-, hpri⟩ | ⟨-, -, htail⟩ := h
  · obtain ⟨index, duplicate, rfl⟩ := checkTable_malformed hpri
    exact ⟨index, duplicate, false, rfl⟩
  · obtain ⟨index, duplicate, rfl⟩ := checkTable_malformed htail
    exact ⟨index, duplicate, true, rfl⟩

/-! ### `TBL_COMMIT` -/

/-- R86: a commit of which no check fails commits the selected tables. -/
theorem exec_tblCommit {s : State} {sel : BitVec 2} (hsel : sel ≠ 0) (hc : s.commitError sel = none) :
    exec (.tblCommit sel) s = .next { s with
      status := { s.status with
        busy := false, done := true, priValid := s.status.priValid || sel.getLsbD 0,
        tailValid := s.status.tailValid || sel.getLsbD 1 }
      touched := [] } := by
  rw [exec, execTblCommit, if_neg (mt legalSel_false_iff.1 hsel), hc]
  rfl

/-- R86: a commit of which a check fails raises its error, and commits nothing. -/
theorem exec_tblCommit_error {s : State} {sel : BitVec 2} {e : Err} (hsel : sel ≠ 0) (hc : s.commitError sel = some e) :
    exec (.tblCommit sel) s = .next (s.raise e) := by
  rw [exec, execTblCommit, if_neg (mt legalSel_false_iff.1 hsel), hc]

/-- Settles O32: `State.commitError_none` says when no check fails. -/
theorem tblCommitAcceptsCompleteTables : Obligations.TblCommitAcceptsCompleteTables := by
  refine fun s sel hsel => ⟨fun h => exec_tblCommit hsel (State.commitError_none.2 h), fun h => ?_⟩
  obtain ⟨e, he⟩ := Option.ne_none_iff_exists'.1 (mt State.commitError_none.1 h)
  obtain ⟨index, duplicate, tailTable, rfl⟩ := State.commitError_malformed he
  exact ⟨index, duplicate, tailTable, exec_tblCommit_error hsel he⟩

theorem ne_zero_of_getLsbD {w k : Nat} {x : BitVec w} (h : x.getLsbD k = true) : x ≠ 0 := by
  rintro rfl
  simp at h

/-- R119: the record of a commit that a table's check stops. -/
theorem exec_tblCommit_malformed {s : State} {sel : BitVec 2} {index : Nat} {duplicate tailTable : Bool} (hsel : sel ≠ 0)
    (hindex : index < 2 ^ 16) (hc : s.commitError sel = some (.malformedTable index duplicate tailTable)) :
    ∃ t, exec (.tblCommit sel) s = .next t ∧ t = s.raise (.malformedTable index duplicate tailTable) ∧
      t.errInfo.toNat = index + 2 ^ 16 * duplicate.toNat + 2 ^ 17 * tailTable.toNat :=
  ⟨_, exec_tblCommit_error hsel hc, rfl, malformedTable_info_toNat hindex duplicate tailTable⟩

/-- Settles O33: each table's check fails at its first bad entry, and the tail table's counts where the primary table's
finds nothing. -/
theorem tblCommitNamesTheFirstFailure : Obligations.TblCommitNamesTheFirstFailure := by
  intro s sel
  have hpri : ∀ (i : Nat) (h : i < s.pri.toList.length), priToken s.pri i = s.pri.toList[i] :=
    fun i h => priToken_getElem s.pri (by simpa using h)
  have htail : ∀ (j : Nat) (h : j < s.tail.toList.length), tailToken s.tail j = s.tail.toList[j] :=
    fun j h => tailToken_getElem s.tail (by simpa using h)
  refine ⟨fun i hi hsel hv => ⟨fun hnone hbefore => ?_, fun hwritten htwice hbefore => ?_⟩,
    fun j hj hsel hv hready => ⟨fun hnone hbefore => ?_, fun hwritten htwice hbefore => ?_⟩⟩
  · have he := checkTable_unwritten false hpri (by simpa using hi) hnone hbefore
    simpa using exec_tblCommit_malformed (ne_zero_of_getLsbD hsel) (by omega) (State.commitError_pri hsel hv he)
  · have he := checkTable_duplicate false hpri (by simpa using hi) (by simpa using hwritten) htwice hbefore
    simpa using exec_tblCommit_malformed (ne_zero_of_getLsbD hsel) (by omega) (State.commitError_pri hsel hv he)
  · have he := checkTable_unwritten true htail (by simpa using hj) hnone hbefore
    simpa using exec_tblCommit_malformed (ne_zero_of_getLsbD hsel) (by omega) (State.commitError_tail hsel hv hready he)
  · have he := checkTable_duplicate true htail (by simpa using hj) (by simpa using hwritten) htwice hbefore
    simpa using exec_tblCommit_malformed (ne_zero_of_getLsbD hsel) (by omega) (State.commitError_tail hsel hv hready he)

/-! ### The lookups -/

/-- R87: the lookup of a written entry of a committed table. -/
theorem exec_tblEncPri {s : State} {c0 c1 : Chr} (hv : s.status.priValid = true)
    (ht : priToken s.pri s.val.toNat = some (c0, c1)) :
    exec .tblEncPri s = .next (State.complete { s with tok0 := c0, tok1 := c1 }) := by
  rw [exec, execTblEncPri, if_neg (by simp [hv]), if_neg (by simpa using priToken_lt ht), ht]

/-- R88: the lookup of a written entry of a committed table. -/
theorem exec_tblEncTail {s : State} {c : Chr} (hv : s.status.tailValid = true)
    (ht : tailToken s.tail s.val.toNat = some c) :
    exec .tblEncTail s = .next (State.complete { s with tok0 := c }) := by
  rw [exec, execTblEncTail, if_neg (by simp [hv]), if_neg (by simpa using tailToken_lt ht), ht]

/-- Settles O34: a complete table has a token at every index in range; the errors are the checks in their order. -/
theorem tblEncLooksUpTokens : Obligations.TblEncLooksUpTokens := by
  intro s
  refine ⟨fun hv hp hi => ?_, fun hv ht hi => ?_, fun hv => if_pos hv, fun hv hi => ?_, fun hv => if_pos hv,
    fun hv hi => ?_⟩
  · obtain ⟨⟨c0, c1⟩, htoken⟩ := Option.isSome_iff_exists.1 (hp.written _ hi)
    exact ⟨c0, c1, htoken, exec_tblEncPri hv htoken⟩
  · obtain ⟨c, htoken⟩ := Option.isSome_iff_exists.1 (ht.written _ hi)
    exact ⟨c, htoken, exec_tblEncTail hv htoken⟩
  · rw [exec, execTblEncPri, if_neg (by simp [hv]), if_pos hi]
  · rw [exec, execTblEncTail, if_neg (by simp [hv]), if_pos hi]

/-- Settles O35: in a complete table the index found is the one that holds the token, and none is found where no entry
holds it. -/
theorem tblDecLooksUpIndices : Obligations.TblDecLooksUpIndices := by
  intro s
  refine ⟨fun hv hp => ⟨fun i _ htoken => ?_, fun habsent => ?_⟩, fun hv ht => ⟨fun j _ htoken => ?_, fun habsent => ?_⟩,
    fun hv => if_pos hv, fun hv => if_pos hv⟩
  · rw [exec, execTblDecPri, if_neg (by simp [hv]), hp.priInv_eq htoken]
    rfl
  · rw [exec, execTblDecPri, if_neg (by simp [hv]), priInv_none.2 fun i h => habsent i (priToken_lt h) h]
  · rw [exec, execTblDecTail, if_neg (by simp [hv]), ht.tailInv_eq htoken]
    rfl
  · rw [exec, execTblDecTail, if_neg (by simp [hv]), tailInv_none.2 fun j h => habsent j (tailToken_lt h) h]

/-- Settles O36: a committed table is complete (R41), so its tokens are written, and each is found at its own index only. -/
theorem tableLookupsAreInverse : Obligations.TableLookupsAreInverse := by
  refine fun s h => ⟨fun hv i hi => ?_, fun hv j hj => ?_⟩
  · obtain ⟨t, ht⟩ := Option.isSome_iff_exists.1 ((h.pri hv).written i hi)
    exact ⟨t, ht, (h.pri hv).priInv_eq ht⟩
  · obtain ⟨c, hc⟩ := Option.isSome_iff_exists.1 ((h.tail hv).written j hj)
    exact ⟨c, hc, (h.tail hv).tailInv_eq hc⟩

end Sys2Proof.Machine
end

section
/-! PROOFS of the family `42_bitreader.md`: the next state of `BR_READ` from what its checks find; the bits it returns, which
are those of the whole buffer's stream; and, by induction over a sequence of reads, that each goes on where the last one
stopped. -/

namespace Sys2Proof.Machine

/-- Settles O20: `BR_POS` is 0 then, so that all the bits of the buffer remain. -/
theorem brInitStartsAReader : Obligations.BrInitStartsAReader :=
  fun s => ⟨_, rfl, rfl, State.brRemWord_toNat (State.complete s.newReader)⟩

/-! ### The checks of `BR_READ`, in their order -/

/-- `N` is legal from 1 to `READ_MAX` (R66). -/
theorem legalCount_iff {n : BitVec 5} : legalCount n = true ↔ 1 ≤ n.toNat ∧ n.toNat ≤ 16 := by
  rw [← Bool.not_eq_false, legalCount_false_iff]
  omega

/-- R93: a legal `N` and an input buffer that wraps. -/
theorem exec_brRead_addressError {s : State} {n : BitVec 5} (hn : legalCount n = true)
    (ha : addrOK s.brBase s.brLen.toNat = false) : exec (.brRead n) s = .next (s.raise (.addressError s.brBase)) := by
  rw [exec, execBrRead, if_neg (by simp [hn]), if_pos ha]

/-- R93: past the check of the buffer, fewer than `N` bits remain. -/
theorem exec_brRead_endOfStream {s : State} {n : BitVec 5} (hn : legalCount n = true)
    (ha : addrOK s.brBase s.brLen.toNat = true) (hr : s.brRemaining < n.toNat) :
    exec (.brRead n) s = .next (s.raise (.endOfStream s.brRemaining)) := by
  rw [exec, execBrRead, if_neg (by simp [hn]), if_neg (by simp [ha]), if_pos hr]

/-- R93: with the bits remaining, the port refuses a byte that holds one of them. -/
theorem exec_brRead_busError {s : State} {n : BitVec 5} {a : Nat} (hn : legalCount n = true)
    (ha : addrOK s.brBase s.brLen.toNat = true) (hr : n.toNat ≤ s.brRemaining)
    (hp : s.RefusedFirst .read (s.brBase.toNat + s.readFirst) (s.readSpan n.toNat) a) :
    exec (.brRead n) s = .next (s.raise (.busError a)) := by
  rw [exec, execBrRead, if_neg (by simp [hn]), if_neg (by simp [ha]), if_neg (by omega), State.firstRefused_some.2 hp]

/-! ### The bytes of a read -/

/-- The bytes that a read touches end with the one that holds its last bit (R93). -/
theorem State.readFirst_add_readSpan (s : State) {n : Nat} (hn : 1 ≤ n) :
    s.readFirst + s.readSpan n = (s.brPos.toNat + n - 1) / 8 + 1 := by
  rw [State.readSpan, State.readFirst]
  omega

/-- The bits of the stream that memory holds (R11, R49). -/
theorem State.streamBit_memBytes (s : State) (base : Nat) {n i : Nat} (hi : i < 8 * n) :
    streamBit (s.memBytes base n) i = (s.mem.read (base + i / 8)).getLsbD (7 - i % 8) := by
  rw [streamBit, State.memBytes, List.getD_eq_getElem?_getD, List.getElem?_map, List.getElem?_range (by omega),
    Option.map_some, Option.getD_some]

/-- R93: a group read from the bytes that hold its bits is the same group of the whole buffer's stream. -/
theorem State.readBits_memBytes_part (s : State) (base : Nat) {len p m n : Nat} (hlen : p + n ≤ 8 * len)
    (hm : p % 8 + n ≤ 8 * m) :
    readBits (s.memBytes (base + p / 8) m) (p % 8) n = readBits (s.memBytes base len) p n := by
  refine groupValue_congr fun k hk => ?_
  rw [s.streamBit_memBytes _ (by omega), s.streamBit_memBytes _ (by omega),
    show base + p / 8 + (p % 8 + k) / 8 = base + (p + k) / 8 by omega,
    show (p % 8 + k) % 8 = (p + k) % 8 by omega]

/-- Where the buffer's bytes have one value, a read returns the next group of its stream (R91, R93). -/
theorem State.nextBits_stable {s : State} {n : Nat} (hs : s.stable s.brBase.toNat s.brLen.toNat) (hn : 1 ≤ n)
    (hlen : s.brPos.toNat + n ≤ 8 * s.brLen.toNat) :
    s.nextBits n = readBits (s.memBytes s.brBase.toNat s.brLen.toNat) s.brPos.toNat n := by
  have hspan := s.readFirst_add_readSpan hn
  have hpart : s.stable (s.brBase.toNat + s.readFirst) (s.readSpan n) :=
    State.stable_sub hs (by omega) (by omega)
  rw [State.readFirst] at hspan hpart
  rw [State.nextBits, State.readFirst, State.portBytes_stable hpart]
  exact s.readBits_memBytes_part _ hlen (by omega)

/-! ### One read -/

/-- The state that a `BR_READ` of `n` bits whose checks pass leaves (R93). -/
def State.afterRead (s : State) (n : Nat) : State :=
  State.complete { s with
    res := BitVec.ofNat 32 (s.nextBits n)
    brPos := BitVec.ofNat 32 (s.brPos.toNat + n) }

/-- R93: a legal read completes where its bits remain and the port allows the bytes that hold them. -/
theorem exec_brRead {s : State} {n : BitVec 5} (hn : 1 ≤ n.toNat ∧ n.toNat ≤ 16)
    (haddr : s.brBase.toNat + s.brLen.toNat ≤ 2 ^ 32) (hlen : s.brPos.toNat + n.toNat ≤ 8 * s.brLen.toNat)
    (hport : ∀ k, s.brPos.toNat / 8 ≤ k → k ≤ (s.brPos.toNat + n.toNat - 1) / 8 →
      s.memOK .read (s.brBase.toNat + k) = true) :
    exec (.brRead n) s = .next (s.afterRead n.toNat) := by
  have hspan := s.readFirst_add_readSpan hn.1
  have hallows : s.allows .read (s.brBase.toNat + s.readFirst) (s.readSpan n.toNat) := fun k hk => by
    rw [Nat.add_assoc]
    exact hport _ (Nat.le_add_right _ _) (by omega)
  rw [exec, execBrRead, if_neg (by simp [legalCount_iff.2 hn]), if_neg (by simp [addrOK_iff.2 haddr]),
    if_neg (by rw [State.brRemaining]; omega), State.firstRefused_none.2 hallows]
  rfl

/-- Settles O21: the checks pass, and a group of `N` bits is below `2^N`. -/
theorem brReadReturnsTheNextBits : Obligations.BrReadReturnsTheNextBits :=
  fun s n hn1 hn16 haddr hlen hport => ⟨s.nextBits n.toNat, groupValue_lt _ _ _,
    exec_brRead ⟨hn1, hn16⟩ haddr hlen hport, fun hs => State.nextBits_stable hs hn1 hlen⟩

/-- Settles O22: of the bytes read, the lowest refused one is reported (R55). -/
theorem brReadErrorsInOrder : Obligations.BrReadErrorsInOrder := by
  refine fun s n => ⟨fun hn => if_pos (legalCount_false_iff.2 hn), fun hn1 hn16 => ?_⟩
  have hn : legalCount n = true := legalCount_iff.2 ⟨hn1, hn16⟩
  refine ⟨fun haddr => exec_brRead_addressError hn (addrOK_false.2 haddr), fun haddr => ?_⟩
  have ha := addrOK_iff.2 haddr
  refine ⟨fun hr => exec_brRead_endOfStream hn ha hr, fun hlen k hfirst hlast hrefused hbefore => ?_⟩
  have hspan := s.readFirst_add_readSpan hn1
  rw [State.readFirst] at hspan
  refine exec_brRead_busError hn ha (by rw [State.brRemaining]; omega) ?_
  rw [State.readFirst]
  refine ⟨by omega, by omega, hrefused, fun a hge hlt => ?_⟩
  obtain ⟨j, rfl⟩ := Nat.exists_eq_add_of_le (show s.brBase.toNat ≤ a by omega)
  exact hbefore j (by omega) (by omega)

/-! ### A sequence of reads -/

/-- The whole input buffer lies in the address space, may be read, and has one value (R46, R47, R58). -/
structure State.ReaderReady (s : State) : Prop where
  input : s.brBase.toNat + s.brLen.toNat ≤ 2 ^ 32
  allowed : s.allows .read s.brBase.toNat s.brLen.toNat
  stable : s.stable s.brBase.toNat s.brLen.toNat

/-- A read leaves the buffer, the port and memory alone, so the next read finds the buffer as it was (R91). -/
theorem State.ReaderReady.afterRead {s : State} (h : s.ReaderReady) (n : Nat) : (s.afterRead n).ReaderReady where
  input := h.input
  allowed := h.allowed
  stable := fun k hk => ⟨rfl, (h.stable k hk).2⟩

/-- The cursor does not wrap within the stream, since `BR_LEN` has 29 bits (R30, R31). -/
theorem State.afterRead_brPos_toNat {s : State} {n : Nat} (hlen : s.brPos.toNat + n ≤ 8 * s.brLen.toNat) :
    (s.afterRead n).brPos.toNat = s.brPos.toNat + n := by
  have := s.brLen.isLt
  rw [State.afterRead, State.complete_brPos, BitVec.toNat_ofNat]
  omega

/-- The first read's result comes before those of the reads that follow. -/
theorem runReads_cons {n : BitVec 5} {ns : List (BitVec 5)} {s t u : State} {vs : List Word}
    (ht : exec (.brRead n) s = .next t) (hu : runReads ns t = some (vs, u)) :
    runReads (n :: ns) s = some (t.res :: vs, u) := by
  rw [runReads, ht]
  simp only [hu]

/-- R94 from any cursor: the reads return the groups that follow it, one after the other. -/
theorem runReads_consecutive (ns : List (BitVec 5)) {s : State} (hs : s.ReaderReady)
    (hns : ∀ n ∈ ns, 1 ≤ n.toNat ∧ n.toNat ≤ 16)
    (hlen : s.brPos.toNat + (ns.map BitVec.toNat).sum ≤ 8 * s.brLen.toNat) :
    ∃ vs u, runReads ns s = some (vs, u) ∧ vs.length = ns.length ∧
      u.brPos.toNat = s.brPos.toNat + (ns.map BitVec.toNat).sum ∧ u.status.err = s.status.err ∧
      ∀ r (h : r < ns.length), vs[r]? = some (BitVec.ofNat 32
        (readBits (s.memBytes s.brBase.toNat s.brLen.toNat)
          (s.brPos.toNat + ((ns.take r).map BitVec.toNat).sum) ns[r].toNat)) := by
  induction ns generalizing s with
  | nil => exact ⟨[], s, rfl, rfl, rfl, rfl, fun r h => absurd h (Nat.not_lt_zero r)⟩
  | cons n ns ih =>
    rw [List.map_cons, List.sum_cons] at hlen ⊢
    have hn := hns n List.mem_cons_self
    have hfit : s.brPos.toNat + n.toNat ≤ 8 * s.brLen.toNat := by omega
    have hpos := State.afterRead_brPos_toNat hfit
    have hread := exec_brRead hn hs.input hfit fun k _ hk => hs.allowed k (by omega)
    obtain ⟨vs, u, hrun, hcount, hend, herr, hgroups⟩ := ih (hs.afterRead n.toNat)
      (fun m hm => hns m (List.mem_cons_of_mem n hm))
      (show (s.afterRead n.toNat).brPos.toNat + _ ≤ 8 * s.brLen.toNat by omega)
    refine ⟨_, u, runReads_cons hread hrun, congrArg (· + 1) hcount, by omega, herr, fun r h => ?_⟩
    cases r with
    | zero => exact congrArg (fun v => some (BitVec.ofNat 32 v)) (State.nextBits_stable hs.stable hn.1 hfit)
    | succ r =>
      have hgroup := hgroups r (Nat.lt_of_succ_lt_succ h)
      rw [hpos, Nat.add_assoc] at hgroup
      exact hgroup

/-- Settles O23, from the cursor 0 of a new reader instance. -/
theorem readSequenceIsConsecutive : Obligations.ReadSequenceIsConsecutive := by
  intro s ns hpos hns hsum haddr hallows hstable
  have h0 : s.brPos.toNat = 0 := congrArg BitVec.toNat hpos
  have hrun := runReads_consecutive ns ⟨haddr, hallows, hstable⟩ hns (by omega)
  simpa only [h0, Nat.zero_add] using hrun

end Sys2Proof.Machine
end

section
/-! PROOFS of the family `43_bitwriter.md`: an emission is one check, whether there is room, and one effect, which appends
to the emitted bytes; so a `BW_WRITE` appends bits to the sequence that the writer stands for, a sequence of them appends
its bits, and `BW_FINAL` leaves that sequence packed. -/

namespace Sys2Proof.Machine

/-- Settles O24: the writer initialisation of R98, completed. -/
theorem bwInitStartsAWriter : Obligations.BwInitStartsAWriter :=
  fun _ => rfl

/-! ### Emission -/

/-- An emission of `e` bytes passes its checks: there is nothing to emit, or the bytes fit the buffer and the address
space and the port takes them (R97). -/
def State.HasRoom (s : State) (e : Nat) : Prop :=
  e = 0 ∨ (s.bwCnt.toNat + e ≤ s.bwCap.toNat ∧ s.emitAddr + e ≤ 2 ^ 32 ∧ s.allows .write s.emitAddr e)

/-- The effect of an emission: the bytes stored and counted (R97). -/
def State.afterEmit (s : State) (bs : List Byte) : State :=
  { s.portStore s.emitAddr bs with bwCnt := BitVec.ofNat 29 (s.bwCnt.toNat + bs.length) }

theorem State.afterEmit_nil (s : State) : s.afterEmit [] = s := by
  have hcnt : BitVec.ofNat 29 (s.bwCnt.toNat + 0) = s.bwCnt := by simp
  rw [State.afterEmit, List.length_nil, hcnt]
  rfl

/-- R97: an emission succeeds exactly where there is room, and then with its effect. -/
theorem State.emit_ok_iff {s u : State} {bs : List Byte} :
    s.emit bs = .ok u ↔ s.HasRoom bs.length ∧ u = s.afterEmit bs := by
  constructor
  · intro h
    obtain ⟨rfl, rfl⟩ | ⟨-, he, hp, rfl⟩ := State.emit_ok h
    · exact ⟨.inl rfl, (State.afterEmit_nil _).symm⟩
    · obtain ⟨hcap, haddr⟩ := State.emitError_none.1 he
      exact ⟨.inr ⟨hcap, haddr, State.firstRefused_none.1 hp⟩, rfl⟩
  · rintro ⟨h0 | ⟨hcap, haddr, hp⟩, rfl⟩
    · rw [List.length_eq_zero_iff.1 h0, State.afterEmit_nil, State.emit_nil]
    · have he := State.emitError_none.2 ⟨hcap, haddr⟩
      rw [← State.firstRefused_none] at hp
      cases bs with
      | nil => rw [State.afterEmit_nil, State.emit_nil]
      | cons b bs =>
        rw [State.emit, he, hp]
        rfl

/-- `BW_CNT` does not wrap, since `BW_CAP` has 29 bits (R34, R97). -/
theorem State.HasRoom.bwCnt_toNat {s : State} {bs : List Byte} (h : s.HasRoom bs.length) :
    (s.afterEmit bs).bwCnt.toNat = s.bwCnt.toNat + bs.length := by
  have hcnt := s.bwCnt.isLt
  have hcap := s.bwCap.isLt
  rw [State.afterEmit, BitVec.toNat_ofNat]
  obtain h0 | ⟨hfit, -⟩ := h <;> omega

theorem State.HasRoom.afterEmit_wf {s : State} {bs : List Byte} (h : s.HasRoom bs.length) (hwf : s.mem.wf = true) :
    (s.afterEmit bs).mem.wf = true := by
  obtain h0 | ⟨-, haddr, -⟩ := h
  · rw [List.length_eq_zero_iff.1 h0, State.afterEmit_nil]
    exact hwf
  · exact State.portStore_wf hwf haddr

/-- An emission changes memory in the emitted bytes only (R97). -/
theorem State.HasRoom.sameOutside {s : State} {bs : List Byte} (h : s.HasRoom bs.length) (hwf : s.mem.wf = true) :
    SameOutside s.mem (s.afterEmit bs).mem s.emitAddr bs.length := by
  obtain h0 | ⟨-, haddr, -⟩ := h
  · rw [List.length_eq_zero_iff.1 h0, State.afterEmit_nil]
    exact fun _ _ => rfl
  · exact State.portStore_outside hwf haddr

/-- Where the host has not raced, the emitted bytes stand where they were emitted (R97). -/
theorem State.HasRoom.holdsBytes {s : State} {bs : List Byte} (h : s.HasRoom bs.length) (hwf : s.mem.wf = true)
    (ht : s.touched = []) : HoldsBytes (s.afterEmit bs).mem s.emitAddr bs := by
  obtain h0 | ⟨-, haddr, -⟩ := h
  · rw [List.length_eq_zero_iff.1 h0]
    exact fun k hk => absurd hk (Nat.not_lt_zero k)
  · exact State.portStore_holds hwf ht haddr

/-! ### The emitted bytes -/

/-- The bytes the writer has emitted, as memory holds them: `b_0 .. b_{CNT-1}` of R96. -/
def State.emitted (s : State) : List Byte :=
  s.memBytes s.bwBase.toNat s.bwCnt.toNat

@[simp] theorem State.emitted_length (s : State) : s.emitted.length = s.bwCnt.toNat :=
  s.memBytes_length _ _

theorem State.writerBits_eq (s : State) : s.writerBits = bytesBits s.emitted ++ bitsOf s.accv.toNat s.accn.toNat := rfl

theorem State.writerBits_length (s : State) : s.writerBits.length = 8 * s.bwCnt.toNat + s.accn.toNat := by
  rw [State.writerBits_eq, List.length_append, bytesBits_length, bitsOf_length, State.emitted_length]

theorem State.memBytes_eq_iff {s : State} {base : Nat} {bs : List Byte} :
    s.memBytes base bs.length = bs ↔ HoldsBytes s.mem base bs := by
  rw [List.ext_getElem_iff, and_iff_right (s.memBytes_length _ _)]
  refine forall_congr' fun k => ⟨fun h hk => ?_, fun h hk hk' => ?_⟩
  · rw [List.getD_eq_getElem _ _ hk, ← h (by rwa [State.memBytes_length]) hk]
    simp [State.memBytes]
  · rw [← List.getD_eq_getElem _ 0 hk', ← h hk']
    simp [State.memBytes]

theorem State.memBytes_congr {s u : State} {base n : Nat}
    (h : ∀ k, k < n → u.mem.read (base + k) = s.mem.read (base + k)) : u.memBytes base n = s.memBytes base n :=
  List.map_congr_left fun k hk => h k (List.mem_range.1 hk)

/-- Where the host has not raced, an emission appends to the emitted bytes (R96, R97). -/
theorem State.HasRoom.emitted_afterEmit {s : State} {bs : List Byte} (h : s.HasRoom bs.length) (hwf : s.mem.wf = true)
    (ht : s.touched = []) : (s.afterEmit bs).emitted = s.emitted ++ bs := by
  have hstored : (s.afterEmit bs).memBytes s.emitAddr bs.length = bs := State.memBytes_eq_iff.2 (h.holdsBytes hwf ht)
  have hbefore : (s.afterEmit bs).memBytes s.bwBase.toNat s.bwCnt.toNat = s.emitted :=
    State.memBytes_congr fun k hk => h.sameOutside hwf _ (by rw [State.emitAddr]; omega)
  rw [State.emitted, h.bwCnt_toNat, State.memBytes_add]
  exact congrArg₂ (· ++ ·) hbefore hstored

theorem State.holdsBytes_emitted (s : State) : HoldsBytes s.mem s.bwBase.toNat s.emitted := by
  rw [← State.memBytes_eq_iff, State.emitted_length]
  rfl

/-! ### `BW_WRITE` -/

theorem State.completedBytes_getD (s : State) {n k : Nat} (hk : k < s.pendingWidth n / 8) :
    (s.completedBytes n).getD k 0 = BitVec.ofNat 8 (s.pendingBits n / 2 ^ (s.pendingWidth n - 8 * (k + 1))) := by
  rw [State.completedBytes, List.getD_eq_getElem?_getD, List.getElem?_map, List.getElem?_range hk, Option.map_some,
    Option.getD_some]

/-- The state that a `BW_WRITE` of `n` bits leaves where there is room (R100). -/
def State.afterWrite (s : State) (n : Nat) : State :=
  State.complete { s.afterEmit (s.completedBytes n) with
    accn := BitVec.ofNat 3 (s.pendingWidth n % 8)
    accv := BitVec.ofNat 7 (s.pendingBits n % 2 ^ (s.pendingWidth n % 8)) }

/-- R100: a legal write to an open writer completes where there is room for the bytes it completes. -/
theorem exec_bwWrite {s : State} {n : BitVec 5} (hn : 1 ≤ n.toNat ∧ n.toNat ≤ 16) (hc : s.status.bwClosed = false)
    (h : s.HasRoom (s.completedBytes n.toNat).length) : exec (.bwWrite n) s = .next (s.afterWrite n.toNat) := by
  rw [exec, execBwWrite, if_neg (by simp [legalCount_iff.2 hn]), if_neg (by simp [hc]), State.emit_ok_iff.2 ⟨h, rfl⟩]
  rfl

/-- Settles O25: the completed bytes are emitted, and what is left of the bits waits. -/
theorem bwWriteAppendsBits : Obligations.BwWriteAppendsBits := by
  intro s n hn1 hn16 hc w S a hroom
  have hlen : (s.completedBytes n.toNat).length = w / 8 := s.completedBytes_length _
  have hbytes : s.HasRoom (s.completedBytes n.toNat).length := hlen ▸ hroom
  refine ⟨(s.afterWrite n.toNat).mem, ?_, fun h0 => ?_, fun hwf => ?_, fun hwf ht k hk => ?_⟩
  · rw [exec_bwWrite ⟨hn1, hn16⟩ hc hbytes, ← hlen]
    rfl
  · show (s.afterEmit (s.completedBytes n.toNat)).mem = s.mem
    rw [List.length_eq_zero_iff.1 (hlen.trans h0), State.afterEmit_nil]
  · rw [← hlen]
    exact hbytes.sameOutside hwf
  · exact (hbytes.holdsBytes hwf ht k (hk.trans_eq hlen.symm)).trans (s.completedBytes_getD hk)

/-- The bits of the bytes that a write completes (R95, R100). -/
theorem State.bytesBits_completedBytes (s : State) (n : Nat) :
    bytesBits (s.completedBytes n) = (List.range (s.pendingWidth n / 8)).flatMap fun k =>
      bitsOf (s.pendingBits n / 2 ^ (s.pendingWidth n - 8 * (k + 1)) % 256) 8 := by
  rw [bytesBits, State.completedBytes, List.flatMap_map]
  rfl

/-- R100: the completed bytes and the bits left are the waiting bits with the low `n` bits of `VAL` appended. -/
theorem State.pendingBits_split (s : State) (n : Nat) :
    bytesBits (s.completedBytes n) ++
        bitsOf (s.pendingBits n % 2 ^ (s.pendingWidth n % 8)) (s.pendingWidth n % 8) =
      bitsOf s.accv.toNat s.accn.toNat ++ bitsOf s.val.toNat n := by
  have hcut := bitsOf_bytes (s.pendingBits n) (s.pendingWidth n % 8) (s.pendingWidth n / 8)
  rw [Nat.div_add_mod, ← State.bytesBits_completedBytes] at hcut
  calc _ = bitsOf (s.pendingBits n) (s.accn.toNat + n) := hcut.symm
    _ = bitsOf s.accv.toNat s.accn.toNat ++ bitsOf (s.valLow n) n :=
        bitsOf_append _ _ _ _ (Nat.mod_lt _ (by positivity))
    _ = bitsOf s.accv.toNat s.accn.toNat ++ bitsOf s.val.toNat n := by rw [State.valLow, bitsOf_mod]

/-- The waiting bits are what their two registers hold: fewer than 8, in 7 bits (R36, R100). -/
theorem State.afterWrite_acc (s : State) (n : Nat) :
    bitsOf (s.afterWrite n).accv.toNat (s.afterWrite n).accn.toNat =
      bitsOf (s.pendingBits n % 2 ^ (s.pendingWidth n % 8)) (s.pendingWidth n % 8) := by
  have hr : s.pendingWidth n % 8 ≤ 7 := by omega
  have hv : s.pendingBits n % 2 ^ (s.pendingWidth n % 8) < 2 ^ 7 :=
    (Nat.mod_lt _ (by positivity)).trans_le (Nat.pow_le_pow_right (by omega) hr)
  rw [State.afterWrite, State.complete_accv, State.complete_accn, BitVec.toNat_ofNat, BitVec.toNat_ofNat,
    Nat.mod_eq_of_lt hv, Nat.mod_eq_of_lt (show s.pendingWidth n % 8 < 2 ^ 3 by omega)]

/-- R96, R100: a write that has room appends the low `n` bits of `VAL` to the writer's bits. -/
theorem State.writerBits_afterWrite {s : State} {n : Nat} (h : s.HasRoom (s.completedBytes n).length)
    (hwf : s.mem.wf = true) (ht : s.touched = []) :
    (s.afterWrite n).writerBits = s.writerBits ++ bitsOf s.val.toNat n := by
  have hemitted : (s.afterWrite n).emitted = s.emitted ++ s.completedBytes n := h.emitted_afterEmit hwf ht
  rw [State.writerBits_eq, State.writerBits_eq, hemitted, State.afterWrite_acc, bytesBits_append, List.append_assoc,
    State.pendingBits_split, List.append_assoc]

/-- Settles O28: a `BW_WRITE` that leaves `ERR` clear raised nothing, so that its emission had room. -/
theorem bwWriteKeepsTheBitSequence : Obligations.BwWriteKeepsTheBitSequence := by
  intro s t n hinv ht _ hexec herr
  obtain ⟨v, hv, rfl⟩ | ⟨e, rfl⟩ | ⟨a, rfl⟩ := exec_cases hexec
  · cases hv with
    | bwWrite n hn hc u hu =>
      obtain ⟨hroom, rfl⟩ := State.emit_ok_iff.1 hu
      exact State.writerBits_afterWrite hroom hinv.memory ht
  · exact absurd herr (by simp)
  · exact absurd herr (by simp)

/-! ### `BW_FINAL` -/

/-- The state that a `BW_FINAL` leaves where there is room (R101). -/
def State.afterFinal (s : State) (p : FinalMode) : State :=
  State.complete { s.afterEmit (s.flushedBytes p) with
    accv := 0
    accn := 0
    status := { s.status with bwClosed := true } }

/-- R101: the end of an open writer completes where there is room for the byte it flushes, if any. -/
theorem exec_bwFinal {s : State} {p : FinalMode} (hc : s.status.bwClosed = false)
    (h : s.HasRoom (s.flushedBytes p).length) : exec (.bwFinal p) s = .next (s.afterFinal p) := by
  rw [exec, execBwFinal, if_neg (by simp [hc]), State.emit_ok_iff.2 ⟨h, rfl⟩]
  rfl

theorem State.flushedBytes_nil {s : State} {p : FinalMode} (h : p = .trunc ∨ s.accn = 0) : s.flushedBytes p = [] := by
  cases p with
  | trunc => rfl
  | pad => exact if_pos (h.resolve_left nofun)

theorem State.flushedBytes_pad {s : State} (h : s.accn ≠ 0) :
    s.flushedBytes .pad = [BitVec.ofNat 8 (s.accv.toNat * 2 ^ (8 - s.accn.toNat))] :=
  if_neg h

/-- Settles O26: no byte to flush, which needs no room, or one. -/
theorem bwFinalClosesTheWriter : Obligations.BwFinalClosesTheWriter := by
  refine fun s p hc => ⟨fun hp => ?_, fun hp hacc hcap haddr hport => ?_⟩
  · have hnil := State.flushedBytes_nil hp
    rw [exec_bwFinal hc (.inl (by rw [hnil]; rfl)), State.afterFinal, hnil, State.afterEmit_nil]
    rfl
  · subst hp
    have hone := State.flushedBytes_pad hacc
    have hroom : s.HasRoom [BitVec.ofNat 8 (s.accv.toNat * 2 ^ (8 - s.accn.toNat))].length := by
      refine .inr ⟨hcap, haddr, fun k hk => ?_⟩
      rw [Nat.lt_one_iff.1 hk]
      exact hport
    refine ⟨_, ?_, hroom.sameOutside, fun hwf ht => hroom.holdsBytes hwf ht 0 Nat.one_pos⟩
    rw [exec_bwFinal hc (by rwa [hone]), State.afterFinal, hone]
    rfl

/-! ### The errors of the two commands, in their order -/

/-- The bytes that a legal writing command emits (R100, R101). -/
inductive Emits (s : State) : Instr → List Byte → Prop where
  | bwWrite (n : BitVec 5) (hn : legalCount n = true) : Emits s (.bwWrite n) (s.completedBytes n.toNat)
  | bwFinal (p : FinalMode) : Emits s (.bwFinal p) (s.flushedBytes p)

/-- R100, R101: a writing command to a closed writer. -/
theorem Emits.exec_closed {s : State} {i : Instr} {bs : List Byte} (h : Emits s i bs) (hc : s.status.bwClosed = true) :
    exec i s = .next (s.raise (.sequenceError s.lastCmd)) := by
  cases h with
  | bwWrite n hn => rw [exec, execBwWrite, if_neg (by simp [hn]), if_pos hc]
  | bwFinal p => rw [exec, execBwFinal, if_pos hc]

/-- R100, R101: with an open writer, an error of the emission is the command's. -/
theorem Emits.exec_error {s t : State} {i : Instr} {bs : List Byte} (h : Emits s i bs)
    (hc : s.status.bwClosed = false) (he : s.emit bs = .error t) : exec i s = .next t := by
  cases h with
  | bwWrite n hn => rw [exec, execBwWrite, if_neg (by simp [hn]), if_neg (by simp [hc]), he]
  | bwFinal p => rw [exec, execBwFinal, if_neg (by simp [hc]), he]

/-- R97: a check of an emission of at least one byte fails. -/
theorem State.emit_raise {s : State} {bs : List Byte} {e : Err} (hbs : bs ≠ [])
    (he : s.emitError bs.length = some e) : s.emit bs = .error (s.raise e) := by
  rw [State.emit, if_neg (by simpa using hbs), he]

/-- R97: the checks pass, and the port refuses one of the bytes. -/
theorem State.emit_raiseBus {s : State} {bs : List Byte} {a : Nat} (hbs : bs ≠ [])
    (he : s.emitError bs.length = none) (hp : s.RefusedFirst .write s.emitAddr bs.length a) :
    s.emit bs = .error (s.raiseBus a s.emitAddr bs.length) := by
  rw [State.emit, if_neg (by simpa using hbs), he, State.firstRefused_some.2 hp]

theorem State.emitError_capacity {s : State} {e : Nat} (h : s.bwCap.toNat < s.bwCnt.toNat + e) :
    s.emitError e = some (.capacityExceeded (s.bwCnt.toNat + e)) :=
  if_pos h

theorem State.emitError_address {s : State} {e : Nat} (hcap : s.bwCnt.toNat + e ≤ s.bwCap.toNat)
    (h : 2 ^ 32 < s.emitAddr + e) : s.emitError e = some (.addressError s.bwBase) := by
  rw [State.emitAddr, Nat.add_assoc] at h
  rw [State.emitError, if_neg (by omega), if_pos (addrOK_false.2 h)]

/-- Settles O27: a closed writer stops either command before its emission, whose errors are then the command's. -/
theorem writerErrorsInOrder : Obligations.WriterErrorsInOrder := by
  intro s i e hi
  have hemits : ∃ bs, Emits s i bs ∧ bs.length = e := by
    obtain ⟨n, rfl, hn1, hn16, rfl⟩ | ⟨rfl, rfl⟩ | ⟨rfl, rfl⟩ := hi
    · exact ⟨_, .bwWrite n (legalCount_iff.2 ⟨hn1, hn16⟩), s.completedBytes_length _⟩
    · refine ⟨_, .bwFinal .pad, ?_⟩
      rw [State.flushedBytes]
      split_ifs <;> rfl
    · exact ⟨_, .bwFinal .trunc, rfl⟩
  obtain ⟨bs, hbs, rfl⟩ := hemits
  refine ⟨hbs.exec_closed, fun hc h1 => ?_⟩
  have hne : bs ≠ [] := List.ne_nil_of_length_pos h1
  refine ⟨fun hcap => ?_, fun hcap haddr => ?_, fun hcap haddr k hk hrefused hbefore => ?_⟩
  · exact hbs.exec_error hc (State.emit_raise hne (State.emitError_capacity hcap))
  · exact hbs.exec_error hc (State.emit_raise hne (State.emitError_address hcap haddr))
  · have hfirst : s.RefusedFirst .write s.emitAddr bs.length (s.emitAddr + k) := by
      refine ⟨Nat.le_add_right _ _, Nat.add_lt_add_left hk _, hrefused, fun b hge hlt => ?_⟩
      obtain ⟨j, rfl⟩ := Nat.exists_eq_add_of_le hge
      exact hbefore j (Nat.lt_of_add_lt_add_left hlt)
    exact ⟨_, hbs.exec_error hc (State.emit_raiseBus hne (State.emitError_none.2 ⟨hcap, haddr⟩) hfirst),
      fun hwf => State.scramble_outside hwf haddr⟩

/-! ### A sequence of writes -/

theorem SameOutside.trans {m m' m'' : Memory} {base n : Nat} (h : SameOutside m m' base n)
    (h' : SameOutside m' m'' base n) : SameOutside m m'' base n :=
  fun a ha => (h' a ha).trans (h a ha)

theorem SameOutside.mono {m m' : Memory} {base base' n n' : Nat} (h : SameOutside m m' base n) (hlo : base' ≤ base)
    (hhi : base + n ≤ base' + n') : SameOutside m m' base' n' :=
  fun a ha => h a (by omega)

/-- The output buffer takes `k` bytes from `BW_BASE` on: they fit its capacity and the address space, and the port takes
them (R97). -/
structure State.BufferTakes (s : State) (k : Nat) : Prop where
  capacity : k ≤ s.bwCap.toNat
  address : s.bwBase.toNat + k ≤ 2 ^ 32
  allowed : s.allows .write s.bwBase.toNat k

/-- Where the buffer takes the bytes emitted so far and `e` more, those have room. -/
theorem State.BufferTakes.hasRoom {s : State} {k e : Nat} (h : s.BufferTakes k) (he : s.bwCnt.toNat + e ≤ k) :
    s.HasRoom e := by
  refine .inr ⟨he.trans h.capacity, ?_, fun j hj => ?_⟩
  · have := h.address
    rw [State.emitAddr]
    omega
  · rw [State.emitAddr, Nat.add_assoc]
    exact h.allowed _ (by omega)

/-- An emission of bytes that the buffer takes changes memory in the buffer only. -/
theorem State.HasRoom.sameOutside_buffer {s : State} {bs : List Byte} {k : Nat} (h : s.HasRoom bs.length)
    (hwf : s.mem.wf = true) (hk : s.bwCnt.toNat + bs.length ≤ k) :
    SameOutside s.mem (s.afterEmit bs).mem s.bwBase.toNat k :=
  (h.sameOutside hwf).mono (Nat.le_add_right _ _) (by rw [State.emitAddr]; omega)

/-- A writer that a command may use: open, no error pending, memory canonical and no racing write of the host. -/
structure State.WriterReady (s : State) : Prop where
  memory : s.mem.wf = true
  untouched : s.touched = []
  opened : s.status.bwClosed = false
  noErr : s.status.err = false

/-- What a sequence of writes leaves: a writer in the same buffer, ready for more, that stands for `bits` more bits, with
memory changed in the `k` bytes of the buffer only. -/
structure State.Wrote (s t : State) (bits : List Bool) (k : Nat) : Prop where
  ready : t.WriterReady
  base : t.bwBase = s.bwBase
  buffer : ∀ j, s.BufferTakes j → t.BufferTakes j
  writerBits : t.writerBits = s.writerBits ++ bits
  outside : SameOutside s.mem t.mem s.bwBase.toNat k

/-- The host's write of `VAL` before a command is no part of the writer's state (R26, R96). -/
theorem State.Wrote.setVal {s : State} (h : s.WriterReady) (v : Word) (k : Nat) : s.Wrote { s with val := v } [] k where
  ready := ⟨h.memory, h.untouched, h.opened, h.noErr⟩
  base := rfl
  buffer := fun _ hj => ⟨hj.capacity, hj.address, hj.allowed⟩
  writerBits := (List.append_nil _).symm
  outside := fun _ _ => rfl

theorem State.Wrote.trans {s t u : State} {bits bits' : List Bool} {k : Nat} (h : s.Wrote t bits k)
    (h' : t.Wrote u bits' k) : s.Wrote u (bits ++ bits') k where
  ready := h'.ready
  base := h'.base.trans h.base
  buffer := fun j hj => h'.buffer j (h.buffer j hj)
  writerBits := by rw [h'.writerBits, h.writerBits, List.append_assoc]
  outside := h.outside.trans (by
    have := h'.outside
    rwa [h.base] at this)

/-- R100: one write where the buffer takes the bytes it completes. -/
theorem State.WriterReady.afterWrite {s : State} (h : s.WriterReady) {n k : Nat} (hk : s.BufferTakes k)
    (hlen : s.bwCnt.toNat + (s.completedBytes n).length ≤ k) :
    s.Wrote (s.afterWrite n) (bitsOf s.val.toNat n) k := by
  have hroom := hk.hasRoom hlen
  exact {
    ready := ⟨hroom.afterEmit_wf h.memory, rfl, h.opened, h.noErr⟩
    base := rfl
    buffer := fun _ hj => ⟨hj.capacity, hj.address, hj.allowed⟩
    writerBits := State.writerBits_afterWrite hroom h.memory h.untouched
    outside := hroom.sameOutside_buffer h.memory hlen }

/-- R102 without its last command: the writes append their bits, where the buffer takes all the bytes they complete. -/
theorem runWrites_wrote (ws : List (Word × BitVec 5)) {s : State} {k : Nat} (hs : s.WriterReady) (hk : s.BufferTakes k)
    (hws : ∀ w ∈ ws, 1 ≤ w.2.toNat ∧ w.2.toNat ≤ 16)
    (hlen : (s.writerBits ++ writesBits ws).length / 8 ≤ k) :
    ∃ t, runWrites ws s = some t ∧ s.Wrote t (writesBits ws) k := by
  induction ws generalizing s with
  | nil => exact ⟨s, rfl, State.Wrote.setVal hs s.val k⟩
  | cons w ws ih =>
    obtain ⟨v, n⟩ := w
    have hbits : writesBits ((v, n) :: ws) = bitsOf v.toNat n.toNat ++ writesBits ws := rfl
    rw [hbits, List.length_append, List.length_append, State.writerBits_length, bitsOf_length] at hlen
    have hval := State.Wrote.setVal hs v k
    have hfit : s.bwCnt.toNat + (State.completedBytes { s with val := v } n.toNat).length ≤ k := by
      rw [State.completedBytes_length]
      dsimp only
      omega
    have hexec := exec_bwWrite (hws (v, n) List.mem_cons_self) hval.ready.opened ((hval.buffer k hk).hasRoom hfit)
    have hwrote := hval.trans (hval.ready.afterWrite (hval.buffer k hk) hfit)
    obtain ⟨t, hrun, ht⟩ := ih hwrote.ready (hwrote.buffer k hk) (fun w hw => hws w (List.mem_cons_of_mem _ hw)) (by
      rw [List.length_append, hwrote.writerBits, List.length_append, State.writerBits_length, List.nil_append,
        bitsOf_length]
      omega)
    refine ⟨t, ?_, hwrote.trans ht⟩
    rw [runWrites, hexec]
    exact hrun

/-! ### The packed bytes -/

theorem packedBytes_trunc_length (w : List Bool) : (packedBytes .trunc w).length = w.length / 8 :=
  bitsToBytes_length w

theorem packedBytes_pad_length (w : List Bool) : (packedBytes .pad w).length = (w.length + 7) / 8 := by
  rw [packedBytes, bitsToBytes_length, List.length_append, List.length_replicate]
  omega

theorem length_div_le_packedBytes (p : FinalMode) (w : List Bool) : w.length / 8 ≤ (packedBytes p w).length := by
  cases p with
  | trunc => rw [packedBytes_trunc_length]
  | pad =>
    rw [packedBytes_pad_length]
    omega

theorem bytesBits_ofNat (v : Nat) : bytesBits [BitVec.ofNat 8 v] = bitsOf v 8 := by
  rw [bytesBits, List.flatMap_cons, BitVec.toNat_ofNat, bitsOf_mod]
  exact List.append_nil _

/-- R101, R102: the packed bytes of the writer's bits are the emitted ones, and the one that `BW_FINAL` flushes. -/
theorem State.packedBytes_writerBits (s : State) (p : FinalMode) :
    packedBytes p s.writerBits = s.emitted ++ s.flushedBytes p := by
  have hacc := s.accn.isLt
  cases p with
  | trunc =>
    rw [packedBytes, State.writerBits_eq, bitsToBytes_bytesBits _ _ (by rw [bitsOf_length]; omega),
      State.flushedBytes_nil (.inl rfl), List.append_nil]
  | pad =>
    have hmod : s.writerBits.length % 8 = s.accn.toNat := by
      rw [State.writerBits_length]
      omega
    rw [packedBytes, hmod, State.writerBits_eq]
    by_cases h0 : s.accn = 0
    · have hzero : s.accn.toNat = 0 := congrArg BitVec.toNat h0
      rw [hzero, State.flushedBytes_nil (.inr h0), List.append_nil, List.append_assoc]
      exact bitsToBytes_bytesBits _ _ (by simp [bitsOf])
    · have hpos : s.accn.toNat ≠ 0 := fun h => h0 (BitVec.eq_of_toNat_eq h)
      rw [Nat.mod_eq_of_lt (show 8 - s.accn.toNat < 8 by omega), List.append_assoc, ← bitsOf_shifted _ hacc.le,
        State.flushedBytes_pad h0, ← bytesBits_ofNat, ← bytesBits_append, ← List.append_nil (bytesBits _)]
      exact bitsToBytes_bytesBits _ [] (by simp)

/-- R101: the end of a writer leaves its bits packed at `BW_BASE`, where the buffer takes the packed bytes. -/
theorem exec_bwFinal_packed {t : State} {p : FinalMode} (h : t.WriterReady)
    (hk : t.BufferTakes (packedBytes p t.writerBits).length) :
    ∃ u, exec (.bwFinal p) t = .next u ∧ u.status.err = false ∧
      u.bwCnt.toNat = (packedBytes p t.writerBits).length ∧
      HoldsBytes u.mem t.bwBase.toNat (packedBytes p t.writerBits) ∧
      SameOutside t.mem u.mem t.bwBase.toNat (packedBytes p t.writerBits).length := by
  have hlen : (packedBytes p t.writerBits).length = t.bwCnt.toNat + (t.flushedBytes p).length := by
    rw [State.packedBytes_writerBits, List.length_append, State.emitted_length]
  have hroom := hk.hasRoom hlen.ge
  have hemitted : (t.afterFinal p).emitted = packedBytes p t.writerBits := by
    rw [State.packedBytes_writerBits]
    exact hroom.emitted_afterEmit h.memory h.untouched
  refine ⟨_, exec_bwFinal h.opened hroom, h.noErr, hroom.bwCnt_toNat.trans hlen.symm, ?_,
    hroom.sameOutside_buffer h.memory hlen.ge⟩
  rw [← hemitted]
  exact (t.afterFinal p).holdsBytes_emitted

/-- Settles O29: by induction the writes append their bits to those of the new writer, which are none, and `BW_FINAL`
leaves them packed. -/
theorem writeSequencePacksTheBits : Obligations.WriteSequencePacksTheBits := by
  intro s ws p hwf ht hcnt _ haccn hc herr hws bits bs hcap haddr hallowed
  refine ⟨by rintro rfl; exact packedBytes_pad_length _, by rintro rfl; exact packedBytes_trunc_length _, ?_⟩
  have hbuffer : s.BufferTakes bs.length := ⟨hcap, haddr, hallowed⟩
  have hnew : s.writerBits = [] := by
    rw [← List.length_eq_zero_iff, State.writerBits_length, hcnt, haccn]
    rfl
  obtain ⟨t, hrun, hwrote⟩ := runWrites_wrote ws ⟨hwf, ht, hc, herr⟩ hbuffer hws (by
    rw [hnew]
    exact length_div_le_packedBytes p bits)
  have hbits : packedBytes p t.writerBits = bs := by
    rw [hwrote.writerBits, hnew]
    rfl
  have hfinal := exec_bwFinal_packed (p := p) hwrote.ready (by rw [hbits]; exact hwrote.buffer _ hbuffer)
  rw [hbits, hwrote.base] at hfinal
  obtain ⟨u, hu, huerr, hucnt, hbytes, hout⟩ := hfinal
  exact ⟨t, u, hrun, hu, huerr, hucnt, hbytes, hwrote.outside.trans hout⟩

end Sys2Proof.Machine
end

section
/-! PROOFS of the family `44_encode.md`: the length and the range of an encoding's symbols; what `ENCODE` does, from what its
checks and the port find; and that decoding an encoding gives back its input's bits and some zeros, so that `DECODE` undoes
`ENCODE` under `DUAL`. -/

namespace Sys2Proof.Machine

open Sys2Proof.Config

/-! ### The pure encoding -/

/-- Under `SINGLE`, the symbols are the groups of 11 bits of the input, the last one perhaps short (R106). -/
theorem fullGroups_add_tail (len : Nat) : fullGroups len + (if tailBits len = 0 then 0 else 1) = (8 * len + 10) / 11 := by
  have := fullGroups_tailBits len
  have := tailBits_lt len
  split_ifs <;> omega

/-- Settles O38: committed tables encode every input, and the string's length is `C(L)`. -/
theorem encodedLengthRelation : Obligations.EncodedLengthRelation := by
  intro policy pri tail b hpri htail
  obtain ⟨str, hstr⟩ := Option.isSome_iff_exists.1 (encodeChars_isSome hpri htail b)
  refine ⟨str, hstr, ?_, ?_⟩
  · rintro rfl
    rw [encodeChars_length hstr, encodedLength, fullGroups, tailBits]
    split_ifs <;> omega
  · rintro rfl
    have hlen : str.length = 2 * fullGroups b.length + (if tailBits b.length = 0 then 0 else 2) :=
      encodeChars_length hstr
    refine ⟨hlen, ?_⟩
    rw [hlen, ← fullGroups_add_tail]
    split_ifs <;> omega

/-! ### The checks of `ENCODE`, in their order -/

theorem State.encodeError_tables {s : State} (h : ¬s.tablesReady) :
    s.encodeError = some (.tableNotReady s.missingTables.1 s.missingTables.2) :=
  if_pos fun hnone => h (State.missingTables_none.1 hnone)

theorem State.encodeError_alignment {s : State} (ht : s.tablesReady) (h : s.csBase.toNat % 4 ≠ 0) :
    s.encodeError = some (.alignmentError s.csBase) := by
  rw [State.encodeError, if_neg (not_not.2 (State.missingTables_none.2 ht)), if_pos (State.csAligned_false.2 h)]

/-- R109: with the tables ready and `CS_BASE` aligned, the checks of the sizes and places of the buffers are left. -/
theorem State.encodeError_buffers {s : State} (ht : s.tablesReady) (ha : s.csBase.toNat % 4 = 0) :
    s.encodeError =
      if s.csCap.toNat < s.encodeLen then some (.capacityExceeded s.encodeLen)
      else if addrOK s.brBase s.brLen.toNat = false then some (.addressError s.brBase)
      else if addrOK s.csBase (4 * s.encodeLen) = false then some (.addressError s.csBase)
      else if overlap s.brBase.toNat s.brLen.toNat s.csBase.toNat (4 * s.encodeLen) then some .bufferOverlap
      else none := by
  rw [State.encodeError, if_neg (not_not.2 (State.missingTables_none.2 ht)),
    if_neg (by simp [State.csAligned_iff.2 ha])]

theorem overlap_iff {a m b n : Nat} : overlap a m b n = true ↔ 0 < m ∧ 0 < n ∧ a < b + n ∧ b < a + m := by
  simp only [overlap, Bool.and_eq_true, decide_eq_true_iff, and_assoc]

/-- The checks of `ENCODE` raise neither `IndexOutOfRange` nor `EndOfStream` (R108, R109). -/
theorem State.encodeError_code {s : State} {e : Err} (h : s.encodeError = some e) : e.code ≠ 0x02 ∧ e.code ≠ 0x04 := by
  rw [State.encodeError] at h
  split_ifs at h <;> cases h <;> simp [Err.code]

/-! ### What `ENCODE` does -/

/-- R109: a check fails. -/
theorem exec_encode_error {s : State} {e : Err} (h : s.encodeError = some e) :
    exec .encode s = .next (s.raise e) := by
  rw [exec, execEncode, h]

/-- R110: the checks pass, and the port refuses an access. -/
theorem exec_encode_busError {s : State} {a : Nat} (hready : s.EncodeReady s.brLen.toNat s.encodeLen)
    (h : s.encodeRefused = some a) :
    exec .encode s = .next (s.raiseBus a s.csBase.toNat (4 * s.encodeLen)) := by
  rw [exec, execEncode, State.encodeError_none.2 hready, h]

/-- The effect of `ENCODE`: the string stored and counted, the input consumed (R110). -/
def State.afterEncode (s : State) (str : List Chr) : State :=
  { s.portStore s.csBase.toNat (stringBytes str) with
    brPos := BitVec.ofNat 32 (8 * s.brLen.toNat), csCnt := BitVec.ofNat 30 str.length }

/-- `ENCODE` at `s` stores `str`: its checks pass, the port refuses nothing, and `str` encodes the bytes read (R109, R110). -/
structure State.EncodesTo (s : State) (str : List Chr) : Prop where
  ready : s.EncodeReady s.brLen.toNat s.encodeLen
  reads : s.allows .read s.brBase.toNat s.brLen.toNat
  writes : s.allows .write s.csBase.toNat (4 * s.encodeLen)
  string : encodeChars s.params.policy s.pri s.tail s.encodeInput = some str

/-- The committed tables have the tokens of every input (R41, R105). -/
theorem State.Inv.exists_encodesTo {s : State} (h : s.Inv) (hready : s.EncodeReady s.brLen.toNat s.encodeLen)
    (hreads : s.allows .read s.brBase.toNat s.brLen.toNat)
    (hwrites : s.allows .write s.csBase.toNat (4 * s.encodeLen)) : ∃ str, s.EncodesTo str := by
  obtain ⟨hpri, htail⟩ := hready.tables
  obtain ⟨str, hstr⟩ := Option.isSome_iff_exists.1
    (encodeChars_isSome (h.pri hpri) (fun hdual => h.tail (htail hdual)) s.encodeInput)
  exact ⟨str, hready, hreads, hwrites, hstr⟩

theorem State.EncodesTo.exec_eq {s : State} {str : List Chr} (h : s.EncodesTo str) :
    exec .encode s = .next (s.afterEncode str).complete := by
  rw [exec, execEncode, State.encodeError_none.2 h.ready, State.encodeRefused_none.2 ⟨h.reads, h.writes⟩, h.string]
  rfl

theorem State.EncodesTo.length {s : State} {str : List Chr} (h : s.EncodesTo str) : str.length = s.encodeLen :=
  State.encodeInput_chars h.string

theorem State.EncodesTo.bytes_length {s : State} {str : List Chr} (h : s.EncodesTo str) :
    (stringBytes str).length = 4 * s.encodeLen := by
  rw [stringBytes_length, h.length]

/-- The string stays in the address space (R47). -/
theorem State.EncodesTo.fits {s : State} {str : List Chr} (h : s.EncodesTo str) :
    s.csBase.toNat + (stringBytes str).length ≤ 2 ^ 32 := by
  rw [h.bytes_length]
  exact h.ready.output

/-- `ENCODE` changes memory in its output range only (R110). -/
theorem State.EncodesTo.sameOutside {s : State} {str : List Chr} (h : s.EncodesTo str) (hwf : s.mem.wf = true) :
    SameOutside s.mem (s.afterEncode str).mem s.csBase.toNat (4 * s.encodeLen) := by
  rw [← h.bytes_length]
  exact State.portStore_outside hwf h.fits

/-- Where the host has not raced, the string stands at `CS_BASE` (R50, R110). -/
theorem State.EncodesTo.holdsBytes {s : State} {str : List Chr} (h : s.EncodesTo str) (hwf : s.mem.wf = true)
    (ht : s.touched = []) : HoldsBytes (s.afterEncode str).mem s.csBase.toNat (stringBytes str) :=
  State.portStore_holds hwf ht h.fits

/-- Where the input's bytes have one value, the string encodes the bytes that memory holds (R105, R110). -/
theorem State.EncodesTo.encodeChars_memBytes {s : State} {str : List Chr} (h : s.EncodesTo str)
    (hstable : s.stable s.brBase.toNat s.brLen.toNat) :
    encodeChars s.params.policy s.pri s.tail (s.memBytes s.brBase.toNat s.brLen.toNat) = some str := by
  rw [← State.portBytes_stable hstable]
  exact h.string

/-- `CS_CNT` does not wrap, since `CS_CAP` has 30 bits (R39, R40, R109). -/
theorem State.EncodesTo.csCnt_toNat {s : State} {str : List Chr} (h : s.EncodesTo str) :
    (s.afterEncode str).csCnt.toNat = s.encodeLen := by
  have hcap := h.ready.capacity
  have hlt := s.csCap.isLt
  rw [State.afterEncode, h.length, BitVec.toNat_ofNat]
  omega

/-- Settles O44: committed tables have every token, and the string is stored where the checks leave it room. -/
theorem encodeStoresTheString : Obligations.EncodeStoresTheString := by
  intro s c hinv hc hready hreads hwrites
  obtain rfl : c = s.encodeLen := hc
  obtain ⟨str, hstr⟩ := hinv.exists_encodesTo hready hreads hwrites
  refine ⟨(s.afterEncode str).mem, ?_, hstr.sameOutside hinv.memory, fun ht hstable => ?_⟩
  · rw [← hstr.length]
    exact hstr.exec_eq
  · refine ⟨str, hstr.encodeChars_memBytes hstable, hstr.length, fun k hk j hj => ?_⟩
    rw [(hstr.holdsBytes hinv.memory ht).read_stringByte hk hj, BitVec.extractLsb', Nat.shiftRight_eq_div_pow]

/-- What `ENCODE` can do: fail a check, meet a refused access, or complete (R109, R110). -/
theorem exec_encode_cases {s t : State} (h : exec .encode s = .next t) :
    (∃ e, s.encodeError = some e ∧ t = s.raise e) ∨
    (∃ a, s.encodeRefused = some a ∧ t = s.raiseBus a s.csBase.toNat (4 * s.encodeLen)) ∨
    ∃ str, s.EncodesTo str ∧ t = (s.afterEncode str).complete := by
  cases he : s.encodeError with
  | some e =>
    rw [exec_encode_error he] at h
    cases h
    exact .inl ⟨e, rfl, rfl⟩
  | none =>
    have hready := State.encodeError_none.1 he
    cases hr : s.encodeRefused with
    | some a =>
      rw [exec_encode_busError hready hr] at h
      cases h
      exact .inr (.inl ⟨a, rfl, rfl⟩)
    | none =>
      obtain ⟨hreads, hwrites⟩ := State.encodeRefused_none.1 hr
      cases hs : encodeChars s.params.policy s.pri s.tail s.encodeInput with
      | none =>
        rw [exec, execEncode, he, hr, hs] at h
        cases h
      | some str =>
        have hstr : s.EncodesTo str := ⟨hready, hreads, hwrites, hs⟩
        rw [hstr.exec_eq] at h
        cases h
        exact .inr (.inr ⟨str, hstr, rfl⟩)

/-- Settles O39: a group of 11 bits is below 2048, the left-justified tail fits its symbol, and no branch of `ENCODE` raises
either error. -/
theorem symbolsAreInRange : Obligations.SymbolsAreInRange := by
  refine ⟨fun policy b => ⟨fullGroups_tailBits _, fun y hy => ?_⟩, fun s t h hs ht => ?_⟩
  · have hrange := encodeSyms_inRange policy b y hy
    exact ⟨by rintro u rfl; exact hrange, by rintro u rfl; exact hrange.2⟩
  · obtain ⟨e, he, rfl⟩ | ⟨a, -, rfl⟩ | ⟨str, -, rfl⟩ := exec_encode_cases h
    · exact State.encodeError_code he
    · simp
    · exact absurd (hs.symm.trans ht) Bool.false_ne_true

/-! ### The errors of `ENCODE` -/

/-- R110, R122: what `ENCODE` leaves when the port refuses an access at `a`: the error, and any bytes in its output range. -/
theorem exec_encode_refused {s : State} {a : Nat} (hready : s.EncodeReady s.brLen.toNat s.encodeLen)
    (h : s.encodeRefused = some a) :
    ∃ m, exec .encode s = .next (State.raise { s with mem := m } (.busError a)) ∧
      (s.mem.wf = true → SameOutside s.mem m s.csBase.toNat (4 * s.encodeLen)) :=
  ⟨_, exec_encode_busError hready h, fun hwf => State.scramble_outside hwf hready.output⟩

theorem State.encodeRefused_onlyRead {s : State} {r : Nat} (hr : s.RefusedFirst .read s.brBase.toNat s.brLen.toNat r)
    (hw : s.allows .write s.csBase.toNat (4 * s.encodeLen)) : s.encodeRefused = some r := by
  rw [State.encodeRefused, State.firstRefused_some.2 hr, State.firstRefused_none.2 hw]

theorem State.encodeRefused_onlyWrite {s : State} {w : Nat} (hr : s.allows .read s.brBase.toNat s.brLen.toNat)
    (hw : s.RefusedFirst .write s.csBase.toNat (4 * s.encodeLen) w) : s.encodeRefused = some w := by
  rw [State.encodeRefused, State.firstRefused_none.2 hr, State.firstRefused_some.2 hw]

/-- Where a read and a write are refused, one of the two is reported (R110; log entry 9). -/
theorem State.encodeRefused_both {s : State} {r w : Nat} (hr : s.RefusedFirst .read s.brBase.toNat s.brLen.toNat r)
    (hw : s.RefusedFirst .write s.csBase.toNat (4 * s.encodeLen) w) :
    s.encodeRefused = some r ∨ s.encodeRefused = some w := by
  simp only [State.encodeRefused, State.firstRefused_some.2 hr, State.firstRefused_some.2 hw]
  split_ifs <;> simp

/-- A byte of the input comes no later than the last one that character `j` depends on, if `j` is of the tail, or if the byte
is no later than the one that ends group `j / 2` (R104). -/
theorem le_lastByteOf {len j d : Nat} (hd : d < len)
    (h : 8 * len / 11 ≤ j / 2 ∨ d ≤ (11 * (j / 2) + 10) / 8) : d ≤ lastByteOf len j := by
  rw [lastByteOf, fullGroups]
  split_ifs <;> omega

/-- Settles O45: a check that fails is reported as soon as those before it pass; then the refused access that `ENCODE` meets
first. -/
theorem encodeErrorsInOrder : Obligations.EncodeErrorsInOrder := by
  intro s c hc
  obtain rfl : c = s.encodeLen := hc
  refine ⟨fun ht => exec_encode_error (State.encodeError_tables ht),
    fun ht ha => exec_encode_error (State.encodeError_alignment ht ha), fun ht ha => ?_, fun hready => ?_⟩
  · have hchecks := State.encodeError_buffers ht ha
    refine ⟨fun hcap => exec_encode_error (hchecks.trans (if_pos hcap)), fun hcap => ?_⟩
    rw [if_neg (not_lt.2 hcap)] at hchecks
    refine ⟨fun hin => exec_encode_error (hchecks.trans (if_pos (addrOK_false.2 hin))), fun hin hout => ?_,
      fun hin hout hL hc hlo hhi => ?_⟩
    · rw [if_neg (by simp [addrOK_iff.2 hin])] at hchecks
      exact exec_encode_error (hchecks.trans (if_pos (addrOK_false.2 hout)))
    · rw [if_neg (by simp [addrOK_iff.2 hin]), if_neg (by simp [addrOK_iff.2 hout])] at hchecks
      exact exec_encode_error (hchecks.trans (if_pos (overlap_iff.2 ⟨hL, Nat.mul_pos (by decide) hc, hlo, hhi⟩)))
  · refine ⟨fun r hr hw => exec_encode_refused hready (State.encodeRefused_onlyRead hr hw),
      fun w hr hw => exec_encode_refused hready (State.encodeRefused_onlyWrite hr hw), fun r w hr hw => ⟨fun hk => ?_, ?_⟩⟩
    · obtain ⟨hge, hlt, -⟩ := id hr
      exact exec_encode_refused hready (State.encodeRefused_read hr hw (le_lastByteOf (by omega) hk))
    · exact (State.encodeRefused_both hr hw).imp (exec_encode_refused hready) (exec_encode_refused hready)

/-! ### Decoding an encoding -/

/-- The width of the symbol that takes `t` leftover bits, 0 where there is none (R104). -/
def tailWidth (policy : TailPolicy) (t : Nat) : Nat :=
  if t = 0 then 0 else if policy = .dual ∧ t ≤ 6 then 6 else 11

theorem le_tailWidth (policy : TailPolicy) {t : Nat} (ht : t < 11) : t ≤ tailWidth policy t := by
  rw [tailWidth]
  split_ifs <;> omega

/-- Under `DUAL` the decoder's zeros after the input's bits do not fill a byte (R114). -/
theorem tailWidth_dual (t : Nat) : tailWidth .dual t - t < 8 := by
  simp only [tailWidth, true_and]
  split_ifs <;> omega

section
variable {policy : TailPolicy} {pri : Vector (Option PriToken) 2048} {tail : Vector (Option Chr) 64}

/-- The tail's token, if any, decodes to the leftover bits, left-justified in the width of their symbol (R104, R111). -/
theorem decodeBits_tailSyms (hp : PriComplete pri) (hc : policy = .dual → TailComplete tail) {t v : Nat} {cs : List Chr}
    (h : symsChars pri tail (tailSyms policy t v) = some cs) (pos : Nat) :
    decodeBits policy pri tail pos cs = .ok (bitsOf (v * 2 ^ (tailWidth policy t - t)) (tailWidth policy t)) := by
  rw [tailSyms] at h
  rw [tailWidth]
  split_ifs at h ⊢ with h0 h6
  · cases h
    rfl
  · obtain ⟨rfl, -⟩ := h6
    simp only [symsChars, symToken] at h
    cases hu : tailToken tail (v * 2 ^ (6 - t)) with
    | none => simp [hu] at h
    | some c =>
      simp only [hu, Option.map_some, List.append_nil, Option.some.injEq] at h
      subst h
      simp only [decodeBits, (hc rfl).tailInv_eq hu]
  · simp only [symsChars, symToken] at h
    cases hu : priToken pri (v * 2 ^ (11 - t)) with
    | none => simp [hu] at h
    | some c =>
      simp only [hu, Option.map_some, List.append_nil, Option.some.injEq] at h
      subst h
      simp only [decodeBits, hp.priInv_eq hu, List.append_nil]

/-- R114, R115: the bits that an encoding's string decodes to are the input's, then the zeros that justify the tail. -/
theorem decodeBits_encodeChars (hp : PriComplete pri) (hc : policy = .dual → TailComplete tail) {b : List Byte}
    {str : List Chr} (h : encodeChars policy pri tail b = some str) :
    decodeBits policy pri tail 0 str =
      .ok (bytesBits b ++ List.replicate (tailWidth policy (tailBits b.length) - tailBits b.length) false) := by
  obtain ⟨cs, -, hsyms, hdecode⟩ := primary_tokens (tail := tail) hp
    ((List.range (fullGroups b.length)).map fun k => readBits b (11 * k) 11)
    (List.forall_mem_map.2 fun k _ => groupValue_lt _ (11 * k) 11)
  rw [encodeChars, encodeSyms_eq, hsyms] at h
  obtain ⟨rest, hrest, rfl⟩ := Option.map_eq_some_iff.1 h
  rw [hdecode, decodeBits_tailSyms hp hc hrest]
  exact congrArg _ (groups_rest_bits b (fullGroups_tailBits _) (le_tailWidth policy (tailBits_lt _)))

/-- R114: under `DUAL`, decoding an encoding gives back the input. -/
theorem decodeChars_encodeChars_dual (hp : PriComplete pri) (hc : TailComplete tail) {b : List Byte} {str : List Chr}
    (h : encodeChars .dual pri tail b = some str) : decodeChars .dual pri tail str = .ok b := by
  rw [decodeChars, decodeBits_encodeChars hp (fun _ => hc) h]
  exact congrArg _ (bitsToBytes_bytesBits b _ (by rw [List.length_replicate]; exact tailWidth_dual _))

end

/-! ### `DECODE` after `ENCODE` -/

/-- The effect of `DECODE`: the bytes stored, and a closed writer that counts them (R118). -/
def State.afterDecode (s : State) (out : List Byte) : State :=
  { s.portStore s.bwBase.toNat out with
    bwCnt := BitVec.ofNat 29 out.length, accv := 0, accn := 0, status := { s.status with bwClosed := true } }

section
variable {s : State} {out : List Byte} (hready : s.DecodeReady s.csLen.toNat s.decodeLen)
  (hout : decodeChars s.params.policy s.pri s.tail s.decodeInput = .ok out)
include hready hout

/-- R118: the checks pass, every token is known and the port refuses nothing. -/
theorem exec_decode (hreads : s.allows .read s.csBase.toNat (4 * s.csLen.toNat))
    (hwrites : s.allows .write s.bwBase.toNat s.decodeLen) :
    exec .decode s = .next (s.afterDecode out).complete := by
  rw [← State.decodeInput_bytes hout] at hwrites
  simp only [exec, execDecode, State.decodeError_none.2 hready, State.firstRefused_none.2 hreads, hout,
    State.firstRefused_none.2 hwrites]
  rfl

/-- `BW_CNT` does not wrap, since `BW_CAP` has 29 bits (R34, R35, R117). -/
theorem State.afterDecode_bwCnt_toNat : (s.afterDecode out).bwCnt.toNat = out.length := by
  have hcap := hready.capacity
  have hlt := s.bwCap.isLt
  rw [State.afterDecode, BitVec.toNat_ofNat, State.decodeInput_bytes hout]
  omega

/-- Where the host has not raced, the decoded bytes stand at `BW_BASE` (R118). -/
theorem State.afterDecode_holdsBytes (hwf : s.mem.wf = true) (ht : s.touched = []) :
    HoldsBytes (s.afterDecode out).mem s.bwBase.toNat out := by
  refine State.portStore_holds hwf ht ?_
  rw [State.decodeInput_bytes hout]
  exact hready.output

end

/-- The engine reads a string that stands at `CS_BASE`, where reads have one value (R50). -/
theorem State.portString_of_holdsBytes {s : State} {str : List Chr}
    (h : HoldsBytes s.mem s.csBase.toNat (stringBytes str)) (hs : s.stable s.csBase.toNat (4 * str.length)) :
    s.portString str.length = str := by
  have hread : ∀ j, j < 4 * str.length → s.portRead (s.csBase.toNat + j) = s.mem.read (s.csBase.toNat + j) :=
    fun j hj => State.portRead_stable hs hj
  refine List.ext_getElem (by simp [State.portString]) fun k _ hk => ?_
  rw [← h.read_chr hk]
  simp only [State.portString, List.getElem_map, List.getElem_range, State.portChr, Nat.add_assoc]
  rw [hread _ (by omega), hread _ (by omega), hread _ (by omega), hread _ (by omega)]

/-- Bytes that memory holds are those it is read for. -/
theorem State.holdsBytes_memBytes (s : State) (base n : Nat) : HoldsBytes s.mem base (s.memBytes base n) :=
  State.memBytes_eq_iff.1 (by rw [State.memBytes_length])

/-- Settles O48: the string that `ENCODE` has stored is the one that `DECODE` reads, and decoding it gives back the bytes that
`ENCODE` has read. -/
theorem encodeThenDecodeRestoresTheInput : Obligations.EncodeThenDecodeRestoresTheInput := by
  intro s t b cap hinv htouched hdual hready hreads hwrites hin hcs hexec u hdecode hureads huwrites
  have hlen : s.encodeLen = encodedLength .dual s.brLen.toNat := by rw [State.encodeLen, hdual]
  rw [← hlen] at hready hwrites hcs hureads
  obtain ⟨str, hstr⟩ := hinv.exists_encodesTo hready hreads hwrites
  obtain rfl : (s.afterEncode str).complete = t := by
    rw [hstr.exec_eq] at hexec
    cases hexec
    rfl
  have hcount : u.csLen.toNat = str.length := hstr.csCnt_toNat.trans hstr.length.symm
  have hinput : u.decodeInput = str := by
    rw [State.decodeInput, hcount]
    refine State.portString_of_holdsBytes (hstr.holdsBytes hinv.memory htouched) fun k hk => ⟨rfl, (hcs k ?_).2⟩
    rwa [hstr.length] at hk
  have hbytes : decodeChars u.params.policy u.pri u.tail u.decodeInput = .ok (s.memBytes s.brBase.toNat s.brLen.toNat) := by
    have hencode := hstr.encodeChars_memBytes hin
    obtain ⟨hpri, htail⟩ := hready.tables
    rw [hdual] at hencode
    rw [hinput, show u.params.policy = .dual from hdual]
    exact decodeChars_encodeChars_dual (hinv.pri hpri) (hinv.tail (htail hdual)) hencode
  have hbytesLen := s.memBytes_length s.brBase.toNat s.brLen.toNat
  have houtLen : u.decodeLen = s.brLen.toNat := (State.decodeInput_bytes hbytes).symm.trans hbytesLen
  rw [← houtLen] at hdecode huwrites
  rw [← hstr.length, ← hcount] at hureads
  refine ⟨_, exec_decode hdecode hbytes hureads huwrites, rfl,
    (State.afterDecode_bwCnt_toNat hdecode hbytes).trans hbytesLen, fun k hk => ?_⟩
  rw [← hbytesLen] at hk
  have hwf : u.mem.wf = true := State.portStore_wf hinv.memory hstr.fits
  exact (State.afterDecode_holdsBytes hdecode hbytes hwf rfl k hk).trans (s.holdsBytes_memBytes _ _ k hk).symm

end Sys2Proof.Machine
end

section
/-! PROOFS of the family `45_decode.md`: where decoding a string fails; what decoding an encoding gives under each tail
policy; and what `DECODE` does, from what its checks, the port and the tables find. -/

namespace Sys2Proof.Machine

open Sys2Proof.Config

/-! ### Decoding is packing the tokens' bits -/

section
variable {policy : TailPolicy} {pri : Vector (Option PriToken) 2048} {tail : Vector (Option Chr) 64} {str : List Chr}

/-- Decoding succeeds with the bytes of the tokens' bits (R112). -/
theorem decodeChars_ok {out : List Byte} :
    decodeChars policy pri tail str = .ok out ↔
      ∃ w, decodeBits policy pri tail 0 str = .ok w ∧ bitsToBytes w = out := by
  rw [decodeChars]
  split <;> simp [*]

theorem decodeChars_error {p : Nat} :
    decodeChars policy pri tail str = .error p ↔ decodeBits policy pri tail 0 str = .error p := by
  rw [decodeChars]
  split <;> simp [*]

end

/-! ### Decoding an encoding under `DUAL` -/

/-- The decoder's zeros, by the three cases of R114. -/
theorem tailWidth_dual_sub (t : Nat) :
    tailWidth .dual t - t = if t = 0 then 0 else if t ≤ 6 then 6 - t else 11 - t := by
  simp only [tailWidth, true_and]
  split_ifs <;> omega

/-- Settles O42: the decoder's bits are the input's and fewer than 8 zeros, which fill no byte. -/
theorem dualRoundTrip : Obligations.DualRoundTrip := by
  intro pri tail b hp hc t z
  obtain ⟨str, hstr⟩ := Option.isSome_iff_exists.1 (encodeChars_isSome hp (fun _ => hc) b)
  have hz : z = tailWidth .dual (tailBits b.length) - tailBits b.length := (tailWidth_dual_sub _).symm
  have hbits := decodeBits_encodeChars hp (fun _ => hc) hstr
  rw [← hz] at hbits
  exact ⟨str, hstr, hz ▸ tailWidth_dual _, hbits, decodeChars_encodeChars_dual hp hc hstr⟩

/-! ### Decoding an encoding under `SINGLE` -/

theorem groupValue_eq_zero {bit : Nat → Bool} {p n : Nat} (h : ∀ k, k < n → bit (p + k) = false) :
    groupValue bit p n = 0 := by
  induction n with
  | zero => rfl
  | succ n ih => rw [groupValue, ih fun k hk => h k (Nat.lt_succ_of_lt hk), h n n.lt_succ_self]; rfl

/-- The model's stream reads 0 past the last byte. -/
theorem streamBit_past_end {b : List Byte} {i : Nat} (h : 8 * b.length ≤ i) : streamBit b i = false := by
  rw [streamBit, List.getD_eq_default _ _ (by omega)]
  exact BitVec.getLsbD_zero

/-- So a zero byte at the end changes no bit of the stream. -/
theorem streamBit_append_zero (b : List Byte) : streamBit (b ++ [0]) = streamBit b := by
  have hbyte : ∀ n, (b ++ [0]).getD n 0 = b.getD n 0 := by
    intro n
    rcases lt_or_ge n b.length with h | h
    · exact List.getD_append _ _ _ _ h
    · rw [List.getD_append_right _ _ _ _ h, List.getD_eq_default b _ h]
      cases n - b.length <;> rfl
  funext i
  rw [streamBit, streamBit, hbyte]

/-- The tail's bits, left-justified, are a whole group of the stream (R104). -/
theorem readBits_shifted {b : List Byte} {p t w : Nat} (hw : t ≤ w) (hend : 8 * b.length ≤ p + t) :
    readBits b p t * 2 ^ (w - t) = readBits b p w := by
  have hzero : groupValue (streamBit b) (p + t) (w - t) = 0 :=
    groupValue_eq_zero fun k _ => streamBit_past_end (by omega)
  have hsplit := groupValue_add (streamBit b) p t (w - t)
  rw [hzero, Nat.add_sub_cancel' hw] at hsplit
  exact hsplit.symm

/-- Under `SINGLE` the symbols are the groups of 11 bits of the stream, as many as hold a bit of the input (R104, R106). -/
theorem encodeSyms_single (b : List Byte) :
    encodeSyms .single b = (List.range ((8 * b.length + 10) / 11)).map fun k => .p11 (readBits b (11 * k) 11) := by
  rw [← fullGroups_add_tail]
  simp only [encodeSyms, tailSyms, reduceCtorEq, false_and, if_false]
  split_ifs with h0
  · rw [List.append_nil, Nat.add_zero]
  · rw [List.range_succ, List.map_append, List.map_singleton,
      readBits_shifted (tailBits_lt _).le (fullGroups_tailBits _).ge]

/-- Where it needs no more tokens, the input with a zero byte more encodes to the same string (R115). -/
theorem encodeChars_single_append_zero {pri : Vector (Option PriToken) 2048} {tail : Vector (Option Chr) 64}
    {b : List Byte} (hcount : (8 * b.length + 10) / 11 = (8 * (b.length + 1) + 10) / 11) :
    encodeChars .single pri tail (b ++ [0]) = encodeChars .single pri tail b := by
  rw [encodeChars, encodeChars, encodeSyms_single, encodeSyms_single, List.length_append, List.length_singleton, hcount]
  simp only [readBits, streamBit_append_zero]

/-- Eight zeros are the bits of a zero byte. -/
theorem bytesBits_append_zero (b : List Byte) (n : Nat) :
    bytesBits b ++ List.replicate (8 + n) false = bytesBits (b ++ [0]) ++ List.replicate n false := by
  have hbyte : bytesBits [0] = List.replicate 8 false := by decide
  rw [bytesBits_append, hbyte, List.append_assoc, List.replicate_append_replicate]

/-- The lengths of R115 at which the round trip fails. -/
def SingleDefect (len : Nat) : Prop :=
  len % 11 = 3 ∨ len % 11 = 7 ∨ len % 11 = 10

/-- These lengths leave 1 to 3 bits for the tail (R115). -/
theorem singleDefect_iff {len : Nat} : SingleDefect len ↔ 1 ≤ tailBits len ∧ tailBits len ≤ 3 := by
  have htail : tailBits len = 8 * (len % 11) % 11 := by rw [tailBits, Nat.mul_mod_mod]
  have hlt : len % 11 < 11 := Nat.mod_lt _ (by decide)
  rw [SingleDefect, htail]
  generalize len % 11 = r at hlt
  interval_cases r <;> decide

/-- At these lengths, and no others, a byte more takes no more tokens (R115). -/
theorem tokenCount_succ_iff {len : Nat} : (8 * len + 10) / 11 = (8 * (len + 1) + 10) / 11 ↔ SingleDefect len := by
  have hlt := tailBits_lt len
  rw [singleDefect_iff, Nat.mul_succ, ← fullGroups_tailBits, Nat.add_assoc, Nat.add_assoc, Nat.add_assoc,
    Nat.mul_add_div (by decide), Nat.mul_add_div (by decide)]
  omega

/-- At these lengths, and no others, the zeros that justify the tail fill a byte (R104, R115). -/
theorem eight_le_zeros_iff {len : Nat} :
    8 ≤ tailWidth .single (tailBits len) - tailBits len ↔ SingleDefect len := by
  rw [singleDefect_iff, tailWidth]
  simp only [reduceCtorEq, false_and, if_false]
  split_ifs <;> omega

theorem tailWidth_le (policy : TailPolicy) (t : Nat) : tailWidth policy t ≤ 11 := by
  rw [tailWidth]
  split_ifs <;> omega

/-- Settles O43: where the zeros that justify the tail fill a byte, that byte is decoded too. -/
theorem singleRoundTripDefect : Obligations.SingleRoundTripDefect := by
  intro pri tail b hp defect
  have hc : TailPolicy.single = .dual → TailComplete tail := fun h => by cases h
  obtain ⟨str, hstr⟩ := Option.isSome_iff_exists.1 (encodeChars_isSome hp hc b)
  have hbits := decodeBits_encodeChars hp hc hstr
  have hz : 8 ≤ _ ↔ defect := eight_le_zeros_iff
  have hcount : _ ↔ defect := tokenCount_succ_iff
  have hle : tailWidth .single (tailBits b.length) - tailBits b.length ≤ 11 :=
    (Nat.sub_le _ _).trans (tailWidth_le _ _)
  generalize tailWidth .single (tailBits b.length) - tailBits b.length = z at hbits hz hle
  refine ⟨str, hstr, fun hd => ?_, fun hd => ⟨?_, ?_⟩, hcount⟩
  · exact decodeChars_ok.2 ⟨_, hbits, bitsToBytes_bytesBits _ _ (by rwa [List.length_replicate, ← not_le, hz])⟩
  · obtain ⟨n, rfl⟩ := Nat.exists_eq_add_of_le (hz.2 hd)
    rw [bytesBits_append_zero] at hbits
    exact decodeChars_ok.2 ⟨_, hbits, bitsToBytes_bytesBits _ _ (by rw [List.length_replicate]; omega)⟩
  · rw [encodeChars_single_append_zero (hcount.2 hd), hstr]

/-! ### Decoding any string -/

/-- Token `k` of a string is a pair absent from the primary table, or a lone last character that the tail table, if the
policy has one, does not hold (R111, R112). -/
def UnknownToken (policy : TailPolicy) (pri : Vector (Option PriToken) 2048) (tail : Vector (Option Chr) 64)
    (str : List Chr) (k : Nat) : Prop :=
  (∃ c0 c1, str[2 * k]? = some c0 ∧ str[2 * k + 1]? = some c1 ∧ priInv pri (c0, c1) = none) ∨
  (∃ c, str[2 * k]? = some c ∧ str.length = 2 * k + 1 ∧ (policy = .dual → tailInv tail c = none))

/-- Token `k` is the first unknown one. -/
def FirstUnknown (policy : TailPolicy) (pri : Vector (Option PriToken) 2048) (tail : Vector (Option Chr) 64)
    (str : List Chr) (k : Nat) : Prop :=
  UnknownToken policy pri tail str k ∧ ∀ j, j < k → ¬UnknownToken policy pri tail str j

section
variable {policy : TailPolicy} {pri : Vector (Option PriToken) 2048} {tail : Vector (Option Chr) 64}

theorem not_unknownToken_nil (k : Nat) : ¬UnknownToken policy pri tail [] k := by
  simp [UnknownToken]

theorem unknownToken_single {c : Chr} {k : Nat} :
    UnknownToken policy pri tail [c] k ↔ k = 0 ∧ (policy = .dual → tailInv tail c = none) := by
  cases k <;> simp [UnknownToken]

theorem unknownToken_pair_zero {c0 c1 : Chr} {rest : List Chr} :
    UnknownToken policy pri tail (c0 :: c1 :: rest) 0 ↔ priInv pri (c0, c1) = none := by
  simp [UnknownToken]

theorem unknownToken_pair_succ {c0 c1 : Chr} {rest : List Chr} {k : Nat} :
    UnknownToken policy pri tail (c0 :: c1 :: rest) (k + 1) ↔ UnknownToken policy pri tail rest k := by
  simp [UnknownToken, Nat.mul_succ]

theorem firstUnknown_single {c : Chr} {k : Nat} :
    FirstUnknown policy pri tail [c] k ↔ k = 0 ∧ (policy = .dual → tailInv tail c = none) := by
  rw [FirstUnknown, unknownToken_single]
  exact ⟨fun h => h.1, fun h => ⟨h, fun j hj => absurd hj (by omega)⟩⟩

/-- After an unknown pair no other token is the first. -/
theorem firstUnknown_pair_of_none {c0 c1 : Chr} {rest : List Chr} {k : Nat} (h : priInv pri (c0, c1) = none) :
    FirstUnknown policy pri tail (c0 :: c1 :: rest) k ↔ k = 0 := by
  constructor
  · rintro ⟨-, hfirst⟩
    exact Nat.eq_zero_of_not_pos fun hk => hfirst 0 hk (unknownToken_pair_zero.2 h)
  · rintro rfl
    exact ⟨unknownToken_pair_zero.2 h, fun j hj => absurd hj j.not_lt_zero⟩

/-- After a known pair the first unknown token is that of the rest. -/
theorem firstUnknown_pair_of_some {c0 c1 : Chr} {rest : List Chr} {k i : Nat} (h : priInv pri (c0, c1) = some i) :
    FirstUnknown policy pri tail (c0 :: c1 :: rest) k ↔ ∃ j, k = j + 1 ∧ FirstUnknown policy pri tail rest j := by
  have h0 : ¬UnknownToken policy pri tail (c0 :: c1 :: rest) 0 := by rw [unknownToken_pair_zero, h]; simp
  cases k with
  | zero => simp [FirstUnknown, h0]
  | succ k =>
    simp only [FirstUnknown, unknownToken_pair_succ, Nat.forall_lt_succ_left, h0, not_false_eq_true, true_and,
      Nat.add_right_cancel_iff, exists_eq_left']

/-- Positions of tokens of the rest are two further on (R111). -/
theorem firstUnknown_shift {c0 c1 : Chr} {rest : List Chr} {i pos p : Nat} (h : priInv pri (c0, c1) = some i) :
    (∃ k, p = pos + 2 * k ∧ FirstUnknown policy pri tail (c0 :: c1 :: rest) k) ↔
      ∃ k, p = pos + 2 + 2 * k ∧ FirstUnknown policy pri tail rest k := by
  simp only [firstUnknown_pair_of_some h]
  constructor
  · rintro ⟨_, rfl, k, rfl, hk⟩
    exact ⟨k, by ring, hk⟩
  · rintro ⟨k, rfl, hk⟩
    exact ⟨k + 1, by ring, k, rfl, hk⟩

/-- Decoding from position `pos` on fails exactly at the first unknown token (R112). -/
theorem decodeBits_error {pos p : Nat} {str : List Chr} :
    decodeBits policy pri tail pos str = .error p ↔ ∃ k, p = pos + 2 * k ∧ FirstUnknown policy pri tail str k := by
  fun_induction decodeBits policy pri tail pos str with
  | case1 => simp [FirstUnknown, not_unknownToken_nil]
  | case2 pos c hs => simp [firstUnknown_single, hs, @eq_comm _ p]
  | case3 pos c hd hj => simp [firstUnknown_single, hj, @eq_comm _ p]
  | case4 pos c hd j hj => simp [firstUnknown_single, hd, hj]
  | case5 pos c0 c1 rest hi => simp [firstUnknown_pair_of_none hi, @eq_comm _ p]
  | case6 pos c0 c1 rest i hi q hq ih =>
    rw [firstUnknown_shift hi, ← ih, hq]
  | case7 pos c0 c1 rest i hi w hw ih =>
    rw [firstUnknown_shift hi, ← ih, hw]
    simp

end

/-- Settles O40: the tokens' bits are counted by the string's length, and under `SINGLE` no lone character decodes. -/
theorem decodedLengthRelation : Obligations.DecodedLengthRelation := by
  intro policy pri tail str out h
  have hlen := decodeChars_length h
  obtain ⟨w, hw, -⟩ := decodeChars_ok.1 h
  obtain ⟨-, heven⟩ := decodeBits_length hw
  exact ⟨by rintro rfl; exact hlen, by rintro rfl; exact ⟨heven rfl, hlen⟩⟩

/-- Settles O41: the decoder stops at its first lookup that finds nothing. -/
theorem decodeFailsAtTheFirstUnknownToken : Obligations.DecodeFailsAtTheFirstUnknownToken := by
  intro policy pri tail str pos bad
  rw [decodeChars_error, decodeBits_error]
  simp only [Nat.zero_add]
  rfl

/-! ### The checks of `DECODE`, in their order -/

theorem State.decodeError_tables {s : State} (h : ¬s.tablesReady) :
    s.decodeError = some (.tableNotReady s.missingTables.1 s.missingTables.2) :=
  if_pos fun hnone => h (State.missingTables_none.1 hnone)

theorem State.decodeError_alignment {s : State} (ht : s.tablesReady) (h : s.csBase.toNat % 4 ≠ 0) :
    s.decodeError = some (.alignmentError s.csBase) := by
  rw [State.decodeError, if_neg (not_not.2 (State.missingTables_none.2 ht)), if_pos (State.csAligned_false.2 h)]

/-- R117: with the tables ready and `CS_BASE` aligned, the checks of the sizes and places of the buffers are left. -/
theorem State.decodeError_buffers {s : State} (ht : s.tablesReady) (ha : s.csBase.toNat % 4 = 0) :
    s.decodeError =
      if s.bwCap.toNat < s.decodeLen then some (.capacityExceeded s.decodeLen)
      else if addrOK s.csBase (4 * s.csLen.toNat) = false then some (.addressError s.csBase)
      else if addrOK s.bwBase s.decodeLen = false then some (.addressError s.bwBase)
      else if overlap s.csBase.toNat (4 * s.csLen.toNat) s.bwBase.toNat s.decodeLen then some .bufferOverlap
      else none := by
  rw [State.decodeError, if_neg (not_not.2 (State.missingTables_none.2 ht)),
    if_neg (by simp [State.csAligned_iff.2 ha])]

/-! ### What `DECODE` does where it does not complete -/

/-- R117: a check fails. -/
theorem exec_decode_error {s : State} {e : Err} (h : s.decodeError = some e) :
    exec .decode s = .next (s.raise e) := by
  rw [exec, execDecode, h]

section
variable {s : State} (hready : s.DecodeReady s.csLen.toNat s.decodeLen)
include hready

/-- R117, R122: the checks pass, and the port refuses a read of pass 1. -/
theorem exec_decode_refusedRead {a : Nat} (h : s.RefusedFirst .read s.csBase.toNat (4 * s.csLen.toNat) a) :
    exec .decode s = .next (s.raise (.busError a)) := by
  rw [exec, execDecode, State.decodeError_none.2 hready, State.firstRefused_some.2 h]

variable (hreads : s.allows .read s.csBase.toNat (4 * s.csLen.toNat))
include hreads

/-- R118: the string is read, and one of its tokens is unknown. -/
theorem exec_decode_unknownSymbol {pos : Nat}
    (h : decodeChars s.params.policy s.pri s.tail s.decodeInput = .error pos) :
    exec .decode s = .next (s.raise (.unknownSymbol pos)) := by
  rw [exec, execDecode, State.decodeError_none.2 hready, State.firstRefused_none.2 hreads, h]

/-- R118, R122: every token is known, and the port refuses a write of pass 2. -/
theorem exec_decode_refusedWrite {out : List Byte} {a : Nat}
    (hout : decodeChars s.params.policy s.pri s.tail s.decodeInput = .ok out)
    (h : s.RefusedFirst .write s.bwBase.toNat s.decodeLen a) :
    exec .decode s = .next (s.raiseBus a s.bwBase.toNat s.decodeLen) := by
  have hfirst : s.firstRefused .write s.bwBase.toNat out.length = some a := by
    rw [State.decodeInput_bytes hout]
    exact State.firstRefused_some.2 h
  simp only [exec, execDecode, State.decodeError_none.2 hready, State.firstRefused_none.2 hreads, hout, hfirst]

end

/-- Settles O47: a check that fails is reported as soon as those before it pass; then a refused read, an unknown token, and a
refused write. -/
theorem decodeErrorsInOrder : Obligations.DecodeErrorsInOrder := by
  intro s out hlen
  obtain rfl : out = s.decodeLen := hlen
  refine ⟨fun ht => exec_decode_error (State.decodeError_tables ht),
    fun ht ha => exec_decode_error (State.decodeError_alignment ht ha), fun ht ha => ?_,
    fun hready _ ha => exec_decode_refusedRead hready ha,
    fun hready hreads => ⟨fun pos hpos => ?_, fun bs a hbs ha => ?_⟩⟩
  · have hchecks := State.decodeError_buffers ht ha
    refine ⟨fun hcap => exec_decode_error (hchecks.trans (if_pos hcap)), fun hcap => ?_⟩
    rw [if_neg (not_lt.2 hcap)] at hchecks
    refine ⟨fun hin => exec_decode_error (hchecks.trans (if_pos (addrOK_false.2 hin))), fun hin hout => ?_,
      fun hin hout hC hpos hlo hhi => ?_⟩
    · rw [if_neg (by simp [addrOK_iff.2 hin])] at hchecks
      exact exec_decode_error (hchecks.trans (if_pos (addrOK_false.2 hout)))
    · rw [if_neg (by simp [addrOK_iff.2 hin]), if_neg (by simp [addrOK_iff.2 hout])] at hchecks
      exact exec_decode_error (hchecks.trans (if_pos (overlap_iff.2 ⟨Nat.mul_pos (by decide) hC, hpos, hlo, hhi⟩)))
  · exact exec_decode_unknownSymbol hready hreads hpos
  · exact ⟨_, exec_decode_refusedWrite hready hreads hbs ha, fun hwf => State.scramble_outside hwf hready.output⟩

/-! ### What `DECODE` stores -/

/-- Where reads have one value, pass 1 reads the characters that memory holds (R50, R118). -/
theorem State.decodeInput_stable {s : State} (h : s.stable s.csBase.toNat (4 * s.csLen.toNat)) :
    s.decodeInput = (List.range s.csLen.toNat).map fun k => chrOfBytes (s.mem.read (s.csBase.toNat + 4 * k))
      (s.mem.read (s.csBase.toNat + 4 * k + 1)) (s.mem.read (s.csBase.toNat + 4 * k + 2))
      (s.mem.read (s.csBase.toNat + 4 * k + 3)) := by
  apply List.map_congr_left fun k hk => ?_
  have hk := List.mem_range.1 hk
  simp only [State.portChr, Nat.add_assoc]
  rw [State.portRead_stable h (by omega), State.portRead_stable h (by omega), State.portRead_stable h (by omega),
    State.portRead_stable h (by omega)]

/-- `DECODE` changes memory in the bytes it stores only (R118). -/
theorem State.afterDecode_sameOutside {s : State} {out : List Byte}
    (hready : s.DecodeReady s.csLen.toNat s.decodeLen)
    (hout : decodeChars s.params.policy s.pri s.tail s.decodeInput = .ok out) (hwf : s.mem.wf = true) :
    SameOutside s.mem (s.afterDecode out).mem s.bwBase.toNat out.length := by
  refine State.portStore_outside hwf ?_
  rw [State.decodeInput_bytes hout]
  exact hready.output

/-- Settles O46: the string read is the one that memory holds, and its bytes are stored where the checks leave them room. -/
theorem decodeStoresTheBytes : Obligations.DecodeStoresTheBytes := by
  intro s str hinv ht hready hreads hwrites hstable hstr
  obtain rfl := hstr.trans (State.decodeInput_stable hstable).symm
  refine ⟨fun out hout => ⟨State.decodeInput_bytes hout, (s.afterDecode out).mem, exec_decode hready hout hreads hwrites,
    State.afterDecode_holdsBytes hready hout hinv.memory ht, State.afterDecode_sameOutside hready hout hinv.memory⟩,
    fun pos hpos => exec_decode_unknownSymbol hready hreads hpos⟩

end Sys2Proof.Machine
end

section
/-! PROOFS of the family `60_exceptions.md`: an error changes nothing but its record, and its acknowledgement only flags; and
what the host's and the platform's inputs do to the interrupt line and to a pending error, from one account of what an input
does to the registers that govern the engine. -/

namespace Sys2Proof.Machine

/-! ### Errors -/

/-- Settles O15: the window never drops a write of `STATUS`, and the write is the error return of R124. -/
theorem acknowledgeClearsWrittenFlags : Obligations.AcknowledgeClearsWrittenFlags := by
  intro s v rest h4 hin
  exact ⟨_, step_writeReg h4 hin (Bool.and_false _), rfl, fun hv => by simp [State.writeReg, hv], rfl, rfl⟩

/-- A `BusError` leaves memory outside the command's output range alone (R122). -/
theorem State.raiseBus_outside {s : State} (h : s.mem.wf = true) (a : Nat) (i : Instr) :
    SameOutside s.mem (s.raiseBus a (s.outputRange i).base (s.outputRange i).size).mem
      (s.outputRange i).base (s.outputRange i).size := by
  obtain h0 | hle := s.outputRange_le i
  · rw [h0]
    exact fun _ _ => rfl
  · exact State.scramble_outside h hle

/-- Settles O53: a completed effect leaves `ERR` as it was, so that the command has raised an error, or `BusError`. -/
theorem errorsArePrecise : Obligations.ErrorsArePrecise := by
  intro i s t h hno herr
  obtain ⟨u, hu, rfl⟩ | ⟨e, rfl⟩ | ⟨a, rfl⟩ := exec_cases h
  · rw [hu.frame] at herr
    exact absurd (hno.symm.trans herr) Bool.false_ne_true
  · exact ⟨rfl, fun _ => rfl, fun _ _ _ => rfl⟩
  · exact ⟨rfl, fun hcode => absurd rfl hcode, fun hwf => State.raiseBus_outside hwf a i⟩

/-! ### The registers that govern the engine -/

/-- The registers that say whether the engine runs, what it has accepted, how it ended and whether that interrupts. -/
structure Control where
  ie : Bool
  status : Status
  lastCmd : Word
  errCode : BitVec 8
  errInfo : Word

/-- The control registers of a state. -/
def State.control (s : State) : Control :=
  { ie := s.ie, status := s.status, lastCmd := s.lastCmd, errCode := s.errCode, errInfo := s.errInfo }

/-- `InputControls s i c`: the input `i` can leave the control registers of `s` at `c` (R17, R21, R22, R71, R98, R135). -/
inductive InputControls (s : State) : Input → Control → Prop where
  | keep (i : Input) : InputControls s i s.control
  | dropWrite (i : Input) : InputControls s i s.dropWrite.control
  | newWriter (i : Input) : InputControls s i s.newWriter.control
  | acknowledge (i : Input) (v : Word) : InputControls s i (s.acknowledge v).control
  | setIe (v : Word) (hv : v.getLsbD 1 = false) :
      InputControls s (.regWrite (s.params.regBase + Reg.ctrl.offset) 32 v) { s.control with ie := v.getLsbD 0 }
  | reset (i : Input) : InputControls s i s.toReset.control
  | accept (i : Input) (w : Word) (he : s.status.err = false) : InputControls s i (s.accept w).control

/-- Of the registers' writes, those of `CTRL`, `STATUS`, `CMD` and the writer's operands change control registers. -/
theorem State.writeReg_controls (s : State) (v : Word) (r : Reg) :
    InputControls s (.regWrite (s.params.regBase + r.offset) 32 v) (s.writeReg v r).control := by
  cases r with
  | ctrl =>
    rw [State.writeReg]
    cases hv : v.getLsbD 1 with
    | true =>
      rw [s.writeCtrl_srst hv]
      exact .reset _
    | false =>
      rw [s.writeCtrl_ie hv]
      exact .setIe v hv
  | status => exact .acknowledge _ v
  | cmd =>
    rw [State.writeReg, State.issue]
    split
    · exact .dropWrite _
    · rename_i hfree
      exact .accept _ v (Bool.or_eq_false_iff.1 (Bool.eq_false_iff.2 hfree)).2
  | bwBase | bwCap => exact .newWriter _
  | _ => exact .keep _

theorem State.hostWrite_controls (s : State) (addr bits : Nat) (v : Word) :
    InputControls s (.regWrite addr bits v) (s.hostWrite addr bits v).control := by
  obtain h | h | h | ⟨r, rfl, rfl, -, h⟩ := hostWrite_cases s addr bits v <;> rw [h]
  · exact .keep _
  · exact .keep _
  · exact .keep _
  · split
    · exact .dropWrite _
    · exact s.writeReg_controls v r

theorem State.hostRead_control (s : State) (addr bits : Nat) : (s.hostRead addr bits).control = s.control := by
  rw [State.hostRead]
  split_ifs <;> rfl

theorem State.input_controls (s : State) (i : Input) : InputControls s i (s.input i).control := by
  cases i with
  | regWrite addr bits v => exact s.hostWrite_controls addr bits v
  | regRead addr bits =>
    rw [State.input, State.hostRead_control]
    exact .keep _
  | hardReset => exact .reset _
  | memWrite | memRead | turn => exact .keep _

/-! ### A pending error -/

/-- With an error pending the engine accepts nothing, and only a reset changes the error's record (R72, R125). -/
theorem InputControls.pending {s : State} {i : Input} {c : Control} (h : InputControls s i c)
    (hb : s.status.busy = false) (he : s.status.err = true) :
    c.status.busy = false ∧
      ((c.lastCmd = s.lastCmd ∧ c.errCode = s.errCode ∧ c.errInfo = s.errInfo) ∨
        (c.status = Status.reset ∧ c.lastCmd = 0 ∧ c.errCode = 0 ∧ c.errInfo = 0)) := by
  cases h with
  | keep | dropWrite | newWriter | acknowledge | setIe => exact ⟨hb, .inl ⟨rfl, rfl, rfl⟩⟩
  | reset => exact ⟨rfl, .inr ⟨rfl, rfl, rfl, rfl⟩⟩
  | accept _ w hno => exact absurd (hno.symm.trans he) Bool.false_ne_true

/-- Settles O57: no command is running, so that a step is an idle machine's or one input. -/
theorem errorsDoNotNest : Obligations.ErrorsDoNotNest := by
  intro s t h hb he
  obtain ⟨-, ⟨-, rfl⟩ | ⟨rest, -, rfl⟩⟩ | ⟨hrun, -⟩ | ⟨i, rest, -, -, rfl⟩ := step_cases h
  · exact ⟨hb, .inl ⟨rfl, rfl, rfl⟩⟩
  · exact ⟨hb, .inl ⟨rfl, rfl, rfl⟩⟩
  · exact absurd (hb.symm.trans hrun) Bool.false_ne_true
  · exact (State.input_controls { s with inputs := rest, draws := s.draws + 1 } i).pending hb he

/-! ### The interrupt line -/

/-- The word of a flag at bit `i` has no other bit. -/
theorem flagBit_getElem (b : Bool) (i : Nat) {j : Nat} (hj : j < 32) : (flagBit b i)[j] = (b && decide (i = j)) := by
  cases b with
  | false => simp [flagBit]
  | true =>
    rw [← BitVec.getLsbD_eq_getElem, flagBit, if_pos rfl, BitVec.getLsbD_ofNat, Nat.testBit_two_pow, decide_eq_true hj]

/-- The interrupt line is read off `CTRL` and `STATUS` (R126). -/
theorem State.irq_eq_bits (s : State) :
    s.irq = ((s.regValue .ctrl).getLsbD 0 && (s.regValue .status).getLsbD 1) := by
  have hie : (s.regValue .ctrl).getLsbD 0 = s.ie := by
    simp [State.regValue, State.ctrlWord, flagBit_getElem]
  have hdone : (s.regValue .status).getLsbD 1 = s.status.done := by
    simp [State.regValue, Status.word, flagBit_getElem]
  rw [hie, hdone, State.irq]

/-- The run of the accepted word completes it, and leaves `IE` (R74). -/
theorem runCommand_busy_ie {s t : State} (h : s.runCommand = .next t) : t.status.busy = false ∧ t.ie = s.ie := by
  obtain ⟨i, -, hi⟩ | ⟨-, rfl⟩ := runCommand_cases h
  · obtain ⟨-, -, -, -, -, -, -, -, hie, -⟩ := noCommandWritesHostRegisters i s t hi
    obtain ⟨hbusy, -⟩ := exec_completion hi
    exact ⟨hbusy, hie⟩
  · exact ⟨rfl, rfl⟩

/-- Of the inputs only a write of `CTRL` that sets `IE` can raise the line, where `DONE = 1` (R127): no input sets `DONE`. -/
theorem InputControls.raises_irq {s : State} {i : Input} {c : Control} (h : InputControls s i c) (hlow : s.irq = false)
    (hie : c.ie = true) (hdone : c.status.done = true) :
    s.status.done = true ∧ s.ie = false ∧ ∃ v : Word, v.getLsbD 0 = true ∧ v.getLsbD 1 = false ∧
      i = .regWrite (s.params.regBase + Reg.ctrl.offset) 32 v := by
  have hnot : s.ie = true → s.status.done = true → False := fun h1 h2 => by simp [State.irq, h1, h2] at hlow
  cases h with
  | keep | dropWrite | newWriter => exact (hnot hie hdone).elim
  | acknowledge _ v => exact (hnot hie (Bool.and_eq_true_iff.1 hdone).1).elim
  | setIe v hv => exact ⟨hdone, Bool.eq_false_iff.2 fun h1 => hnot h1 hdone, v, hie, hv, rfl⟩
  | reset => exact absurd hie Bool.false_ne_true
  | accept => exact absurd hdone Bool.false_ne_true

/-- Settles O18: an idle machine keeps the line, the engine's run completes the command, and of the inputs only the one that
sets `IE` raises it. -/
theorem onlyCompletionRaisesIrq : Obligations.OnlyCompletionRaisesIrq := by
  refine ⟨State.irq_eq_bits, fun s t h hlow hhigh => ?_⟩
  obtain ⟨hie, hdone⟩ := Bool.and_eq_true_iff.1 hhigh
  obtain ⟨-, ⟨-, rfl⟩ | ⟨rest, -, rfl⟩⟩ | ⟨hb, rest, hin, hrun⟩ | ⟨i, rest, -, hin, rfl⟩ := step_cases h
  · exact absurd (hlow.symm.trans hhigh) Bool.false_ne_true
  · exact absurd (hlow.symm.trans hhigh) Bool.false_ne_true
  · obtain ⟨hbusy, hkeep⟩ := runCommand_busy_ie hrun
    exact .inl ⟨hb, hbusy, hkeep.symm.trans hie, hin.imp And.left fun hturn => ⟨rest, hturn⟩⟩
  · obtain ⟨hd, hno, v, h0, h1, rfl⟩ :=
      (State.input_controls { s with inputs := rest, draws := s.draws + 1 } i).raises_irq hlow hie hdone
    exact .inr ⟨hd, hno, v, rest, h0, h1, hin⟩

end Sys2Proof.Machine
end

section
/-! PROOFS of the family `70_reset_and_hazards.md`: either reset is one step to the reset state, and what the abort
that it brings does to memory. -/

namespace Sys2Proof.Machine

/-! ### The abort of the command in flight -/

/-- With no command in flight there is nothing to abort (R135 item 3). -/
theorem State.abort_mem_idle {s : State} (hb : s.status.busy = false) : s.abort.mem = s.mem := by
  rw [State.abort, hb, if_neg Bool.false_ne_true]

/-- A word that is no command has no output range to abort. -/
theorem State.abort_mem_noCommand {s : State} {e : DecodeError} (hb : s.status.busy = true)
    (hd : decode s.lastCmd = .error e) : s.abort.mem = s.mem := by
  rw [State.abort, hb, if_pos rfl, hd]

/-- An output range rests on the registers alone, not on the host's coming inputs or the free values (R53). -/
theorem State.outputRange_inputs_draws (s : State) (rest : List Input) (k : Nat) (i : Instr) :
    State.outputRange { s with inputs := rest, draws := k } i = s.outputRange i := by
  cases i <;> rfl

/-! ### The two resets -/

/-- A step on the reset input (R135). -/
theorem step_hardReset {s : State} {rest : List Input} (h : s.inputs = .hardReset :: rest) :
    step s = .next (State.toReset { s with inputs := rest, draws := s.draws + 1 }) := by
  rw [step, State.move, h]
  rfl

/-- A step on a write of `CTRL` with `SRST` set, which no running command drops (R17, R21, R136). -/
theorem step_softReset {s : State} {v : Word} {rest : List Input} (h4 : s.params.regBase % 4 = 0)
    (hv : v.getLsbD 1 = true) (h : s.inputs = hostWr s.params.regBase .ctrl v :: rest) :
    step s = .next { State.toReset { s with inputs := rest, draws := s.draws + 1 } with resp := .ack } := by
  rw [step_writeReg h4 h (Bool.and_false _), State.writeReg, State.writeCtrl_srst _ hv]

/-- The two resets differ only in their answer: none to the platform, one to the host (R136). -/
theorem step_reset {s : State} {v : Word} {rest : List Input}
    (h : s.inputs = .hardReset :: rest ∨
      (s.params.regBase % 4 = 0 ∧ v.getLsbD 1 = true ∧ s.inputs = hostWr s.params.regBase .ctrl v :: rest)) :
    ∃ r, step s = .next { State.toReset { s with inputs := rest, draws := s.draws + 1 } with resp := r } := by
  obtain hin | ⟨h4, hv, hin⟩ := h
  · exact ⟨s.resp, step_hardReset hin⟩
  · exact ⟨.ack, step_softReset h4 hv hin⟩

/-- Settles O16: both resets go to the reset state, with memory as the abort of the command in flight leaves it. -/
theorem resetsLeaveTheResetState : Obligations.ResetsLeaveTheResetState := by
  intro s v rest hwf hreset
  obtain ⟨r, hstep⟩ := step_reset hreset
  refine ⟨_, hstep, rfl, rfl, fun hb => ?_, fun i hb hd => ?_, fun e hb hd => ?_⟩
  · exact State.abort_mem_idle hb
  · rw [← s.outputRange_inputs_draws rest (s.draws + 1) i]
    exact State.abort_outside (s := { s with inputs := rest, draws := s.draws + 1 }) hwf hb hd
  · exact State.abort_mem_noCommand hb hd

end Sys2Proof.Machine
end
